-- ==== Sys2Proof/Word.lean ====
section
/-! DEFINITION. The widths of this hardware: bytes, register addresses, three-bit fields (00_scope.md R8, R12). -/

namespace Sys2Proof

/-- Every value that crosses the register bus is one byte (00_scope.md R8). -/
abbrev Byte := BitVec 8

/-- A register address, 0x00 to 0x3F (00_scope.md R14). An address of 0x40 cannot be expressed (R12). The parameter
`ADDR_BITS` of the configuration can narrow it further (log 32). -/
abbrev Addr := BitVec 6

/-- `rxAlign` and `txLastBits`: three bits, 0 to 7 (10_state.md R26, 00_scope.md R12). The parameter `RXALIGN_MAX` of the
configuration can narrow the first further (log 32). -/
abbrev Bits3 := BitVec 3

end Sys2Proof
end

