-- ==== Sys2Proof/Syntax.lean ====
section
/-! DEFINITION. The instructions: one constructor per row of spec/opcode_table.json, and the kinds of bit pattern
(the table's "format" column) they stand in. -/

namespace Sys2Proof

/-- The "format" column of spec/opcode_table.json: where a pattern stands (30_encoding.md, its kinds A to D).
Patterns of different formats may be the same bits. -/
inductive Format where
  /-- HOSTREQ: a request record on the host port. -/
  | hostReq
  /-- BUSFRAME byte 0, followed by the byte of the frame's second slot. -/
  | busByte0
  /-- BUSFRAME, 2 bytes. -/
  | busFrame2
  /-- BUSFRAME, N+1 bytes; `rxAlign` rides beside the frame (00_scope.md R14, "communication parameters"). -/
  | busFrameN (rxAlign : Bits3)
  /-- Sequence of N two-byte write frames. -/
  | busSequence
  /-- CHIPCMD: a value written whole to the COMMAND register. -/
  | chipCmd
  /-- CHIPREG value: the bit-framing register's. -/
  | chipReg
  /-- CARDFRAME short, 7 bits. -/
  | cardShort
  /-- CARDFRAME 2 bytes. -/
  | card2
  /-- CARDFRAME 9 bytes. -/
  | card9
  /-- CARDFRAME 4 bytes. -/
  | card4
  /-- CARDREPLY 2 bytes. -/
  | reply2
  /-- CARDREPLY 5 bytes. -/
  | reply5
  /-- CARDREPLY 1 to 3 bytes. -/
  | reply1to3
  /-- RESPONSE field STATUS, 3 bits in a byte. -/
  | status
deriving DecidableEq, Repr

/-- The operands of `COMM` (10_state.md R26, 43_communicate.md R160). -/
structure CommOperands where
  cmd     : Byte
  irqMask : Byte
  len     : Byte
  data    : List Byte
  align   : Bits3
  txLast  : Bits3
  chk     : Bool
  hasBack : Bool
  cap     : BitVec 7
deriving DecidableEq, Repr

/-- The rows of spec/opcode_table.json. The first twenty are the host operations of 30_encoding.md R95 with the
operands of 10_state.md R26; `data` holds the meaningful bytes of `DATA`. -/
inductive Instr where
  | rdreg (addr : Addr)
  | rdblk (addr : Addr) (len : Byte) (align : Bits3)
  | wrreg (addr : Addr) (val : Byte)
  | wrblk (addr : Addr) (len : Byte) (data : List Byte)
  | setbm (addr : Addr) (mask : Byte)
  | clrbm (addr : Addr) (mask : Byte)
  | hreset
  | sreset
  | init
  | anton
  | antoff
  | calccrc (len : Byte) (data : List Byte)
  | comm (args : CommOperands)
  | select (vbits : Byte)
  | reqa
  | wupa
  | isnew
  | hlta
  | initialise (busOk : Bool)
  | poll
  /-- `(unassigned)`: one of the 236 other operation codes (30_encoding.md R96). -/
  | unassigned (op : Byte)
  /-- First byte of a read frame (30_encoding.md R80). -/
  | xferAbyteRd (addr : Addr)
  /-- First byte of a write frame (R80), and the byte `val` of the frame's second slot, to which the row gives no bits. -/
  | xferAbyteWr (addr : Addr) (val : Byte)
  | xferRd1 (addr : Addr)
  | xferRdn (addr : Addr) (count : BitVec 7) (align : Bits3)
  | xferWr1 (addr : Addr) (val : Byte)
  | xferWrn (addr : Addr) (data : List Byte)
  /-- An address byte with bit 0 set (30_encoding.md R87). -/
  | xferReserved (byte0 : Byte)
  | cmdIdle
  | cmdCalccrc
  | cmdTransceive
  | cmdSoftreset
  /-- The bit-framing value: start-send bit, rxAlign, txLastBits (30_encoding.md R89). -/
  | bitframingValue (start : Bool) (align txLast : Bits3)
  | piccReqa
  | piccWupa
  | piccAnticollCl1
  | piccSelectCl1 (u0 u1 u2 u3 bcc crcLo crcHi : Byte)
  | piccHlta (crcLo crcHi : Byte)
  | piccReplyAtqa (a0 a1 : Byte)
  | piccReplyAnticoll (u0 u1 u2 u3 bcc : Byte)
  /-- The SAK and up to two further bytes (30_encoding.md R94). -/
  | piccReplySak (sak : Byte) (extra : List Byte)
  | statusOk
  | statusError
  | statusCollision
  | statusTimeout
  | statusNoRoom
  | statusInvalid
  | statusCrcWrong
deriving DecidableEq, Repr

end Sys2Proof
end

