-- ==== Sys2Proof/WellFormed.lean ====
section
/-! DEFINITION. Well-formed instructions: the operand domains of 10_state.md R26 and 00_scope.md R12 that the types
alone do not fix. -/

namespace Sys2Proof

/-- The twenty assigned operation codes (30_encoding.md R95). -/
def assignedOps : List Byte :=
  [0x01, 0x02, 0x03, 0x04, 0x05, 0x06, 0x10, 0x11, 0x12, 0x13, 0x14, 0x20, 0x30, 0x40, 0x41, 0x42, 0x43, 0x50,
   0x60, 0x61]

/-- `DATA` has 64 places, of which bytes 0 to `LEN`-1 are meaningful (10_state.md R26). -/
def dataFits (len : Byte) (data : List Byte) : Bool :=
  data.length == min len.toNat 64

/-- The operands of `COMM` are in their domains: `DATA` as above, `CAP` 0 to 64. -/
def CommOperands.wf (c : CommOperands) : Bool :=
  dataFits c.len c.data && Nat.ble c.cap.toNat 64

/-- The operands are in their domains. -/
def Instr.wf : Instr → Bool
  | .rdreg _ => true
  | .rdblk _ _ _ => true
  | .wrreg _ _ => true
  | .wrblk _ len data => dataFits len data
  | .setbm _ _ => true
  | .clrbm _ _ => true
  | .hreset => true
  | .sreset => true
  | .init => true
  | .anton => true
  | .antoff => true
  | .calccrc len data => dataFits len data
  | .comm c => c.wf
  | .select _ => true
  | .reqa => true
  | .wupa => true
  | .isnew => true
  | .hlta => true
  | .initialise _ => true
  | .poll => true
  | .unassigned op => !assignedOps.contains op
  | .xferAbyteRd _ => true
  | .xferAbyteWr _ _ => true
  | .xferRd1 _ => true
  | .xferRdn _ count _ => Nat.ble 1 count.toNat && Nat.ble count.toNat 64
  | .xferWr1 _ _ => true
  | .xferWrn _ data => Nat.ble 1 data.length && Nat.ble data.length 64
  | .xferReserved byte0 => byte0.getLsbD 0
  | .cmdIdle => true
  | .cmdCalccrc => true
  | .cmdTransceive => true
  | .cmdSoftreset => true
  | .bitframingValue _ _ _ => true
  | .piccReqa => true
  | .piccWupa => true
  | .piccAnticollCl1 => true
  | .piccSelectCl1 _ _ _ _ _ _ _ => true
  | .piccHlta _ _ => true
  | .piccReplyAtqa _ _ => true
  | .piccReplyAnticoll _ _ _ _ _ => true
  | .piccReplySak _ extra => Nat.ble extra.length 2
  | .statusOk => true
  | .statusError => true
  | .statusCollision => true
  | .statusTimeout => true
  | .statusNoRoom => true
  | .statusInvalid => true
  | .statusCrcWrong => true

end Sys2Proof
end

