-- ==== Sys2Proof/Decode.lean ====
section
/-! DEFINITION. Decoding, total on any bytes, and the encoder (30_encoding.md R80 to R97; the layout of a request
record is this model's, log 20). -/

namespace Sys2Proof

/-- A bit pattern in its place: a format of the opcode table and the bytes that stand there. -/
structure Packet where
  format : Format
  bytes  : List Byte
deriving DecidableEq, Repr

/-- The operand fields whose domain is smaller than a byte (10_state.md R26). -/
inductive OperandField where
  | addr | align | txLast | chk | hasBack | cap | busOk
deriving DecidableEq, Repr

/-- Why bytes encode no instruction. -/
inductive DecodeError where
  /-- The bytes end before the operands do. -/
  | truncated
  /-- An operand outside its domain (00_scope.md R12: it cannot be expressed at the host interface). -/
  | operandDomain (field : OperandField)
  /-- A frame the block never emits (30_encoding.md R87). -/
  | neverEmitted
  /-- No row of this format has this pattern. -/
  | noPattern
deriving DecidableEq, Repr

/-! ### Readers: each takes one operand off the front of the bytes -/

/-- What a reader answers: the operand and the bytes after it, or why there is none. -/
abbrev Read (α : Type) := Except DecodeError (α × List Byte)

def readByte : List Byte → Read Byte
  | b :: rest => .ok (b, rest)
  | [] => .error .truncated

def readAddr : List Byte → Read Addr
  | b :: rest => if b.toNat < 64 then .ok (b.setWidth 6, rest) else .error (.operandDomain .addr)
  | [] => .error .truncated

def readBits3 (field : OperandField) : List Byte → Read Bits3
  | b :: rest => if b.toNat < 8 then .ok (b.setWidth 3, rest) else .error (.operandDomain field)
  | [] => .error .truncated

def readBit (field : OperandField) : List Byte → Read Bool
  | b :: rest =>
    if b = 0 then .ok (false, rest) else if b = 1 then .ok (true, rest) else .error (.operandDomain field)
  | [] => .error .truncated

/-- `CAP` is 0 to 64 (10_state.md R26). -/
def readCap : List Byte → Read (BitVec 7)
  | b :: rest => if b.toNat ≤ 64 then .ok (b.setWidth 7, rest) else .error (.operandDomain .cap)
  | [] => .error .truncated

/-- The meaningful bytes of `DATA`: `LEN` of them, and no more than the 64 there are (10_state.md R26). -/
def readData (len : Byte) (bytes : List Byte) : Read (List Byte) :=
  if min len.toNat 64 ≤ bytes.length then
    .ok (bytes.take (min len.toNat 64), bytes.drop (min len.toNat 64))
  else .error .truncated

/-! ### Host requests (30_encoding.md R95, R96) -/

def decodeRdblk (bytes : List Byte) : Except DecodeError Instr := do
  let (addr, rest) ← readAddr bytes
  let (len, rest) ← readByte rest
  let (align, _) ← readBits3 .align rest
  return .rdblk addr len align

/-- The operands of the operations that take an address and one byte. -/
def decodeAddrByte (mk : Addr → Byte → Instr) (bytes : List Byte) : Except DecodeError Instr := do
  let (addr, rest) ← readAddr bytes
  let (val, _) ← readByte rest
  return mk addr val

def decodeWrblk (bytes : List Byte) : Except DecodeError Instr := do
  let (addr, rest) ← readAddr bytes
  let (len, rest) ← readByte rest
  let (data, _) ← readData len rest
  return .wrblk addr len data

def decodeCalccrc (bytes : List Byte) : Except DecodeError Instr := do
  let (len, rest) ← readByte bytes
  let (data, _) ← readData len rest
  return .calccrc len data

def decodeComm (bytes : List Byte) : Except DecodeError Instr := do
  let (cmd, rest) ← readByte bytes
  let (irqMask, rest) ← readByte rest
  let (len, rest) ← readByte rest
  let (data, rest) ← readData len rest
  let (align, rest) ← readBits3 .align rest
  let (txLast, rest) ← readBits3 .txLast rest
  let (chk, rest) ← readBit .chk rest
  let (hasBack, rest) ← readBit .hasBack rest
  let (cap, _) ← readCap rest
  return .comm ⟨cmd, irqMask, len, data, align, txLast, chk, hasBack, cap⟩

/-- The operation code selects the operation (30_encoding.md R95); every other code is unassigned (R96). Bytes after
the operands are ignored, as a field an operation does not read is (10_state.md R26). -/
def decodeOp (op : Byte) (rest : List Byte) : Except DecodeError Instr :=
  if op = 0x01 then (readAddr rest).map (fun p => .rdreg p.1)
  else if op = 0x02 then decodeRdblk rest
  else if op = 0x03 then decodeAddrByte .wrreg rest
  else if op = 0x04 then decodeWrblk rest
  else if op = 0x05 then decodeAddrByte .setbm rest
  else if op = 0x06 then decodeAddrByte .clrbm rest
  else if op = 0x10 then .ok .hreset
  else if op = 0x11 then .ok .sreset
  else if op = 0x12 then .ok .init
  else if op = 0x13 then .ok .anton
  else if op = 0x14 then .ok .antoff
  else if op = 0x20 then decodeCalccrc rest
  else if op = 0x30 then decodeComm rest
  else if op = 0x40 then (readByte rest).map (fun p => .select p.1)
  else if op = 0x41 then .ok .reqa
  else if op = 0x42 then .ok .wupa
  else if op = 0x43 then .ok .isnew
  else if op = 0x50 then .ok .hlta
  else if op = 0x60 then (readBit .busOk rest).map (fun p => .initialise p.1)
  else if op = 0x61 then .ok .poll
  else .ok (.unassigned op)

/-! ### Transport frames (30_encoding.md R80 to R87) -/

/-- The address byte of R80: bit 7 read or write, bits 6 to 1 the address, bit 0 zero. DESIGN CHOICE, log 34: so it is
read and written here whatever `READ_FLAG` and `ADDR_SHIFT` a configuration has. -/
def addressByte (read : Bool) (addr : Addr) : Byte :=
  (if read then 0x80 else 0x00) ||| ((addr.setWidth 8 <<< 1) &&& 0x7E)

/-- `RW = byte[7]`, `ADDR = byte[6:1]` (30_encoding.md R81). -/
def byteIsRead (b : Byte) : Bool := b.getLsbD 7

/-- See `byteIsRead`. -/
def byteAddr (b : Byte) : Addr := (b >>> 1).setWidth 6

def decodeByte0 : List Byte → Except DecodeError Instr
  | [] => .error .truncated
  | b :: rest =>
    if b.getLsbD 0 then .ok (.xferReserved b)
    else if byteIsRead b then .ok (.xferAbyteRd (byteAddr b))
    else (readByte rest).map (fun p => .xferAbyteWr (byteAddr b) p.1)

def decodeFrame2 : List Byte → Except DecodeError Instr
  | [b, v] =>
    if b.getLsbD 0 then .error .neverEmitted
    else if byteIsRead b then (if v = 0 then .ok (.xferRd1 (byteAddr b)) else .error .neverEmitted)
    else .ok (.xferWr1 (byteAddr b) v)
  | _ => .error .noPattern

/-- `N` times one read address byte, then 0x00 (30_encoding.md R83, R86). -/
def decodeFrameN (align : Bits3) : List Byte → Except DecodeError Instr
  | [] => .error .noPattern
  | b :: rest =>
    if rest.length = 0 ∨ 64 < rest.length then .error .neverEmitted
    else if b :: rest = List.replicate rest.length b ++ [0] ∧ byteIsRead b ∧ ¬ b.getLsbD 0 then
      .ok (.xferRdn (byteAddr b) (BitVec.ofNat 7 rest.length) align)
    else .error .neverEmitted

/-- The data bytes of a sequence of write frames that all begin with `b`. -/
def sequenceData (b : Byte) : List Byte → Option (List Byte)
  | [] => some []
  | [_] => none
  | a :: v :: rest => if a = b then (sequenceData b rest).map (v :: ·) else none

/-- `N` write frames to one address (30_encoding.md R85). -/
def decodeSequence : List Byte → Except DecodeError Instr
  | [] => .error .noPattern
  | b :: rest =>
    if b.getLsbD 0 ∨ byteIsRead b then .error .neverEmitted
    else match sequenceData b (b :: rest) with
      | some data => if data.length ≤ 64 then .ok (.xferWrn (byteAddr b) data) else .error .neverEmitted
      | none => .error .neverEmitted

/-! ### Chip values, card frames, status codes (30_encoding.md R88 to R97)

DESIGN CHOICE, log 34: these patterns are read, and written by `encode`, by the numbers the opcode table writes them with,
which are the defaults of the configuration. Under a configuration with other numbers a row is still the row of its
table word, and `exec` sends or answers the configured numbers. -/

/-- The chip command codes (30_encoding.md R88), by their defaults. DESIGN CHOICE, log 34. -/
def decodeChipCmd : List Byte → Except DecodeError Instr
  | [b] =>
    if b = 0x00 then .ok .cmdIdle
    else if b = 0x03 then .ok .cmdCalccrc
    else if b = 0x0C then .ok .cmdTransceive
    else if b = 0x0F then .ok .cmdSoftreset
    else .error .noPattern
  | _ => .error .noPattern

/-- `sRRR0TTT` (30_encoding.md R89), by the default places of the fields. DESIGN CHOICE, log 34. -/
def decodeChipReg : List Byte → Except DecodeError Instr
  | [b] =>
    if b.getLsbD 3 then .error .noPattern
    else .ok (.bitframingValue (b.getLsbD 7) ((b >>> 4).setWidth 3) (b.setWidth 3))
  | _ => .error .noPattern

/-- Seven valid bits (30_encoding.md R90). DESIGN CHOICE, log 34: 0x26 and 0x52 whatever `PICC_REQA` and `PICC_WUPA` a
configuration has. -/
def decodeCardShort : List Byte → Except DecodeError Instr
  | [b] =>
    if b &&& 0x7F = 0x26 then .ok .piccReqa
    else if b &&& 0x7F = 0x52 then .ok .piccWupa
    else .error .noPattern
  | _ => .error .noPattern

/-- The anti-collision frame (30_encoding.md R91). DESIGN CHOICE, log 34: 0x93, 0x20 whatever `PICC_SEL_CL1` and
`NVB_ANTICOLL` a configuration has. -/
def decodeCard2 (bytes : List Byte) : Except DecodeError Instr :=
  if bytes = [0x93, 0x20] then .ok .piccAnticollCl1 else .error .noPattern

/-- The SELECT frame (30_encoding.md R92). DESIGN CHOICE, log 34: 0x93, 0x70 whatever `PICC_SEL_CL1` and `NVB_SELECT` a
configuration has. -/
def decodeCard9 : List Byte → Except DecodeError Instr
  | [h, nvb, u0, u1, u2, u3, bcc, lo, hi] =>
    if h = 0x93 ∧ nvb = 0x70 then .ok (.piccSelectCl1 u0 u1 u2 u3 bcc lo hi) else .error .noPattern
  | _ => .error .noPattern

/-- The halt frame (30_encoding.md R93). DESIGN CHOICE, log 34: 0x50, 0x00 whatever `PICC_HLTA` a configuration has. -/
def decodeCard4 : List Byte → Except DecodeError Instr
  | [h, z, lo, hi] => if h = 0x50 ∧ z = 0x00 then .ok (.piccHlta lo hi) else .error .noPattern
  | _ => .error .noPattern

/-- An ATQA (30_encoding.md R94): two bytes whatever `ATQA_LEN` a configuration has. DESIGN CHOICE, log 34. -/
def decodeReply2 : List Byte → Except DecodeError Instr
  | [a0, a1] => .ok (.piccReplyAtqa a0 a1)
  | _ => .error .noPattern

/-- An anti-collision reply (30_encoding.md R94): five bytes whatever `ANTICOLL_REPLY_LEN` a configuration has. DESIGN
CHOICE, log 34. -/
def decodeReply5 : List Byte → Except DecodeError Instr
  | [u0, u1, u2, u3, bcc] => .ok (.piccReplyAnticoll u0 u1 u2 u3 bcc)
  | _ => .error .noPattern

/-- A reply of one to three bytes, the first the SAK (30_encoding.md R94, R100). -/
def decodeReplySak : List Byte → Except DecodeError Instr
  | sak :: extra => if extra.length ≤ 2 then .ok (.piccReplySak sak extra) else .error .noPattern
  | [] => .error .noPattern

/-- The status codes by their default numbers; the value 7 of the 3-bit field never occurs (30_encoding.md R97). DESIGN
CHOICE, log 34: a `STATUS.*` row is read by the numbers 0 to 6 whatever `STATUS_NUMBERING` a configuration has; `exec`
answers with the configured number. -/
def decodeStatus : List Byte → Except DecodeError Instr
  | [b] =>
    if b = 0 then .ok .statusOk
    else if b = 1 then .ok .statusError
    else if b = 2 then .ok .statusCollision
    else if b = 3 then .ok .statusTimeout
    else if b = 4 then .ok .statusNoRoom
    else if b = 5 then .ok .statusInvalid
    else if b = 6 then .ok .statusCrcWrong
    else .error .noPattern
  | _ => .error .noPattern

/-- The decoder: what a pattern is, in the place where it stands. -/
def decode (p : Packet) : Except DecodeError Instr :=
  match p.format with
  | .hostReq => match p.bytes with
    | op :: rest => decodeOp op rest
    | [] => .error .truncated
  | .busByte0 => decodeByte0 p.bytes
  | .busFrame2 => decodeFrame2 p.bytes
  | .busFrameN align => decodeFrameN align p.bytes
  | .busSequence => decodeSequence p.bytes
  | .chipCmd => decodeChipCmd p.bytes
  | .chipReg => decodeChipReg p.bytes
  | .cardShort => decodeCardShort p.bytes
  | .card2 => decodeCard2 p.bytes
  | .card9 => decodeCard9 p.bytes
  | .card4 => decodeCard4 p.bytes
  | .reply2 => decodeReply2 p.bytes
  | .reply5 => decodeReply5 p.bytes
  | .reply1to3 => decodeReplySak p.bytes
  | .status => decodeStatus p.bytes

/-! ### The encoder -/

def bitByte (b : Bool) : Byte := if b then 1 else 0

/-- `sRRR0TTT` (30_encoding.md R89). -/
def bitframingByte (start : Bool) (align txLast : Bits3) : Byte :=
  (if start then 0x80 else 0x00) ||| (align.setWidth 8 <<< 4) ||| txLast.setWidth 8

/-- The operand bytes of `COMM`, in the order of 30_encoding.md R95. -/
def encodeComm (c : CommOperands) : List Byte :=
  c.cmd :: c.irqMask :: c.len :: (c.data ++
    [c.align.setWidth 8, c.txLast.setWidth 8, bitByte c.chk, bitByte c.hasBack, c.cap.setWidth 8])

/-- The bytes of an instruction, and where they stand, with the numbers the decoder reads (DESIGN CHOICE, log 34). -/
def encode : Instr → Packet
  | .rdreg addr => ⟨.hostReq, [0x01, addr.setWidth 8]⟩
  | .rdblk addr len align => ⟨.hostReq, [0x02, addr.setWidth 8, len, align.setWidth 8]⟩
  | .wrreg addr val => ⟨.hostReq, [0x03, addr.setWidth 8, val]⟩
  | .wrblk addr len data => ⟨.hostReq, 0x04 :: addr.setWidth 8 :: len :: data⟩
  | .setbm addr mask => ⟨.hostReq, [0x05, addr.setWidth 8, mask]⟩
  | .clrbm addr mask => ⟨.hostReq, [0x06, addr.setWidth 8, mask]⟩
  | .hreset => ⟨.hostReq, [0x10]⟩
  | .sreset => ⟨.hostReq, [0x11]⟩
  | .init => ⟨.hostReq, [0x12]⟩
  | .anton => ⟨.hostReq, [0x13]⟩
  | .antoff => ⟨.hostReq, [0x14]⟩
  | .calccrc len data => ⟨.hostReq, 0x20 :: len :: data⟩
  | .comm c => ⟨.hostReq, 0x30 :: encodeComm c⟩
  | .select vbits => ⟨.hostReq, [0x40, vbits]⟩
  | .reqa => ⟨.hostReq, [0x41]⟩
  | .wupa => ⟨.hostReq, [0x42]⟩
  | .isnew => ⟨.hostReq, [0x43]⟩
  | .hlta => ⟨.hostReq, [0x50]⟩
  | .initialise busOk => ⟨.hostReq, [0x60, bitByte busOk]⟩
  | .poll => ⟨.hostReq, [0x61]⟩
  | .unassigned op => ⟨.hostReq, [op]⟩
  | .xferAbyteRd addr => ⟨.busByte0, [addressByte true addr, 0x00]⟩
  | .xferAbyteWr addr val => ⟨.busByte0, [addressByte false addr, val]⟩
  | .xferRd1 addr => ⟨.busFrame2, [addressByte true addr, 0x00]⟩
  | .xferRdn addr count align => ⟨.busFrameN align, List.replicate count.toNat (addressByte true addr) ++ [0x00]⟩
  | .xferWr1 addr val => ⟨.busFrame2, [addressByte false addr, val]⟩
  | .xferWrn addr data => ⟨.busSequence, data.flatMap (fun v => [addressByte false addr, v])⟩
  | .xferReserved byte0 => ⟨.busByte0, [byte0]⟩
  | .cmdIdle => ⟨.chipCmd, [0x00]⟩
  | .cmdCalccrc => ⟨.chipCmd, [0x03]⟩
  | .cmdTransceive => ⟨.chipCmd, [0x0C]⟩
  | .cmdSoftreset => ⟨.chipCmd, [0x0F]⟩
  | .bitframingValue start align txLast => ⟨.chipReg, [bitframingByte start align txLast]⟩
  | .piccReqa => ⟨.cardShort, [0x26]⟩
  | .piccWupa => ⟨.cardShort, [0x52]⟩
  | .piccAnticollCl1 => ⟨.card2, [0x93, 0x20]⟩
  | .piccSelectCl1 u0 u1 u2 u3 bcc crcLo crcHi => ⟨.card9, [0x93, 0x70, u0, u1, u2, u3, bcc, crcLo, crcHi]⟩
  | .piccHlta crcLo crcHi => ⟨.card4, [0x50, 0x00, crcLo, crcHi]⟩
  | .piccReplyAtqa a0 a1 => ⟨.reply2, [a0, a1]⟩
  | .piccReplyAnticoll u0 u1 u2 u3 bcc => ⟨.reply5, [u0, u1, u2, u3, bcc]⟩
  | .piccReplySak sak extra => ⟨.reply1to3, sak :: extra⟩
  | .statusOk => ⟨.status, [0]⟩
  | .statusError => ⟨.status, [1]⟩
  | .statusCollision => ⟨.status, [2]⟩
  | .statusTimeout => ⟨.status, [3]⟩
  | .statusNoRoom => ⟨.status, [4]⟩
  | .statusInvalid => ⟨.status, [5]⟩
  | .statusCrcWrong => ⟨.status, [6]⟩

/-! ### The opcode table's words (log 22) -/

/-- The place a table word of 8 bits is read in: the first of these whose rows hold it: a host request, a chip
command, a short card frame, byte 0 of a bus frame. The bytes after it are zeros. -/
def tableByte (b : Byte) : Packet :=
  if assignedOps.contains b then ⟨.hostReq, b :: List.replicate 72 0⟩
  else if b = 0x00 ∨ b = 0x0C ∨ b = 0x0F then ⟨.chipCmd, [b]⟩
  else if b = 0x26 ∨ b = 0x52 then ⟨.cardShort, [b]⟩
  else ⟨.busByte0, [b, 0]⟩

/-- The bytes of a word of `n` bytes, the most significant first: the table writes a frame's first byte in the
highest bits. -/
def tableBytes (w : Nat) : Nat → List Byte
  | 0 => []
  | n + 1 => BitVec.ofNat 8 (w >>> (8 * n)) :: tableBytes w n

/-- A table word and the zeros after it, in its place. -/
def tablePacket (nbits w : Nat) : Packet :=
  if nbits ≤ 8 then tableByte (BitVec.ofNat 8 w)
  else if nbits ≤ 16 then
    (if tableBytes w 2 = [0x93, 0x20] then ⟨.card2, tableBytes w 2⟩ else ⟨.busFrame2, tableBytes w 2⟩)
  else if nbits ≤ 32 then ⟨.card4, tableBytes w 4⟩
  else if nbits ≤ 40 then ⟨.reply5, tableBytes w 5⟩
  else ⟨.card9, tableBytes w 9⟩

/-- What the decoder reads from a table word. -/
def decodeTableWord (nbits w : Nat) : Option Instr :=
  match decode (tablePacket nbits w) with
  | .ok i => some i
  | .error _ => none

end Sys2Proof
end

