-- ==== Sys2Proof/Machine/Records.lean ====
section
/-! DEFINITION. The records at the host interface and the events of the trace
(00_scope.md R14, R15; 10_state.md R22, R27; 30_encoding.md R97). -/

namespace Sys2Proof.Machine

/-- The closed enumeration of status codes (00_scope.md R14, 60_exceptions.md R241). -/
inductive Status where
  | ok | error | collision | timeout | noRoom | invalid | crcWrong
deriving DecidableEq, Repr

/-- The copy of the `UID` register handed to the host: size, bytes and SAK (10_state.md R27, 46_host_ops.md R233). -/
structure UidOut where
  size  : Nat
  bytes : List Byte
  sak   : Byte
deriving DecidableEq, Repr

/-- The result fields of a response (10_state.md R27). `none`: the field holds no value. -/
structure Results where
  rval    : Option Byte := none
  rlen    : Option Byte := none
  rdata   : Option (List Byte) := none
  crc     : Option (Byte × Byte) := none
  atqa    : Option (Byte × Byte) := none
  present : Option Bool := none
  uidOut  : Option UidOut := none
  someTag : Option Bool := none
deriving DecidableEq, Repr

/-- The response record (10_state.md R27). `code` is the 3-bit `STATUS` field, the number the configuration
gives the status (30_encoding.md R97). `kept` is no result field: it is the reply that COMM has copied when its collision
test or its response CRC check ends it, which is there for an extension and which no caller inside the spec consumes
(10_state.md R27, 43_communicate.md R171, R172; log 24). -/
structure Response where
  status  : Status
  code    : BitVec 3
  results : Results
  kept    : Option (List Byte)
deriving DecidableEq, Repr

/-- The externally visible events of the trace (00_scope.md R15). -/
inductive Event where
  /-- One exchange on the serial link: what was sent and what came back (20_memory.md R53). -/
  | xfer (tx rx : List Byte)
  /-- A change of the reset line (10_state.md R23). -/
  | nrst (level : Bool)
  /-- At least this many time units pass (00_scope.md R11). -/
  | wait (units : Nat)
  /-- The card-discovered event (46_host_ops.md R233). -/
  | cardDiscovered (uid : UidOut)
  /-- The response that ends an operation (10_state.md R27). -/
  | response (r : Response)
deriving DecidableEq, Repr

end Sys2Proof.Machine
end

