-- ==== Sys2Proof/Config.lean ====
section
/-! DEFINITION. The configuration record (00_scope.md R6, R7; 10_state.md R46; 92 D40) and the free values
of the model: opaque constants with no body, which no proof can evaluate. The default values stand in
Machine/Defaults.lean. -/

namespace Sys2Proof

open Sys2Proof.Machine

/-- The addresses of the sixteen chip registers the block touches (10_state.md R31 to R44). -/
structure RegMap where
  command     : Addr
  comIrq      : Addr
  divIrq      : Addr
  error       : Addr
  fifoData    : Addr
  fifoLevel   : Addr
  bitFraming  : Addr
  mode        : Addr
  txControl   : Addr
  txAsk       : Addr
  crcResultH  : Addr
  crcResultL  : Addr
  tMode       : Addr
  tPrescaler  : Addr
  tReloadH    : Addr
  tReloadL    : Addr
deriving DecidableEq, Repr

/-- The bit masks inside those registers (10_state.md R31 to R38). -/
structure Masks where
  cmdPowerDown  : Byte
  irqTimer      : Byte
  irqRx         : Byte
  irqIdle       : Byte
  comIrqClear   : Byte
  irqCrc        : Byte
  errBufOvfl    : Byte
  errParity     : Byte
  errProtocol   : Byte
  errColl       : Byte
  fifoFlush     : Byte
  bfStartSend   : Byte
  bfRxAlign     : Byte
  bfRxAlignShift : Nat
  bfTxLastBits  : Byte
  antMask       : Byte
deriving DecidableEq, Repr

/-- The chip command codes (30_encoding.md R88). -/
structure ChipCommands where
  idle       : Byte
  calcCrc    : Byte
  transceive : Byte
  softReset  : Byte
deriving DecidableEq, Repr

/-- The six constants `INIT` writes (41_lifecycle.md R135). -/
structure InitConsts where
  tMode      : Byte
  tPrescaler : Byte
  tReloadH   : Byte
  tReloadL   : Byte
  txAsk      : Byte
  mode       : Byte
deriving DecidableEq, Repr

/-- The card frames' bytes and lengths (00_scope.md R6). -/
structure CardConsts where
  reqa             : Byte
  wupa             : Byte
  reqTxBits        : Bits3
  selCl1           : Byte
  nvbAnticoll      : Byte
  nvbSelect        : Byte
  hlta0            : Byte
  hlta1            : Byte
  atqaLen          : BitVec 7
  anticollReplyLen : BitVec 7
  sakCascadeBit    : Byte
  crcPreset        : BitVec 16
deriving DecidableEq, Repr

/-- The numbers of the seven status codes (30_encoding.md R97, D3). Any numbering is taken (log 35). -/
structure StatusNumbering where
  ok        : BitVec 3
  error     : BitVec 3
  collision : BitVec 3
  timeout   : BitVec 3
  noRoom    : BitVec 3
  invalid   : BitVec 3
  crcWrong  : BitVec 3
deriving DecidableEq, Repr

/-- SOFTRESET_POLL_BOUND is at least 1 and has no default (D11): one more than this free number. Log 9. -/
opaque Config.softResetBoundPred : Nat
/-- HALT_AFTER_READ has no default (D29). Log 9. -/
opaque Config.haltAfterReadChoice : Bool
/-- TIME_UNIT has no default (D12); no rule depends on it. Log 9. -/
opaque Config.timeUnitChoice : Nat
/-- The level of the reset line before the first HRESET, "any value" (10_state.md R47, 93 U26). Log 6. -/
opaque Config.nrstAtReset : Bool
/-- The chip as an oracle (20_memory.md R55): from the trace so far (newest event first) and the bytes sent, the
byte returned in a slot. Log 2. -/
opaque Config.chipOracle : List Event → List Byte → Nat → Byte

/-- The configuration record (00_scope.md R6, R7). -/
structure Config where
  /-- `ADDR_BITS` (R6; log 32). -/
  addrBits           : Nat
  /-- `RXALIGN_MAX` (R6; log 32). -/
  rxAlignMax         : Nat
  readFlag           : Byte
  addrShift          : Nat
  fifoCapacity       : Nat
  uidCapacity        : Nat
  crcPollBound       : Nat
  commPollBound      : Nat
  softResetPollBound : Nat
  resetHold          : Nat
  timeUnit           : Nat
  /-- `none`: no delay between two polls, the default (D35). -/
  pollDelay          : Option Nat
  bccFailStatus      : Status
  haltAfterRead      : Bool
  numbering          : StatusNumbering
  reg                : RegMap
  mask               : Masks
  cmd                : ChipCommands
  initC              : InitConsts
  card               : CardConsts
deriving DecidableEq, Repr

end Sys2Proof
end

