-- ==== Sys2Proof/Machine/Defaults.lean ====
section
/-! DEFINITION. The default configuration (00_scope.md R6, R7) and what makes a configuration well-formed (92 D40).
The numbers of R6 are the spec's; the chip's addresses, masks, command codes, Init constants and NVB_SELECT are
PRESUMED (93 G1, G2, G3, G7; log 10). -/

namespace Sys2Proof

open Sys2Proof.Machine

/-- 20_memory.md R63. PRESUMED: 93 G1; log 10. -/
def RegMap.default : RegMap where
  command     := 0x01
  comIrq      := 0x04
  divIrq      := 0x05
  error       := 0x06
  fifoData    := 0x09
  fifoLevel   := 0x0A
  bitFraming  := 0x0D
  mode        := 0x11
  txControl   := 0x14
  txAsk       := 0x15
  crcResultH  := 0x21
  crcResultL  := 0x22
  tMode       := 0x2A
  tPrescaler  := 0x2B
  tReloadH    := 0x2C
  tReloadL    := 0x2D

/-- 10_state.md R31 to R38. PRESUMED: 93 G2, but for ANT_MASK, which is R6's; log 10. -/
def Masks.default : Masks where
  cmdPowerDown   := 0x10
  irqTimer       := 0x01
  irqRx          := 0x20
  irqIdle        := 0x10
  comIrqClear    := 0x7F
  irqCrc         := 0x04
  errBufOvfl     := 0x10
  errParity      := 0x02
  errProtocol    := 0x01
  errColl        := 0x08
  fifoFlush      := 0x80
  bfStartSend    := 0x80
  bfRxAlign      := 0x70
  bfRxAlignShift := 4
  bfTxLastBits   := 0x07
  antMask        := 0x03

/-- 30_encoding.md R88. PRESUMED: 93 G3; log 10. -/
def ChipCommands.default : ChipCommands where
  idle       := 0x00
  calcCrc    := 0x03
  transceive := 0x0C
  softReset  := 0x0F

/-- 41_lifecycle.md R135. PRESUMED: 93 G3; log 10. -/
def InitConsts.default : InitConsts where
  tMode      := 0x80
  tPrescaler := 0xA9
  tReloadH   := 0x03
  tReloadL   := 0xE8
  txAsk      := 0x40
  mode       := 0x3D

/-- 00_scope.md R6. `nvbSelect` is PRESUMED: 93 G7; log 10. -/
def CardConsts.default : CardConsts where
  reqa             := 0x26
  wupa             := 0x52
  reqTxBits        := 7
  selCl1           := 0x93
  nvbAnticoll      := 0x20
  nvbSelect        := 0x70
  hlta0            := 0x50
  hlta1            := 0x00
  atqaLen          := 2
  anticollReplyLen := 5
  sakCascadeBit    := 0x04
  crcPreset        := 0x6363

/-- 30_encoding.md R97. -/
def StatusNumbering.default : StatusNumbering where
  ok        := 0
  error     := 1
  collision := 2
  timeout   := 3
  noRoom    := 4
  invalid   := 5
  crcWrong  := 6

/-- The record with every default of 00_scope.md R6 and R7; the three parameters the spec leaves OPEN without a
default are the free values of Config.lean (log 9). -/
def Config.default : Config where
  addrBits           := 6
  rxAlignMax         := 7
  readFlag           := 0x80
  addrShift          := 1
  fifoCapacity       := 64
  uidCapacity        := 10
  crcPollBound       := 5000
  commPollBound      := 2000
  softResetPollBound := Config.softResetBoundPred + 1
  resetHold          := 50
  timeUnit           := Config.timeUnitChoice
  pollDelay          := none
  bccFailStatus      := .error
  haltAfterRead      := Config.haltAfterReadChoice
  numbering          := .default
  reg                := .default
  mask               := .default
  cmd                := .default
  initC              := .default
  card               := .default

/-- The sixteen roles in the order of 20_memory.md R63. -/
def RegMap.all (r : RegMap) : List Addr :=
  [r.command, r.comIrq, r.divIrq, r.error, r.fifoData, r.fifoLevel, r.bitFraming, r.mode,
   r.txControl, r.txAsk, r.crcResultH, r.crcResultL, r.tMode, r.tPrescaler, r.tReloadH, r.tReloadL]

/-- The number of a status code (30_encoding.md R97). -/
def StatusNumbering.code (n : StatusNumbering) : Status → BitVec 3
  | .ok => n.ok
  | .error => n.error
  | .collision => n.collision
  | .timeout => n.timeout
  | .noRoom => n.noRoom
  | .invalid => n.invalid
  | .crcWrong => n.crcWrong

/-- `IRQ_DONE` (30_encoding.md R101). -/
def Config.irqDone (c : Config) : Byte := c.mask.irqRx ||| c.mask.irqIdle

/-- `ERR_FATAL_MASK` (10_state.md R34). -/
def Config.errFatal (c : Config) : Byte := c.mask.errBufOvfl ||| c.mask.errParity ||| c.mask.errProtocol

/-- `BF_ALL` (10_state.md R37). -/
def Config.bfAll (c : Config) : Byte := c.mask.bfStartSend ||| c.mask.bfRxAlign ||| c.mask.bfTxLastBits

/-- A well-formed configuration (92 D40): poll bounds at least 1, the sixteen addresses distinct, FIFO_CAPACITY
1 to 64, UID_CAPACITY at least 4, BCC_FAIL_STATUS one of its three values. DESIGN CHOICE, log 35: nothing is asked of a
parameter that D40 does not name; so any STATUS_NUMBERING is taken, one that uses 7 or gives two statuses one number
among them. -/
def Config.wf (c : Config) : Bool :=
  c.crcPollBound != 0 && c.commPollBound != 0 && c.softResetPollBound != 0 &&
  decide c.reg.all.Nodup &&
  c.fifoCapacity != 0 && Nat.ble c.fifoCapacity 64 &&
  Nat.ble 4 c.uidCapacity &&
  (c.bccFailStatus == .error || c.bccFailStatus == .invalid || c.bccFailStatus == .crcWrong)

/-- The two numbers of the address byte that the rules state (30_encoding.md R81) are the configuration's. A statement that
rests on them says so (70_reset_and_hazards.md R288; log 27). -/
def Config.standard (c : Config) : Bool := c.readFlag == 0x80 && c.addrShift == 1

end Sys2Proof
end

