-- ==== Sys2Proof/Machine/State.lean ====
section
/-! DEFINITION. The state of the block and its environment, as plain data, and why a step can stop
(10_state.md R21 to R30, R46, R47; 20_memory.md R55, R56). -/

namespace Sys2Proof.Machine

/-- The `UID` register (10_state.md R22). `b` holds the bytes `UID.b[0..size-1]`; the storage beyond `size` is not
observable (D38). -/
structure Uid where
  size  : Nat
  b     : List Byte
  sak   : Byte
  valid : Bool
deriving DecidableEq, Repr

/-- The operations, as entries of the call stack (10_state.md R28). -/
inductive OpName where
  | rdreg | rdblk | wrreg | wrblk | setbm | clrbm | hreset | sreset | init | anton | antoff | calccrc | comm
  | select | reqa | wupa | isnew | hlta | initialise | poll
deriving DecidableEq, Repr

/-- One entry of `SEQ`: a running operation and its next step. "A step is one statement of the operation's pseudocode"
(10_state.md R28): `stmt` is the number of the written line of that pseudocode, from 1, lines that only open a loop not
counted (log 33). -/
structure SeqEntry where
  op   : OpName
  stmt : Nat
deriving DecidableEq, Repr

/-- The marks the pseudocode of three operations bears: K1 to K4 (42_crc.md R150), S0 to S7 (43_communicate.md R160), L1
to L6 (44_anticollision_select.md R194). -/
inductive StepMark where
  | k1 | k2 | k3 | k4
  | s0 | s1 | s2 | s2b | s3 | s3b | s4 | s5 | s6 | s6b | s6c | s7
  | l1 | l2 | l3 | l4 | l5 | l6
deriving DecidableEq, Repr

/-- The last of the marks that stand at or before a line; `none` before the first. -/
def markBefore (line : Nat) : List (Nat × StepMark) → Option StepMark → Option StepMark
  | [], m => m
  | (l, x) :: rest, m => if l ≤ line then markBefore line rest (some x) else m

/-- The marked step a running operation is in (42_crc.md R150, 43_communicate.md R160, 44_anticollision_select.md
R194). -/
def SeqEntry.mark (e : SeqEntry) : Option StepMark :=
  match e.op with
  | .calccrc => markBefore e.stmt [(2, .k1), (7, .k2), (11, .k3), (14, .k2), (16, .k4)] none
  | .comm => markBefore e.stmt [(2, .s0), (3, .s1), (5, .s2), (6, .s2b), (7, .s3), (8, .s3b), (9, .s4), (16, .s5),
      (18, .s6), (24, .s6b), (25, .s6c), (30, .s7)] none
  | .select => markBefore e.stmt [(1, .l1), (2, .l2), (3, .l3), (5, .l4), (6, .l5), (17, .l6)] none
  | .rdreg | .rdblk | .wrreg | .wrblk | .setbm | .clrbm | .hreset | .sreset | .init | .anton | .antoff | .reqa | .wupa
  | .isnew | .hlta | .initialise | .poll => none

/-- The scratch of one operation (10_state.md R30). -/
structure Scratch where
  sb : List Byte
  rb : List Byte
  kb : List Byte
  ab : List Byte
  e  : Byte
  n  : Byte
  v  : Byte
  lo : Byte
  hi : Byte
deriving DecidableEq, Repr

/-- The register array of the fixture `SimpleRegChip` (20_memory.md R56): pairs of address and byte, addresses rising,
no byte listed that an unlisted address reads as. -/
abbrev Memory := List Host.Cell

/-- The chip and the card behind it, which answer every exchange (20_memory.md R55). -/
inductive Chip where
  /-- The oracle: the answers laid up for the next slots of read frames, in order; when they run out, and in the slots
  every rule ignores, the free value `Config.chipOracle`. -/
  | oracle (answers : List Byte)
  /-- The fixture `SimpleRegChip` (20_memory.md R56). -/
  | simpleRegs (m : Memory)
deriving DecidableEq, Repr

/-- The whole state. -/
structure State where
  /-- The configuration record; no step changes it (10_state.md R46; log 1). -/
  cfg      : Config
  /-- 10_state.md R22. -/
  uid      : Uid
  /-- 10_state.md R23. -/
  nrst     : Bool
  /-- 10_state.md R24. -/
  fatal    : Bool
  /-- 10_state.md R25. -/
  busy     : Bool
  /-- The last response record; `none` until the first response (10_state.md R27, R47). -/
  response : Option Response
  /-- The call stack, innermost first; empty is "idle" (10_state.md R28). -/
  seq      : List SeqEntry
  /-- The loop counter `POLL` (10_state.md R28). -/
  poll     : Nat
  /-- 10_state.md R30. -/
  scratch  : Scratch
  /-- The model's own: what answers the exchanges (log 2). -/
  chip     : Chip
  /-- The model's own: the events so far, newest first (00_scope.md R15; log 11). -/
  trace    : List Event
  /-- The model's own: what the host presents next, in order (log 5). -/
  host     : List Packet
deriving DecidableEq, Repr

/-- No fault exists: "There is no trap, no vector, no handler" (60_exceptions.md R240). An operation that meets a
failure ends with a status, in a next state. -/
inductive Fault where
deriving DecidableEq, Repr

/-- Why the model gives a step no meaning. -/
inductive Refusal where
  /-- Raised by `exec` for an instruction that has no meaning yet: safe. -/
  | notModelled (mnemonic : String)
  /-- Raised by `step` when the configuration is not well-formed (92 D40: "A model refuses any other configuration"):
  safe. -/
  | illFormedConfiguration
  /-- Raised by `step` when the bytes presented encode no instruction (00_scope.md R12): safe. -/
  | undecodable (e : DecodeError)
  /-- Raised by `step` when an operand lies outside the domain that `ADDR_BITS` or `RXALIGN_MAX` gives it (00_scope.md R6,
  R12: "unrepresentable ... or refuse it"; never with the defaults; log 32): safe. -/
  | operandOutsideDomain
  /-- Raised by SELECT with VBITS not 0 (44_anticollision_select.md R202: "is refused: the model gives it no
  meaning"): safe. -/
  | validBitsNotZero
  /-- Raised by XFER.RESERVED (30_encoding.md R87: never emitted; 93 U5: refuse): safe. -/
  | reservedAddressByte
deriving DecidableEq, Repr

/-- The scratch between operations (10_state.md R30: nothing survives). DESIGN CHOICE, log 6. -/
def Scratch.empty : Scratch := ⟨[], [], [], [], 0, 0, 0, 0, 0⟩

/-- The machine right after the block's own reset (10_state.md R47, 70_reset_and_hazards.md R270). `UID.sak`, `NRST`,
`POLL` and the scratch have no value there: DESIGN CHOICE, log 6. -/
def State.reset : State where
  cfg      := .default
  uid      := ⟨0, [], 0, false⟩
  nrst     := Config.nrstAtReset
  fatal    := false
  busy     := false
  response := none
  seq      := []
  poll     := 0
  scratch  := .empty
  chip     := .oracle []
  trace    := []
  host     := []

/-! ### One update per field -/

def State.setUid (s : State) (x : Uid) : State := { s with uid := x }
def State.setNrst (s : State) (x : Bool) : State := { s with nrst := x }
def State.setFatal (s : State) (x : Bool) : State := { s with fatal := x }
def State.setBusy (s : State) (x : Bool) : State := { s with busy := x }
def State.setResponse (s : State) (x : Option Response) : State := { s with response := x }
def State.setSeq (s : State) (x : List SeqEntry) : State := { s with seq := x }
def State.setPoll (s : State) (x : Nat) : State := { s with poll := x }
def State.setScratch (s : State) (x : Scratch) : State := { s with scratch := x }
def State.setChip (s : State) (x : Chip) : State := { s with chip := x }
def State.setTrace (s : State) (x : List Event) : State := { s with trace := x }
def State.setHost (s : State) (x : List Packet) : State := { s with host := x }

/-- One more event in the trace. -/
def State.emit (s : State) (e : Event) : State := s.setTrace (e :: s.trace)

end Sys2Proof.Machine
end

