-- ==== Sys2Proof/Machine/Flags.lean ====
section
/-! DEFINITION. What plays the part of flags: the mask tests of polled bytes, the classification of the error byte and
the maps of a status (10_state.md R29; 43_communicate.md R167, R169, R171; 44_anticollision_select.md R193;
45_halt.md R221). -/

namespace Sys2Proof.Machine

/-- `x & M != 0`: any bit of the mask is set (40_register_access.md R118, D41). -/
def anySet (x mask : Byte) : Bool := x &&& mask != 0

/-- `x & M == M`: every bit of the mask is set. -/
def allSet (x mask : Byte) : Bool := x &&& mask == mask

/-- What one poll says (20_memory.md R66). -/
inductive Verdict where
  | done
  | failed (st : Status)
  | again
deriving DecidableEq, Repr

/-- The soft reset is over when the power-down bit reads 0 (41_lifecycle.md R131). -/
def softResetVerdict (c : Config) (b : Byte) : Verdict :=
  if anySet b c.mask.cmdPowerDown then .again else .done

/-- The CRC poll looks at the CRC-done flag only (42_crc.md R153). -/
def crcVerdict (c : Config) (b : Byte) : Verdict :=
  if anySet b c.mask.irqCrc then .done else .again

/-- The completion poll tests the timer-expired bit first, then any bit of the requested mask (43_communicate.md
R167). -/
def commVerdict (c : Config) (irqMask : Byte) (b : Byte) : Verdict :=
  if anySet b c.mask.irqTimer then .failed .timeout
  else if anySet b irqMask then .done
  else .again

/-- The three fatal bits of the error byte (43_communicate.md R169). -/
def fatalError (c : Config) (e : Byte) : Bool := anySet e c.errFatal

/-- The collision bit of the error byte (43_communicate.md R171). -/
def collisionError (c : Config) (e : Byte) : Bool := anySet e c.mask.errColl

/-- The last two reply bytes are the CRC, low byte first (43_communicate.md R172). -/
def crcMatches (back : List Byte) (crc : Byte × Byte) : Bool :=
  back.getD (back.length - 2) 0 == crc.1 && back.getD (back.length - 1) 0 == crc.2

/-- `IsNewCardPresent` maps OK and COLLISION to true (44_anticollision_select.md R193). -/
def presentOf : Status → Bool
  | .ok => true
  | .collision => true
  | .error | .timeout | .noRoom | .invalid | .crcWrong => false

/-- The map of HLTA: TIMEOUT is success, every other status an error (45_halt.md R221). -/
def haltStatus : Status → Status
  | .timeout => .ok
  | .ok | .error | .collision | .noRoom | .invalid | .crcWrong => .error

end Sys2Proof.Machine
end

