-- ==== Sys2Proof/Machine/Operands.lean ====
section
/-! DEFINITION. The operand forms of the bus: address bytes, bit-framing values, the first-byte mask, the BCC
(30_encoding.md R81, R89, R91, R102; 40_register_access.md R118); the operand domains a configuration gives
(00_scope.md R6, R12). -/

namespace Sys2Proof.Machine

/-- `abyte_wr(a)` (30_encoding.md R81). -/
def abyteWr (c : Config) (a : Addr) : Byte := (a.setWidth 8 <<< c.addrShift) &&& 0x7E

/-- `abyte_rd(a)` (30_encoding.md R81). -/
def abyteRd (c : Config) (a : Addr) : Byte := c.readFlag ||| abyteWr c a

/-- The single-register read frame (30_encoding.md R82). -/
def readFrame (c : Config) (a : Addr) : List Byte := [abyteRd c a, 0x00]

/-- The block read frame of `n` bytes (30_encoding.md R83). -/
def burstFrame (c : Config) (a : Addr) (n : Nat) : List Byte := List.replicate n (abyteRd c a) ++ [0x00]

/-- The single-register write frame (30_encoding.md R84). -/
def writeFrame (c : Config) (a : Addr) (v : Byte) : List Byte := [abyteWr c a, v]

/-- `bf(rxAlign, txLastBits)` (30_encoding.md R89). -/
def bf (c : Config) (align txLast : Bits3) : Byte :=
  ((align.setWidth 8 <<< c.mask.bfRxAlignShift) &&& c.mask.bfRxAlign) |||
    (txLast.setWidth 8 &&& c.mask.bfTxLastBits)

/-- `amask(rxAlign)`: the shift is taken in 16 bits and truncated (30_encoding.md R102, 40_register_access.md R118). -/
def amask (align : Bits3) : Byte := ((0xFF : BitVec 16) <<< align.toNat).setWidth 8

/-- Only the first byte of a block read is masked (40_register_access.md R111). -/
def maskFirst (align : Bits3) : List Byte → List Byte
  | [] => []
  | b :: rest => (b &&& amask align) :: rest

/-- The exclusive-or of bytes: the BCC of UID bytes (30_encoding.md R91). -/
def xorBytes : List Byte → Byte
  | [] => 0
  | b :: rest => b ^^^ xorBytes rest

/-- A register address is below `2 ^ ADDR_BITS` (00_scope.md R6, R12; log 32). -/
def addrInDomain (c : Config) (a : Addr) : Bool := Nat.blt a.toNat (2 ^ c.addrBits)

/-- An alignment is at most `RXALIGN_MAX` (00_scope.md R6, R12; log 32). -/
def alignInDomain (c : Config) (align : Bits3) : Bool := Nat.ble align.toNat c.rxAlignMax

/-- The addresses and alignments an instruction carries are in the domains the configuration gives them (00_scope.md
R12; log 32). -/
def operandsInDomain (c : Config) : Instr → Bool
  | .rdreg a | .wrreg a _ | .wrblk a _ _ | .setbm a _ | .clrbm a _ | .xferAbyteRd a | .xferAbyteWr a _ | .xferRd1 a
  | .xferWr1 a _ | .xferWrn a _ => addrInDomain c a
  | .rdblk a _ align | .xferRdn a _ align => addrInDomain c a && alignInDomain c align
  | .comm o => alignInDomain c o.align
  | .bitframingValue _ align _ => alignInDomain c align
  | .hreset | .sreset | .init | .anton | .antoff | .calccrc _ _ | .select _ | .reqa | .wupa | .isnew | .hlta
  | .initialise _ | .poll | .unassigned _ | .xferReserved _ | .cmdIdle | .cmdCalccrc | .cmdTransceive | .cmdSoftreset
  | .piccReqa | .piccWupa | .piccAnticollCl1 | .piccSelectCl1 _ _ _ _ _ _ _ | .piccHlta _ _ | .piccReplyAtqa _ _
  | .piccReplyAnticoll _ _ _ _ _ | .piccReplySak _ _ | .statusOk | .statusError | .statusCollision | .statusTimeout
  | .statusNoRoom | .statusInvalid | .statusCrcWrong => true

end Sys2Proof.Machine
end

