-- ==== Sys2Proof/Machine/Ops.lean ====
section
/-! DEFINITION. The named operations every meaning is made of: the fixture's memory, the exchange on the link, the
control notation of 00_scope.md R11, the end of an operation with a status (60_exceptions.md R240), polling. -/

namespace Sys2Proof.Machine

/-! ### The register array of SimpleRegChip (20_memory.md R56, log 3) -/

/-- One byte; an unlisted address reads 0x00. DESIGN CHOICE, log 3. -/
def memRead : Memory → Nat → Byte
  | [], _ => 0
  | (k, v) :: rest, a => if k = a then v else memRead rest a

/-- Store one byte, keeping the canonical form. -/
def memWrite : Memory → Nat → Byte → Memory
  | [], a, v => if v = 0 then [] else [(a, v)]
  | (k, w) :: rest, a, v =>
    if a < k then (if v = 0 then (k, w) :: rest else (a, v) :: (k, w) :: rest)
    else if a = k then (if v = 0 then rest else (a, v) :: rest)
    else (k, w) :: memWrite rest a v

/-- The canonical form: addresses rising and below 64 (20_memory.md R51), no byte listed that is 0x00. -/
abbrev Memory.wf (m : Memory) : Prop :=
  m.Pairwise (fun x y => x.1 < y.1) ∧ ∀ c ∈ m, c.2 ≠ 0 ∧ c.1 < 64

/-! ### The exchange (20_memory.md R53 to R56) -/

/-- A frame is a read when bit 7 of its first byte is 1 (30_encoding.md R86). -/
def frameIsRead : List Byte → Bool
  | [] => false
  | b :: _ => byteIsRead b

/-- The byte the chip returns in slot `k` of the frame `tx` (20_memory.md R55; for the fixture R56). -/
def chipSlot (chip : Chip) (trace : List Event) (tx : List Byte) (k : Nat) : Byte :=
  match chip with
  | .oracle answers =>
    if frameIsRead tx && k != 0 then (answers[k - 1]?).getD (Config.chipOracle trace tx k)
    else Config.chipOracle trace tx k
  | .simpleRegs m =>
    if k = 0 then 0
    else if frameIsRead tx then memRead m (byteAddr (tx.getD (k - 1) 0)).toNat
    else Config.chipOracle trace tx k

/-- The chip after the frame: answers given are gone; the fixture stores what a write frame writes. -/
def chipAfter (chip : Chip) (tx : List Byte) : Chip :=
  match chip with
  | .oracle answers => .oracle (if frameIsRead tx then answers.drop (tx.length - 1) else answers)
  | .simpleRegs m =>
    match tx with
    | [b, v] => if byteIsRead b then .simpleRegs m else .simpleRegs (memWrite m (byteAddr b).toNat v)
    | _ => .simpleRegs m

/-- The answer to a frame: one byte for each byte sent (20_memory.md R53). -/
def State.rx (s : State) (tx : List Byte) : List Byte :=
  (List.range tx.length).map (chipSlot s.chip s.trace tx)

/-- The state after a frame: the chip has answered and the exchange is in the trace. -/
def State.exchanged (s : State) (tx : List Byte) : State :=
  (s.setChip (chipAfter s.chip tx)).emit (.xfer tx (s.rx tx))

/-! ### Operations and their control notation (00_scope.md R11) -/

/-- What an operation that does not end OK hands to its caller: the status, and the reply `COMM` keeps (10_state.md R27,
43_communicate.md R171, R172). -/
structure Raised where
  status : Status
  back   : Option (List Byte)
deriving DecidableEq, Repr

/-- A sequence of statements: it changes the state and ends with a result, or is ended by `raise`; the state it has
reached stays either way (60_exceptions.md R254). -/
abbrev Op (α : Type) := ExceptT Raised (StateM State) α

/-- Run a sequence from a state. -/
def runOp {α : Type} (m : Op α) (s : State) : Except Raised α × State := (ExceptT.run m).run s

/-- A sequence given by what it does to a state. -/
def opOf {α : Type} (f : State → Except Raised α × State) : Op α :=
  ExceptT.mk (fun s => f s : StateM State (Except Raised α))

/-- `raise S` ends the operation at once with status `S` (00_scope.md R11, 60_exceptions.md R240). -/
def raise {α : Type} (st : Status) : Op α := opOf fun s => (.error ⟨st, none⟩, s)

/-- `raise S` where the reply copied so far is kept (43_communicate.md R171, R172). -/
def raiseKeeping {α : Type} (st : Status) (back : Option (List Byte)) : Op α := opOf fun s => (.error ⟨st, back⟩, s)

/-- The configuration record. -/
def askCfg : Op Config := opOf fun s => (.ok s.cfg, s)

/-- Read the state. -/
def peek {α : Type} (f : State → α) : Op α := opOf fun s => (.ok (f s), s)

/-- Change the state. -/
def update (f : State → State) : Op Unit := opOf fun s => (.ok (), f s)

/-- Run the body of an operation with its entry on the call stack `SEQ`, its first statement next (10_state.md
R28). -/
def enter {α : Type} (op : OpName) (m : Op α) : Op α :=
  opOf fun s =>
    let r := runOp m (s.setSeq (⟨op, 1⟩ :: s.seq))
    (r.1, r.2.setSeq s.seq)

/-- The innermost running operation is at statement `k`. -/
def seqAt (k : Nat) : List SeqEntry → List SeqEntry
  | [] => []
  | entry :: rest => ⟨entry.op, k⟩ :: rest

/-- `SEQ`: the running operation reaches its statement `k` (10_state.md R28, log 33). -/
def reach (k : Nat) : Op Unit := update fun s => s.setSeq (seqAt k s.seq)

/-- Run what stands in statement `k` of the running operation (10_state.md R28, log 33). -/
def line {α : Type} (k : Nat) (m : Op α) : Op α := do
  reach k
  m

/-- The running operation passes its statements `ks`, one after the other in the written order: tests that let it go on,
and last the one it stays at (10_state.md R28, log 33). -/
def pass : List Nat → Op Unit
  | [] => pure ()
  | k :: rest => do
    reach k
    pass rest

/-- `(st, r) <- call Op(args)`: the caller receives the status and decides (00_scope.md R11). -/
def attempt {α : Type} (m : Op α) : Op (Except Raised α) :=
  opOf fun s => let r := runOp m s; (.ok r.1, r.2)

/-- The status of an attempted call. -/
def statusOf {α : Type} : Except Raised α → Status
  | .ok _ => .ok
  | .error e => e.status

/-- `(st, r) <- call Op(args); if st != OK: raise st`: a failure is passed on unchanged (60_exceptions.md R255). What
the callee keeps stays with it; the caller keeps `kept`. `check` are the numbers of the statements that test a status,
down to the one that ends the operation. -/
def passOnKeeping {α : Type} (kept : Option (List Byte)) (check : Status → List Nat) (m : Op α) : Op α := do
  let r ← attempt m
  pass (check (statusOf r))
  match r with
  | .ok a => pure a
  | .error e => raiseKeeping e.status kept

/-- The same by a caller that keeps nothing. -/
def passOn {α : Type} (check : Status → List Nat) (m : Op α) : Op α := passOnKeeping none check m

/-- `Xfer(tx) -> rx` (20_memory.md R53): it cannot fail (40_register_access.md R120). It is made whatever level `NRST`
has. DESIGN CHOICE: `NRST` has no specified level before the first HRESET (10_state.md R47), register accesses are
defined from the first request on (70_reset_and_hazards.md R272, 41_lifecycle.md R136), and no frame is to be sent while
the line is low (41_lifecycle.md R130, 70_reset_and_hazards.md R282); which of the last two holds of a frame before the
first HRESET is left open (log 31). -/
def xfer (tx : List Byte) : Op (List Byte) := opOf fun s => (.ok (s.rx tx), s.exchanged tx)

/-- `NRST <- level` (00_scope.md R11, 10_state.md R23). -/
def driveNrst (level : Bool) : Op Unit := update fun s => (s.setNrst level).emit (.nrst level)

/-- `Wait(t)`: at least `t` time units pass (00_scope.md R11). -/
def waitUnits (t : Nat) : Op Unit := update fun s => s.emit (.wait t)

/-- `Wait(POLL_DELAY)`, timing only; nothing when the delay is none (D35, log 11). -/
def waitPollDelay : Op Unit :=
  update fun s => match s.cfg.pollDelay with
    | none => s
    | some t => s.emit (.wait t)

/-- `POLL <- n` (10_state.md R28). -/
def loadPoll (n : Nat) : Op Unit := update fun s => s.setPoll n

/-- Change the scratch (10_state.md R30). -/
def latch (f : Scratch → Scratch) : Op Unit := update fun s => s.setScratch (f s.scratch)

/-! ### The end of an operation: the response record (10_state.md R27, 60_exceptions.md R240) -/

/-- No result field holds a value. -/
def noResult : Results := ⟨none, none, none, none, none, none, none, none⟩

/-- The response record of an operation's end. A result field holds a value only with OK (70_reset_and_hazards.md R277);
the reply COMM keeps stands apart (log 24). -/
def responseOf (c : Config) : Except Raised Results → Response
  | .ok r => ⟨.ok, c.numbering.code .ok, r, none⟩
  | .error e => ⟨e.status, c.numbering.code e.status, noResult, e.back⟩

/-- Hand the response to the host: `STATUS` and result fields are written, `BUSY` falls, `SEQ` is idle, and neither
`POLL` nor the scratch survives (10_state.md R25, R27, R28, R30). Everything else stays as the operation left it
(60_exceptions.md R240, R254). -/
def respond (r : Except Raised Results) (s : State) : State :=
  (((((s.setBusy false).setSeq []).setPoll 0).setScratch .empty).setResponse (some (responseOf s.cfg r))).emit
    (.response (responseOf s.cfg r))

/-- An operation from the acceptance of its request to its response (10_state.md R25). -/
def operation (m : Op Results) (s : State) : State :=
  let r := runOp m (s.setBusy true)
  respond r.1 r.2

end Sys2Proof.Machine
end

