-- ==== Sys2Proof/Machine/RegisterAccess.lean ====
section
/-! DEFINITION. The Register Access Layer: RDREG, RDBLK, WRREG, WRBLK, SETBM, CLRBM (40_register_access.md). -/

namespace Sys2Proof.Machine

/-- 40_register_access.md R110. -/
def rdReg (a : Addr) : Op Byte := enter .rdreg do
  let c ← askCfg
  let rx ← line 1 (xfer (readFrame c a))
  line 2 (pure (rx.getD 1 0))

/-- 40_register_access.md R111: the length check (R119), no frame for no byte, one frame otherwise, the first byte
masked. -/
def rdBlk (a : Addr) (count : Nat) (align : Bits3) : Op (List Byte) := enter .rdblk do
  let c ← askCfg
  if c.fifoCapacity < count then line 1 (raise .noRoom)
  else
    reach 2
    if count = 0 then pure []
    else
      reach 3
      let rx ← line 4 (xfer (burstFrame c a count))
      reach 5
      reach 6
      line 7 (pure (maskFirst align (rx.drop 1)))

/-- 40_register_access.md R112. -/
def wrReg (a : Addr) (v : Byte) : Op Unit := enter .wrreg do
  let c ← askCfg
  let _ ← line 1 (xfer (writeFrame c a v))
  line 2 (pure ())

/-- One write frame a byte, in index order, to one address (30_encoding.md R85). -/
def writeEach (a : Addr) : List Byte → Op Unit
  | [] => pure ()
  | b :: rest => do
    let c ← askCfg
    let _ ← xfer (writeFrame c a b)
    writeEach a rest

/-- 40_register_access.md R113: the length check (R119), then one frame a byte. `len` is the length asked for. -/
def wrBlk (a : Addr) (len : Nat) (bytes : List Byte) : Op Unit := enter .wrblk do
  let c ← askCfg
  if c.fifoCapacity < len then line 1 (raise .noRoom)
  else
    line 2 (writeEach a (bytes.take len))
    line 3 (pure ())

/-- 40_register_access.md R114: the write is always sent. -/
def setBits (a : Addr) (m : Byte) : Op Unit := enter .setbm do
  let v ← line 1 (rdReg a)
  latch fun x => { x with v := v }
  line 2 (wrReg a (v ||| m))
  line 3 (pure ())

/-- 40_register_access.md R115: the write is always sent. -/
def clrBits (a : Addr) (m : Byte) : Op Unit := enter .clrbm do
  let v ← line 1 (rdReg a)
  latch fun x => { x with v := v }
  line 2 (wrReg a (v &&& ~~~m))
  line 3 (pure ())

/-- The result fields of an operation that returns bytes. -/
def bytesResult (bytes : List Byte) : Results :=
  ⟨none, some (BitVec.ofNat 8 bytes.length), some bytes, none, none, none, none, none⟩

/-- RDREG (40_register_access.md R110). -/
def execRdreg (a : Addr) (s : State) : Host.Outcome State Fault Refusal :=
  .next (operation (do
    let v ← rdReg a
    return { noResult with rval := some v }) s)

/-- RDBLK (40_register_access.md R111). -/
def execRdblk (a : Addr) (len : Byte) (align : Bits3) (s : State) : Host.Outcome State Fault Refusal :=
  .next (operation (do
    let bytes ← rdBlk a len.toNat align
    return bytesResult bytes) s)

/-- WRREG (40_register_access.md R112). -/
def execWrreg (a : Addr) (v : Byte) (s : State) : Host.Outcome State Fault Refusal :=
  .next (operation (do
    wrReg a v
    return noResult) s)

/-- WRBLK (40_register_access.md R113). -/
def execWrblk (a : Addr) (len : Byte) (data : List Byte) (s : State) : Host.Outcome State Fault Refusal :=
  .next (operation (do
    wrBlk a len.toNat data
    return noResult) s)

/-- SETBM (40_register_access.md R114). -/
def execSetbm (a : Addr) (m : Byte) (s : State) : Host.Outcome State Fault Refusal :=
  .next (operation (do
    setBits a m
    return noResult) s)

/-- CLRBM (40_register_access.md R115). -/
def execClrbm (a : Addr) (m : Byte) (s : State) : Host.Outcome State Fault Refusal :=
  .next (operation (do
    clrBits a m
    return noResult) s)

end Sys2Proof.Machine
end

