-- ==== Sys2Proof/Machine/Polling.lean ====
section
/-! DEFINITION. Bounded polling (20_memory.md R66, 60_exceptions.md R251, R259): the one loop of the block. -/

namespace Sys2Proof.Machine

/-- The numbers of the statements of a poll loop in the operation it stands in (10_state.md R28, log 33): the loading of
`POLL`, its test, the read, the tests down to the one that gives a verdict, the count, the delay, and the end at 0. -/
structure PollLines where
  load      : Nat
  test      : Nat
  read      : Nat
  verdict   : Verdict → List Nat
  count     : Nat
  wait      : Nat
  exhausted : Nat

/-- At most `k` polls of a register, each tested at once; the counter falls after an unsuccessful poll and the loop
ends with TIMEOUT at 0 (41_lifecycle.md R131, 42_crc.md R150, 43_communicate.md R160, R168). -/
def pollLoop (at_ : PollLines) (reg : Addr) (test : Byte → Verdict) : Nat → Op Unit
  | 0 => do
    reach at_.test
    line at_.exhausted (raise .timeout)
  | k + 1 => do
    reach at_.test
    let b ← line at_.read (rdReg reg)
    pass (at_.verdict (test b))
    match test b with
    | .done => pure ()
    | .failed st => raise st
    | .again =>
      line at_.count (loadPoll k)
      line at_.wait waitPollDelay
      pollLoop at_ reg test k

/-- `POLL <- bound`, then the loop. -/
def pollReg (at_ : PollLines) (reg : Addr) (test : Byte → Verdict) (bound : Nat) : Op Unit := do
  line at_.load (loadPoll bound)
  pollLoop at_ reg test bound

end Sys2Proof.Machine
end

