-- ==== Sys2Proof/Machine/Crc.lean ====
section
/-! DEFINITION. The CRC Coprocessor Interface: CALCCRC (42_crc.md), and the CRC_A function of the chip's coprocessor,
which the block never evaluates (R155). -/

namespace Sys2Proof.Machine

/-- The statements of the CRC poll, K2 and K4 (42_crc.md R150). -/
def crcLines : PollLines := ⟨7, 8, 9, fun _ => [10], 14, 15, 16⟩

/-- 42_crc.md R150: the length check, K1 the five preparations in their order, K2 the poll, K3 the result, low byte
first; K4 is the end of the poll loop. -/
def calcCrc (data : List Byte) (len : Nat) : Op (Byte × Byte) := enter .calccrc do
  let c ← askCfg
  if c.fifoCapacity < len then line 1 (raise .noRoom)
  else
    line 2 (wrReg c.reg.command c.cmd.idle)
    line 3 (clrBits c.reg.divIrq c.mask.irqCrc)
    line 4 (setBits c.reg.fifoLevel c.mask.fifoFlush)
    line 5 (wrBlk c.reg.fifoData len data)
    line 6 (wrReg c.reg.command c.cmd.calcCrc)
    pollReg crcLines c.reg.divIrq (crcVerdict c) c.crcPollBound
    let lo ← line 11 (rdReg c.reg.crcResultL)
    latch fun x => { x with lo := lo }
    let hi ← line 12 (rdReg c.reg.crcResultH)
    latch fun x => { x with hi := hi }
    line 13 (pure (lo, hi))

/-- CALCCRC (42_crc.md R150). -/
def execCalccrc (len : Byte) (data : List Byte) (s : State) : Host.Outcome State Fault Refusal :=
  .next (operation (do
    let crc ← calcCrc data len.toNat
    return { noResult with crc := some crc }) s)

/-- One bit of CRC_A: the reflected polynomial 0x8408. PRESUMED: 93 G8; log 23. -/
def crcBit (c : BitVec 16) : BitVec 16 := if c.getLsbD 0 then (c >>> 1) ^^^ 0x8408 else c >>> 1

/-- One byte of CRC_A, least significant bit first. PRESUMED: 93 G8; log 23. -/
def crcByte (c : BitVec 16) (b : Byte) : BitVec 16 :=
  crcBit (crcBit (crcBit (crcBit (crcBit (crcBit (crcBit (crcBit (c ^^^ b.setWidth 16))))))))

/-- CRC_A of a byte sequence, low byte and high byte (42_crc.md R155): what a correct coprocessor answers. -/
def crcA (preset : BitVec 16) (data : List Byte) : Byte × Byte :=
  ((data.foldl crcByte preset).setWidth 8, (data.foldl crcByte preset >>> 8).setWidth 8)

end Sys2Proof.Machine
end

