-- ==== Sys2Proof/Machine/Communicate.lean ====
section
/-! DEFINITION. The PICC Communication Engine: COMM (43_communicate.md). -/

namespace Sys2Proof.Machine

/-- The parameters of one call of `Communicate` (43_communicate.md R160). -/
structure CommCall where
  cmd     : Byte
  irqMask : Byte
  send    : List Byte
  sendLen : Nat
  align   : Bits3
  txLast  : Bits3
  chk     : Bool
  hasBack : Bool
  cap     : BitVec 7
deriving DecidableEq, Repr

/-- Steps S0 to S3b: clear the flags, load the FIFO, set the bit framing, issue the command, and start the
transmission of a Transceive (43_communicate.md R162 to R166). -/
def commPrepare (p : CommCall) : Op Unit := do
  let c ← askCfg
  line 2 (wrReg c.reg.comIrq c.mask.comIrqClear)
  line 3 (setBits c.reg.fifoLevel c.mask.fifoFlush)
  line 4 (wrBlk c.reg.fifoData p.sendLen p.send)
  line 5 (clrBits c.reg.bitFraming c.bfAll)
  line 6 (setBits c.reg.bitFraming (bf c p.align p.txLast))
  line 7 (wrReg c.reg.command p.cmd)
  reach 8
  if p.cmd = c.cmd.transceive then setBits c.reg.bitFraming c.mask.bfStartSend else pure ()

/-- Step S6: the reply, if the caller supplied an output buffer (43_communicate.md R170). -/
def commReply (p : CommCall) : Op (Option (List Byte)) := do
  let c ← askCfg
  reach 18
  reach 19
  if p.hasBack then
    let n ← line 20 (rdReg c.reg.fifoLevel)
    latch fun x => { x with n := n }
    reach 21
    if p.cap.toNat < n.toNat then raise .noRoom
    else
      let back ← line 22 (rdBlk c.reg.fifoData n.toNat p.align)
      reach 23
      return some back
  else return none

/-- Step S6c: the response CRC check (43_communicate.md R172). The reply is kept "in every outcome of this step", the
failure of the nested CALCCRC among them (log 24). -/
def commCheckCrc (back : List Byte) : Op Unit := do
  reach 26
  if back.length < 3 then raiseKeeping .crcWrong (some back)
  else
    let crc ← line 27 (passOnKeeping (some back) (fun _ => [28]) (calcCrc (back.take (back.length - 2)) (back.length - 2)))
    reach 29
    if crcMatches back crc then pure () else raiseKeeping .crcWrong (some back)

/-- The response CRC is checked only with `checkCRC` and an output buffer (43_communicate.md R172). -/
def commCheck (p : CommCall) (back : Option (List Byte)) : Op Unit := do
  reach 25
  match back with
  | none => pure ()
  | some back => if p.chk then commCheckCrc back else pure ()

/-- Steps S5 to S7, after the completion poll (43_communicate.md R169 to R173). -/
def commFinish (p : CommCall) : Op (Option (List Byte)) := do
  let c ← askCfg
  let e ← line 16 (rdReg c.reg.error)
  latch fun x => { x with e := e }
  reach 17
  if fatalError c e then raise .error
  else
    let back ← commReply p
    reach 24
    let e ← peek fun s => s.scratch.e
    if collisionError c e then raiseKeeping .collision back
    else
      commCheck p back
      line 30 (pure back)

/-- The statements of the completion poll, step S4: the timer's test is passed before the mask's (43_communicate.md R160,
R167, R168). -/
def commLines : PollLines where
  load      := 9
  test      := 10
  read      := 11
  verdict   := fun
    | .failed _ => [12]
    | .done => [12, 13]
    | .again => [12, 13]
  count     := 14
  wait      := 15
  exhausted := 10

/-- `Communicate` (43_communicate.md R160). The result is `back`, with `backLen` its length; none without an output
buffer. -/
def communicate (p : CommCall) : Op (Option (List Byte)) := enter .comm do
  let c ← askCfg
  if c.fifoCapacity < p.sendLen then line 1 (raise .noRoom)
  else
    commPrepare p
    pollReg commLines c.reg.comIrq (commVerdict c p.irqMask) c.commPollBound
    commFinish p

/-- The result fields of `COMM`: `RDATA` and `RLEN` when there is an output buffer. -/
def backResult : Option (List Byte) → Results
  | some back => bytesResult back
  | none => noResult

/-- The call the operands of a request make. -/
def CommOperands.call (o : CommOperands) : CommCall :=
  ⟨o.cmd, o.irqMask, o.data, o.len.toNat, o.align, o.txLast, o.chk, o.hasBack, o.cap⟩

/-- COMM (43_communicate.md R160). -/
def execComm (o : CommOperands) (s : State) : Host.Outcome State Fault Refusal :=
  .next (operation (do
    let back ← communicate (CommOperands.call o)
    return backResult back) s)

/-- A PICC exchange (00_scope.md R15): one run of `Communicate` with the Transceive command, the completion mask
`IRQ_DONE` (30_encoding.md R101), no alignment and no response CRC check. -/
def exchangeCall (c : Config) (send : List Byte) (txLast : Bits3) (cap : Option (BitVec 7)) : CommCall :=
  ⟨c.cmd.transceive, c.irqDone, send, send.length, 0, txLast, false, cap.isSome, cap.getD 0⟩

end Sys2Proof.Machine
end

