-- ==== Sys2Proof/Machine/AntiCollision.lean ====
section
/-! DEFINITION. The Anti-Collision / Select Protocol: REQA, WUPA, ISNEW, SELECT (44_anticollision_select.md). -/

namespace Sys2Proof.Machine

/-- The reply of an exchange that has an output buffer, or nothing. -/
def replyBytes : Option (List Byte) → List Byte
  | some back => back
  | none => []

/-- Run a PICC exchange and pass a failure on unchanged; `check` are the numbers of the statements that test a status. -/
def piccExchange (check : Status → List Nat) (send : List Byte) (txLast : Bits3) (cap : Option (BitVec 7)) :
    Op (List Byte) := do
  let c ← askCfg
  let back ← passOn check (communicate (exchangeCall c send txLast cap))
  return replyBytes back

/-- The end of a request: a reply too short to be an ATQA is INVALID, otherwise its first two bytes are handed out, not
interpreted (44_anticollision_select.md R192). DESIGN CHOICE: with an `ATQA_LEN` other than 2 a reply is too short when
it is shorter than `ATQA_LEN` or than the two bytes an ATQA has; no missing byte is filled in (log 29). -/
def takeAtqa : Op (Byte × Byte) := do
  let c ← askCfg
  let ab ← peek fun s => s.scratch.ab
  reach 4
  if ab.length < max c.card.atqaLen.toNat 2 then raise .invalid
  else line 5 (pure (ab.getD 0 0, ab.getD 1 0))

/-- The common request exchange (44_anticollision_select.md R192). -/
def reqOrWup (cmdByte : Byte) : Op (Byte × Byte) := do
  let c ← askCfg
  line 1 (latch fun x => { x with sb := [cmdByte] })
  let sb ← peek fun s => s.scratch.sb
  let ab ← line 2 (piccExchange (fun _ => [3]) sb c.card.reqTxBits (some c.card.atqaLen))
  latch fun x => { x with ab := ab }
  takeAtqa

/-- 44_anticollision_select.md R190. -/
def requestA : Op (Byte × Byte) := enter .reqa do
  let c ← askCfg
  reqOrWup c.card.reqa

/-- 44_anticollision_select.md R191. -/
def wakeupA : Op (Byte × Byte) := enter .wupa do
  let c ← askCfg
  reqOrWup c.card.wupa

/-- 44_anticollision_select.md R193. -/
def isNewCardPresent : Op Bool := enter .isnew do
  let r ← line 1 (attempt requestA)
  line 2 (pure (presentOf (statusOf r)))

/-- The first statement of step L5: the UID is no longer confirmed (44_anticollision_select.md R198). -/
def Uid.unconfirmed (u : Uid) : Uid := { u with valid := false }

/-- The UID copy of step L5: overwritten, not merged; the old SAK byte stays in storage (44_anticollision_select.md
R198). Length and bytes change together, as the invariant of 10_state.md R22 has it "at every instant". -/
def Uid.copied (u : Uid) (bytes : List Byte) : Uid := { u with size := bytes.length, b := bytes }

/-- Step L6: the whole SAK byte is stored (44_anticollision_select.md R200). -/
def Uid.stored (u : Uid) (sak : Byte) : Uid := { u with sak := sak }

/-- Step L6: the UID is confirmed (44_anticollision_select.md R200). -/
def Uid.confirmed (u : Uid) : Uid := { u with valid := true }

/-- The copy handed to the host (10_state.md R27). -/
def Uid.out (u : Uid) : UidOut := ⟨u.size, u.b, u.sak⟩

/-- The SAK bit by which a caller detects that further cascade levels are required (30_encoding.md R100,
70_reset_and_hazards.md R285): no operation of the block looks at it. -/
def Uid.incomplete (c : Config) (u : Uid) : Bool := anySet u.sak c.card.sakCascadeBit

/-- The room for the reply of the second exchange (44_anticollision_select.md R199, 92 D24). -/
def sakCap : BitVec 7 := 3

/-- The reply of the first exchange is long enough: its check is step L4 (44_anticollision_select.md R197). DESIGN
CHOICE: with an `ANTICOLL_REPLY_LEN` other than 5 a reply is too short when it is shorter than `ANTICOLL_REPLY_LEN` or
than the four UID bytes and the BCC, and the fifth byte is the BCC (log 30). -/
def checkReplyLength (rb : List Byte) : Op Unit := do
  let c ← askCfg
  reach 5
  if rb.length < max c.card.anticollReplyLen.toNat 5 then raise .invalid else pure ()

/-- The BCC test of step L5: the exclusive-or of the four UID bytes must be the fifth byte (44_anticollision_select.md
R198). -/
def checkBcc (rb : List Byte) : Op Unit := do
  let c ← askCfg
  reach 9
  if xorBytes (rb.take 4) = rb.getD 4 0 then pure () else raise c.bccFailStatus

/-- The UID copy of step L5 (44_anticollision_select.md R198). -/
def copyUid (rb : List Byte) : Op Unit := do
  line 6 (update fun s => s.setUid (Uid.unconfirmed s.uid))
  reach 7
  line 8 (update fun s => s.setUid (Uid.copied s.uid (rb.take 4)))

/-- Steps L4 and L5, first half: a short reply is INVALID; the UID bytes are copied, then the BCC is verified
(44_anticollision_select.md R197, R198). -/
def takeAnticoll : Op Unit := do
  let rb ← peek fun s => s.scratch.rb
  checkReplyLength rb
  copyUid rb
  checkBcc rb

/-- The SAK of the second reply: an empty reply is INVALID, further bytes are ignored (44_anticollision_select.md
R199). -/
def sakOf (kb : List Byte) : Op Byte := do
  reach 16
  match kb with
  | [] => raise .invalid
  | sak :: _ => pure sak

/-- Step L6: the SAK is stored, the UID is confirmed and handed out (44_anticollision_select.md R200). -/
def confirmUid (sak : Byte) : Op UidOut := do
  line 17 (update fun s => s.setUid (Uid.stored s.uid sak))
  line 18 (update fun s => s.setUid (Uid.confirmed s.uid))
  line 19 (peek fun s => Uid.out s.uid)

/-- The end of the second exchange and step L6 (44_anticollision_select.md R199, R200). -/
def takeSak : Op UidOut := do
  let kb ← peek fun s => s.scratch.kb
  let sak ← sakOf kb
  confirmUid sak

/-- The second exchange of L5: the SELECT frame with the CRC of its first seven bytes appended, low byte first
(44_anticollision_select.md R199, 30_encoding.md R92). -/
def selectExchange : Op Unit := do
  let c ← askCfg
  line 10 (latch fun x => { x with sb := c.card.selCl1 :: c.card.nvbSelect :: x.rb.take 5 })
  let sb ← peek fun s => s.scratch.sb
  let crc ← line 11 (passOn (fun _ => [12]) (calcCrc sb sb.length))
  line 13 (latch fun x => { x with sb := x.sb ++ [crc.1, crc.2] })
  let sb ← peek fun s => s.scratch.sb
  let kb ← line 14 (piccExchange (fun _ => [15]) sb 0 (some sakCap))
  latch fun x => { x with kb := kb }

/-- The statements of step L3 that test a status: COLLISION is tested first, by one of its own
(44_anticollision_select.md R194). -/
def selectCheckLines : Status → List Nat
  | .collision => [3]
  | .ok | .error | .timeout | .noRoom | .invalid | .crcWrong => [3, 4]

/-- The first exchange, L1 and L2, and L3: a failure, COLLISION among them, is passed on
(44_anticollision_select.md R195, R196). -/
def anticollExchange : Op Unit := do
  let c ← askCfg
  line 1 (latch fun x => { x with sb := [c.card.selCl1, c.card.nvbAnticoll] })
  let sb ← peek fun s => s.scratch.sb
  let rb ← line 2 (piccExchange selectCheckLines sb 0 (some c.card.anticollReplyLen))
  latch fun x => { x with rb := rb }

/-- 44_anticollision_select.md R194, with validBits = 0. -/
def selectCard : Op UidOut := enter .select do
  anticollExchange
  takeAnticoll
  selectExchange
  takeSak

/-- REQA (44_anticollision_select.md R190). -/
def execReqa (s : State) : Host.Outcome State Fault Refusal :=
  .next (operation (do
    let atqa ← requestA
    return { noResult with atqa := some atqa }) s)

/-- WUPA (44_anticollision_select.md R191). -/
def execWupa (s : State) : Host.Outcome State Fault Refusal :=
  .next (operation (do
    let atqa ← wakeupA
    return { noResult with atqa := some atqa }) s)

/-- ISNEW (44_anticollision_select.md R193): always OK. -/
def execIsnew (s : State) : Host.Outcome State Fault Refusal :=
  .next (operation (do
    let p ← isNewCardPresent
    return { noResult with present := some p }) s)

/-- SELECT (44_anticollision_select.md R194). Only VBITS = 0 is defined: any other is refused (R202; log 21). -/
def execSelect (vbits : Byte) (s : State) : Host.Outcome State Fault Refusal :=
  if vbits = 0 then
    .next (operation (do
      let u ← selectCard
      return { noResult with uidOut := some u }) s)
  else .refused .validBitsNotZero

end Sys2Proof.Machine
end

