-- ==== Sys2Proof/Machine/Halt.lean ====
section
/-! DEFINITION. The Halt Protocol: HLTA (45_halt.md). -/

namespace Sys2Proof.Machine

/-- 45_halt.md R220: the CRC's failure is passed on (R222), the exchange has no output buffer (R223), and its status
is mapped (R221). -/
def haltA : Op Unit := enter .hlta do
  let c ← askCfg
  line 1 (latch fun x => { x with sb := [c.card.hlta0, c.card.hlta1] })
  let sb ← peek fun s => s.scratch.sb
  let crc ← line 2 (passOn (fun _ => [3]) (calcCrc sb sb.length))
  line 4 (latch fun x => { x with sb := x.sb ++ [crc.1, crc.2] })
  let sb ← peek fun s => s.scratch.sb
  let r ← line 5 (attempt (communicate (exchangeCall c sb 0 none)))
  reach 6
  match haltStatus (statusOf r) with
  | .ok => pure ()
  | st => line 7 (raise st)

/-- HLTA (45_halt.md R220). -/
def execHlta (s : State) : Host.Outcome State Fault Refusal :=
  .next (operation (do
    haltA
    return noResult) s)

end Sys2Proof.Machine
end

