-- ==== Sys2Proof/Machine/Lifecycle.lean ====
section
/-! DEFINITION. The Chip Lifecycle Controller: HRESET, SRESET, INIT, ANTON, ANTOFF (41_lifecycle.md). -/

namespace Sys2Proof.Machine

/-- 41_lifecycle.md R130. -/
def hardReset : Op Unit := enter .hreset do
  let c ← askCfg
  line 1 (driveNrst false)
  line 2 (waitUnits c.resetHold)
  line 3 (driveNrst true)
  line 4 (waitUnits c.resetHold)
  line 5 (pure ())

/-- The statements of the soft-reset poll (41_lifecycle.md R131). -/
def softResetLines : PollLines := ⟨2, 3, 4, fun _ => [5], 6, 7, 8⟩

/-- 41_lifecycle.md R131. -/
def softReset : Op Unit := enter .sreset do
  let c ← askCfg
  line 1 (wrReg c.reg.command c.cmd.softReset)
  pollReg softResetLines c.reg.command (softResetVerdict c) c.softResetPollBound

/-- 41_lifecycle.md R133: the one check-before-write of the block. -/
def antennaOn : Op Unit := enter .anton do
  let c ← askCfg
  let v ← line 1 (rdReg c.reg.txControl)
  latch fun x => { x with v := v }
  reach 2
  (if allSet v c.mask.antMask then pure () else line 3 (wrReg c.reg.txControl (v ||| c.mask.antMask)))
  line 4 (pure ())

/-- 41_lifecycle.md R134. -/
def antennaOff : Op Unit := enter .antoff do
  let c ← askCfg
  line 1 (clrBits c.reg.txControl c.mask.antMask)
  line 2 (pure ())

/-- 41_lifecycle.md R132: timer, modulation, CRC preset, antenna, in this order. -/
def initChip : Op Unit := enter .init do
  let c ← askCfg
  line 1 (wrReg c.reg.tMode c.initC.tMode)
  line 2 (wrReg c.reg.tPrescaler c.initC.tPrescaler)
  line 3 (wrReg c.reg.tReloadH c.initC.tReloadH)
  line 4 (wrReg c.reg.tReloadL c.initC.tReloadL)
  line 5 (wrReg c.reg.txAsk c.initC.txAsk)
  line 6 (wrReg c.reg.mode c.initC.mode)
  line 7 antennaOn
  line 8 (pure ())

/-- HRESET (41_lifecycle.md R130). -/
def execHreset (s : State) : Host.Outcome State Fault Refusal :=
  .next (operation (do
    hardReset
    return noResult) s)

/-- SRESET (41_lifecycle.md R131). -/
def execSreset (s : State) : Host.Outcome State Fault Refusal :=
  .next (operation (do
    softReset
    return noResult) s)

/-- INIT (41_lifecycle.md R132). -/
def execInit (s : State) : Host.Outcome State Fault Refusal :=
  .next (operation (do
    initChip
    return noResult) s)

/-- ANTON (41_lifecycle.md R133). -/
def execAnton (s : State) : Host.Outcome State Fault Refusal :=
  .next (operation (do
    antennaOn
    return noResult) s)

/-- ANTOFF (41_lifecycle.md R134). -/
def execAntoff (s : State) : Host.Outcome State Fault Refusal :=
  .next (operation (do
    antennaOff
    return noResult) s)

end Sys2Proof.Machine
end

