-- ==== Sys2Proof/Machine/HostOps.lean ====
section
/-! DEFINITION. The host call surface: INITIALIZE, POLL, and the answer to an unassigned code (46_host_ops.md;
30_encoding.md R96). -/

namespace Sys2Proof.Machine

/-- 46_host_ops.md R230. -/
def initializeOp (busOk : Bool) : Op Unit := enter .initialise do
  if busOk then
    line 4 hardReset
    line 5 initChip
    line 6 (pure ())
  else
    line 2 (update fun s => s.setFatal true)
    line 3 (raise .error)

/-- `ReadCardSerial`: SELECT with VBITS = 0, reduced to "status is OK" (46_host_ops.md R232). -/
def readCardSerial : Op Bool := do
  let r ← attempt selectCard
  return statusOf r == .ok

/-- The event, the optional halt, whose status is ignored, and the UID (46_host_ops.md R231, R233). -/
def reportCard : Op UidOut := do
  let c ← askCfg
  let u ← peek fun s => Uid.out s.uid
  line 5 (update fun s => s.emit (.cardDiscovered u))
  reach 6
  if c.haltAfterRead then
    let _ ← line 7 (attempt haltA)
    return u
  else return u

/-- 46_host_ops.md R231. -/
def pollForCard : Op (Option UidOut) := enter .poll do
  let p ← line 1 isNewCardPresent
  reach 2
  if p then
    let found ← line 3 readCardSerial
    reach 4
    if found then
      let u ← reportCard
      line 8 (pure (some u))
    else return none
  else return none

/-- INITIALIZE (46_host_ops.md R230). -/
def execInitialise (busOk : Bool) (s : State) : Host.Outcome State Fault Refusal :=
  .next (operation (do
    initializeOp busOk
    return noResult) s)

/-- The result fields of POLL: the Option's tag, and the UID when there is one (46_host_ops.md R231). -/
def pollResult : Option UidOut → Results
  | some u => { noResult with someTag := some true, uidOut := some u }
  | none => { noResult with someTag := some false }

/-- POLL (46_host_ops.md R231): always OK. -/
def execPoll (s : State) : Host.Outcome State Fault Refusal :=
  .next (operation (do
    let u ← pollForCard
    return pollResult u) s)

/-- An unassigned operation code: INVALID, no exchange, no wait, no state change (30_encoding.md R96). -/
def execUnassigned (_op : Byte) (s : State) : Host.Outcome State Fault Refusal :=
  .next (operation (raise .invalid) s)

end Sys2Proof.Machine
end

