-- ==== Sys2Proof/Machine/Patterns.lean ====
section
/-! DEFINITION. The rows of the opcode table that are no host operation: bit patterns the block emits or interprets.
Each is run alone, with the effect the spec gives it inside the operations that use it, and its outcome is put in the
response record (log 12 to log 18). -/

namespace Sys2Proof.Machine

/-! ### Transport (30_encoding.md R80 to R87) -/

/-- XFER.ABYTE.RD (30_encoding.md R80): the shortest frame this first byte begins, the single read of R82 (log 13). -/
def execXferAbyteRd (a : Addr) (s : State) : Host.Outcome State Fault Refusal :=
  .next (operation (do
    let c ← askCfg
    let rx ← xfer (readFrame c a)
    return { noResult with rval := some (rx.getD 1 0) }) s)

/-- XFER.ABYTE.WR (30_encoding.md R80): the frame this first byte begins, the single write of R84 (log 13). -/
def execXferAbyteWr (a : Addr) (v : Byte) (s : State) : Host.Outcome State Fault Refusal :=
  .next (operation (do
    let c ← askCfg
    let _ ← xfer (writeFrame c a v)
    return noResult) s)

/-- XFER.RD1 (30_encoding.md R82). -/
def execXferRd1 (a : Addr) (s : State) : Host.Outcome State Fault Refusal :=
  .next (operation (do
    let c ← askCfg
    let rx ← xfer (readFrame c a)
    return { noResult with rval := some (rx.getD 1 0) }) s)

/-- XFER.RDN (30_encoding.md R83): one frame, the first byte masked (R102); the length check of 40_register_access.md
R119 stands before it. -/
def execXferRdn (a : Addr) (count : BitVec 7) (align : Bits3) (s : State) : Host.Outcome State Fault Refusal :=
  .next (operation (do
    let bytes ← rdBlk a count.toNat align
    return bytesResult bytes) s)

/-- XFER.WR1 (30_encoding.md R84). -/
def execXferWr1 (a : Addr) (v : Byte) (s : State) : Host.Outcome State Fault Refusal :=
  .next (operation (do
    let c ← askCfg
    let _ ← xfer (writeFrame c a v)
    return noResult) s)

/-- XFER.WRN (30_encoding.md R85): one write frame a byte; the length check of 40_register_access.md R119 stands
before them. -/
def execXferWrn (a : Addr) (data : List Byte) (s : State) : Host.Outcome State Fault Refusal :=
  .next (operation (do
    wrBlk a data.length data
    return noResult) s)

/-- XFER.RESERVED (30_encoding.md R87): never emitted, and "What the chip would do with such frames is not in the
source". -/
def execXferReserved (_byte0 : Byte) (_s : State) : Host.Outcome State Fault Refusal :=
  .refused .reservedAddressByte

/-! ### Chip commands and the bit-framing value (30_encoding.md R88, R89) -/

/-- A chip command is written as a whole byte into the register of role COMMAND (30_encoding.md R88). -/
def issueCommand (f : ChipCommands → Byte) : Op Results := do
  let c ← askCfg
  wrReg c.reg.command (f c.cmd)
  return noResult

/-- CMD_IDLE (30_encoding.md R88). -/
def execCmdIdle (s : State) : Host.Outcome State Fault Refusal :=
  .next (operation (issueCommand ChipCommands.idle) s)

/-- CMD_CALCCRC (30_encoding.md R88). -/
def execCmdCalccrc (s : State) : Host.Outcome State Fault Refusal :=
  .next (operation (issueCommand ChipCommands.calcCrc) s)

/-- CMD_TRANSCEIVE (30_encoding.md R88). -/
def execCmdTransceive (s : State) : Host.Outcome State Fault Refusal :=
  .next (operation (issueCommand ChipCommands.transceive) s)

/-- CMD_SOFTRESET (30_encoding.md R88). -/
def execCmdSoftreset (s : State) : Host.Outcome State Fault Refusal :=
  .next (operation (issueCommand ChipCommands.softReset) s)

/-- The bit-framing register is only touched by read-modify-write (10_state.md R37): steps S2, S2b and, for the
start-send bit, S3b of COMM (43_communicate.md R164, R166). -/
def setBitFraming (start : Bool) (align txLast : Bits3) : Op Unit := do
  let c ← askCfg
  clrBits c.reg.bitFraming c.bfAll
  setBits c.reg.bitFraming (bf c align txLast)
  if start then setBits c.reg.bitFraming c.mask.bfStartSend else pure ()

/-- BITFRAMING value (30_encoding.md R89): the value is set as COMM sets it (log 15). -/
def execBitframingValue (start : Bool) (align txLast : Bits3) (s : State) : Host.Outcome State Fault Refusal :=
  .next (operation (do
    setBitFraming start align txLast
    return noResult) s)

/-! ### Card frames: one PICC exchange each (30_encoding.md R90 to R93; log 16) -/

/-- One PICC exchange whose reply, if a buffer is given, is the result. -/
def exchangeResult (send : Config → List Byte) (txLast : Config → Bits3) (cap : Config → Option (BitVec 7)) :
    Op Results := do
  let c ← askCfg
  let back ← communicate (exchangeCall c (send c) (txLast c) (cap c))
  return backResult back

/-- PICC.REQA (30_encoding.md R90). -/
def execPiccReqa (s : State) : Host.Outcome State Fault Refusal :=
  .next (operation (exchangeResult (fun c => [c.card.reqa]) (fun c => c.card.reqTxBits)
    (fun c => some c.card.atqaLen)) s)

/-- PICC.WUPA (30_encoding.md R90). -/
def execPiccWupa (s : State) : Host.Outcome State Fault Refusal :=
  .next (operation (exchangeResult (fun c => [c.card.wupa]) (fun c => c.card.reqTxBits)
    (fun c => some c.card.atqaLen)) s)

/-- PICC.ANTICOLL_CL1 (30_encoding.md R91). -/
def execPiccAnticollCl1 (s : State) : Host.Outcome State Fault Refusal :=
  .next (operation (exchangeResult (fun c => [c.card.selCl1, c.card.nvbAnticoll]) (fun _ => 0)
    (fun c => some c.card.anticollReplyLen)) s)

/-- PICC.SELECT_CL1 (30_encoding.md R92). -/
def execPiccSelectCl1 (u0 u1 u2 u3 bcc crcLo crcHi : Byte) (s : State) : Host.Outcome State Fault Refusal :=
  .next (operation (exchangeResult (fun c => [c.card.selCl1, c.card.nvbSelect, u0, u1, u2, u3, bcc, crcLo, crcHi])
    (fun _ => 0) (fun _ => some sakCap)) s)

/-- PICC.HLTA (30_encoding.md R93): no reply is expected and no output buffer is supplied (45_halt.md R223). -/
def execPiccHlta (crcLo crcHi : Byte) (s : State) : Host.Outcome State Fault Refusal :=
  .next (operation (exchangeResult (fun c => [c.card.hlta0, c.card.hlta1, crcLo, crcHi]) (fun _ => 0)
    (fun _ => none)) s)

/-! ### Card replies: what the block makes of a reply that has arrived (30_encoding.md R94; log 17) -/

/-- PICC reply ATQA: handed out, not interpreted (44_anticollision_select.md R192). -/
def execPiccReplyAtqa (a0 a1 : Byte) (s : State) : Host.Outcome State Fault Refusal :=
  .next (operation (do
    latch fun x => { x with ab := [a0, a1] }
    let atqa ← takeAtqa
    return { noResult with atqa := some atqa }) s)

/-- PICC reply ANTICOLL: the length and BCC checks, and the four UID bytes as the result. `UID` is written by SELECT alone
(10_state.md R22; 44_anticollision_select.md R197, R198). -/
def execPiccReplyAnticoll (u0 u1 u2 u3 bcc : Byte) (s : State) : Host.Outcome State Fault Refusal :=
  .next (operation (do
    latch fun x => { x with rb := [u0, u1, u2, u3, bcc] }
    let rb ← peek fun s => s.scratch.rb
    checkReplyLength rb
    checkBcc rb
    return bytesResult (rb.take 4)) s)

/-- PICC reply SAK: the SAK as the result; further bytes are ignored. `UID` is written by SELECT alone (10_state.md R22;
44_anticollision_select.md R199). -/
def execPiccReplySak (sak : Byte) (extra : List Byte) (s : State) : Host.Outcome State Fault Refusal :=
  .next (operation (do
    latch fun x => { x with kb := sak :: extra }
    let kb ← peek fun s => s.scratch.kb
    let sak ← sakOf kb
    return bytesResult [sak]) s)

/-! ### Status codes: the running operation ends with this status (30_encoding.md R97, 60_exceptions.md R240; log 18) -/

/-- STATUS.OK. -/
def execStatusOk (s : State) : Host.Outcome State Fault Refusal := .next (operation (pure noResult) s)

/-- STATUS.ERROR. -/
def execStatusError (s : State) : Host.Outcome State Fault Refusal := .next (operation (raise .error) s)

/-- STATUS.COLLISION. -/
def execStatusCollision (s : State) : Host.Outcome State Fault Refusal := .next (operation (raise .collision) s)

/-- STATUS.TIMEOUT. -/
def execStatusTimeout (s : State) : Host.Outcome State Fault Refusal := .next (operation (raise .timeout) s)

/-- STATUS.NO_ROOM. -/
def execStatusNoRoom (s : State) : Host.Outcome State Fault Refusal := .next (operation (raise .noRoom) s)

/-- STATUS.INVALID. -/
def execStatusInvalid (s : State) : Host.Outcome State Fault Refusal := .next (operation (raise .invalid) s)

/-- STATUS.CRC_WRONG. -/
def execStatusCrcWrong (s : State) : Host.Outcome State Fault Refusal := .next (operation (raise .crcWrong) s)

end Sys2Proof.Machine
end

