-- ==== Sys2Proof/Machine/Dispatch.lean ====
section
/-! DEFINITION. One arm per constructor of Instr. -/

namespace Sys2Proof.Machine

/-- What an instruction does: the whole operation, from the acceptance of its request to its response. -/
def exec (i : Instr) (s : State) : Host.Outcome State Fault Refusal :=
  match i with
  | .rdreg a => Sys2Proof.Machine.execRdreg a s
  | .rdblk a len align => Sys2Proof.Machine.execRdblk a len align s
  | .wrreg a v => Sys2Proof.Machine.execWrreg a v s
  | .wrblk a len data => Sys2Proof.Machine.execWrblk a len data s
  | .setbm a m => Sys2Proof.Machine.execSetbm a m s
  | .clrbm a m => Sys2Proof.Machine.execClrbm a m s
  | .hreset => Sys2Proof.Machine.execHreset s
  | .sreset => Sys2Proof.Machine.execSreset s
  | .init => Sys2Proof.Machine.execInit s
  | .anton => Sys2Proof.Machine.execAnton s
  | .antoff => Sys2Proof.Machine.execAntoff s
  | .calccrc len data => Sys2Proof.Machine.execCalccrc len data s
  | .comm o => Sys2Proof.Machine.execComm o s
  | .select vbits => Sys2Proof.Machine.execSelect vbits s
  | .reqa => Sys2Proof.Machine.execReqa s
  | .wupa => Sys2Proof.Machine.execWupa s
  | .isnew => Sys2Proof.Machine.execIsnew s
  | .hlta => Sys2Proof.Machine.execHlta s
  | .initialise busOk => Sys2Proof.Machine.execInitialise busOk s
  | .poll => Sys2Proof.Machine.execPoll s
  | .unassigned op => Sys2Proof.Machine.execUnassigned op s
  | .xferAbyteRd a => Sys2Proof.Machine.execXferAbyteRd a s
  | .xferAbyteWr a v => Sys2Proof.Machine.execXferAbyteWr a v s
  | .xferRd1 a => Sys2Proof.Machine.execXferRd1 a s
  | .xferRdn a count align => Sys2Proof.Machine.execXferRdn a count align s
  | .xferWr1 a v => Sys2Proof.Machine.execXferWr1 a v s
  | .xferWrn a data => Sys2Proof.Machine.execXferWrn a data s
  | .xferReserved byte0 => Sys2Proof.Machine.execXferReserved byte0 s
  | .cmdIdle => Sys2Proof.Machine.execCmdIdle s
  | .cmdCalccrc => Sys2Proof.Machine.execCmdCalccrc s
  | .cmdTransceive => Sys2Proof.Machine.execCmdTransceive s
  | .cmdSoftreset => Sys2Proof.Machine.execCmdSoftreset s
  | .bitframingValue start align txLast => Sys2Proof.Machine.execBitframingValue start align txLast s
  | .piccReqa => Sys2Proof.Machine.execPiccReqa s
  | .piccWupa => Sys2Proof.Machine.execPiccWupa s
  | .piccAnticollCl1 => Sys2Proof.Machine.execPiccAnticollCl1 s
  | .piccSelectCl1 u0 u1 u2 u3 bcc crcLo crcHi => Sys2Proof.Machine.execPiccSelectCl1 u0 u1 u2 u3 bcc crcLo crcHi s
  | .piccHlta crcLo crcHi => Sys2Proof.Machine.execPiccHlta crcLo crcHi s
  | .piccReplyAtqa a0 a1 => Sys2Proof.Machine.execPiccReplyAtqa a0 a1 s
  | .piccReplyAnticoll u0 u1 u2 u3 bcc => Sys2Proof.Machine.execPiccReplyAnticoll u0 u1 u2 u3 bcc s
  | .piccReplySak sak extra => Sys2Proof.Machine.execPiccReplySak sak extra s
  | .statusOk => Sys2Proof.Machine.execStatusOk s
  | .statusError => Sys2Proof.Machine.execStatusError s
  | .statusCollision => Sys2Proof.Machine.execStatusCollision s
  | .statusTimeout => Sys2Proof.Machine.execStatusTimeout s
  | .statusNoRoom => Sys2Proof.Machine.execStatusNoRoom s
  | .statusInvalid => Sys2Proof.Machine.execStatusInvalid s
  | .statusCrcWrong => Sys2Proof.Machine.execStatusCrcWrong s

end Sys2Proof.Machine
end

