-- ==== Sys2Proof/Machine/Step.lean ====
section
/-! DEFINITION. One step: the block takes the next request the host presents and runs its operation to completion
(00_scope.md R16; 60_exceptions.md R253). -/

namespace Sys2Proof.Machine

/-- Run what a presented pattern decodes to; operands outside the domains the configuration gives them are refused
(00_scope.md R12; log 32). -/
def runPacket (p : Packet) (s : State) : Host.Outcome State Fault Refusal :=
  match decode p with
  | .ok i => if operandsInDomain s.cfg i then exec i s else .refused .operandOutsideDomain
  | .error e => .refused (.undecodable e)

/-- A request presented in a state with a well-formed configuration: while `FATAL` or `BUSY` it has no effect and gets
no response (10_state.md R24, R25; log 19), otherwise it is decoded and run. -/
def present (p : Packet) (s : State) : Host.Outcome State Fault Refusal :=
  if s.fatal then .next s
  else if s.busy then .next s
  else runPacket p s

/-- One step. With nothing presented the block is idle and does nothing (60_exceptions.md R264). -/
def step (s : State) : Host.Outcome State Fault Refusal :=
  match s.host with
  | [] => .next s
  | p :: rest =>
    if s.cfg.wf then present p (s.setHost rest)
    else .refused .illFormedConfiguration

/-- The state in which the host presents the instruction of a table word next (log 5, log 22). -/
def State.withFetchWord (s : State) (nbits w : Nat) : State := s.setHost (tablePacket nbits w :: s.host)

end Sys2Proof.Machine
end

