-- ==== Sys2Proof/Safety.lean ====
section
/-! DEFINITION. What counts as a safe state and a safe trace, and the words statements are made of. -/

namespace Sys2Proof.Machine

/-- The frames the block emits: a single read, a single write, a block read of 1 to `FIFO_CAPACITY` bytes
(30_encoding.md R82, R83, R84, R86). -/
def FrameForm (c : Config) (tx : List Byte) : Prop :=
  (∃ a, tx = readFrame c a) ∨ (∃ a v, tx = writeFrame c a v) ∨
    (∃ a n, 1 ≤ n ∧ n ≤ c.fifoCapacity ∧ tx = burstFrame c a n)

/-- The shape of an exchange, in bits alone: 2 to 65 bytes, as many returned as sent, bit 0 of the address byte 0; a
write has 2 bytes; in a read every byte but the last repeats the first and the last is 0x00 (30_encoding.md R80, R86,
R87). -/
def exchangeShape (tx rx : List Byte) : Prop :=
  2 ≤ tx.length ∧ tx.length ≤ 65 ∧ rx.length = tx.length ∧
    (∃ b, tx.head? = some b ∧ b.getLsbD 0 = false ∧
      (byteIsRead b = false → tx.length = 2) ∧
      (byteIsRead b = true → tx = List.replicate (tx.length - 1) b ++ [0x00]))

/-- Every exchange of a trace has that shape. -/
def TraceShape (trace : List Event) : Prop :=
  ∀ tx rx, Event.xfer tx rx ∈ trace → exchangeShape tx rx

/-- The number of frames in a trace. -/
def frameCount : List Event → Nat
  | [] => 0
  | .xfer _ _ :: rest => frameCount rest + 1
  | _ :: rest => frameCount rest

/-- The invariants of the `UID` register (10_state.md R22): the recorded length is the number of bytes copied, it is
0 or 4, and only a copied UID is confirmed. -/
def UidOk (u : Uid) : Prop :=
  u.size = u.b.length ∧ (u.size = 0 ∨ u.size = 4) ∧ (u.valid = true → u.size = 4)

/-- Between operations the block is idle: not busy, no operation on the call stack, neither the counter nor the
scratch holding anything (10_state.md R25, R28, R30). -/
def Idle (s : State) : Prop :=
  s.busy = false ∧ s.seq = [] ∧ s.poll = 0 ∧ s.scratch = .empty

/-- What a response may carry: result fields with OK alone (10_state.md R27, 70_reset_and_hazards.md R277); a kept reply
with COLLISION or CRC_WRONG alone (10_state.md R27), or with the TIMEOUT of the CALCCRC that COMM's response CRC check
calls (43_communicate.md R172; log 24). -/
def ResponseOk (r : Response) : Prop :=
  (r.status ≠ .ok → r.results = {}) ∧
    (r.kept ≠ none → r.status = .collision ∨ r.status = .crcWrong ∨ r.status = .timeout)

/-- The registers of the fixture are in canonical form; the oracle has none. -/
def ChipOk : Chip → Prop
  | .oracle _ => True
  | .simpleRegs m => Memory.wf m

/-- The invariant of the whole machine. -/
def MachineInv (s : State) : Prop :=
  s.cfg.wf = true ∧ s.cfg.standard = true ∧ UidOk s.uid ∧ Idle s ∧ TraceShape s.trace ∧
    (∀ r, s.response = some r → ResponseOk r) ∧ ChipOk s.chip

/-- The state before and the state after hold the same configuration, `UID`, reset line and fatal flag, and the host
presents the same requests (60_exceptions.md R254). -/
def SameBlock (s t : State) : Prop :=
  t.cfg = s.cfg ∧ t.uid = s.uid ∧ t.nrst = s.nrst ∧ t.fatal = s.fatal ∧ t.host = s.host

/-- The status and results of the response a state holds, with no kept reply. -/
def Responded (t : State) (st : Status) (r : Results) : Prop :=
  t.response = some ⟨st, t.cfg.numbering.code st, r, none⟩

/-! ### What the parts of an operation make of a state -/

/-- The value a single-register read returns: the second returned byte (40_register_access.md R110). -/
def readValue (s : State) (a : Addr) : Byte := (s.rx (readFrame s.cfg a)).getD 1 0

/-- The state after a single-register read. -/
def readDone (s : State) (a : Addr) : State := s.exchanged (readFrame s.cfg a)

/-- The state after a single-register write. -/
def writeDone (s : State) (a : Addr) (v : Byte) : State := s.exchanged (writeFrame s.cfg a v)

/-- The state after one write frame a byte, in index order (30_encoding.md R85). -/
def writesDone (s : State) (a : Addr) (bytes : List Byte) : State := bytes.foldl (fun t b => writeDone t a b) s

/-- The state after a bit-set: a read, then a write of the byte read with the mask's bits set (40_register_access.md
R114). -/
def setDone (s : State) (a : Addr) (m : Byte) : State := writeDone (readDone s a) a (readValue s a ||| m)

/-- The state after a bit-clear (40_register_access.md R115). -/
def clrDone (s : State) (a : Addr) (m : Byte) : State := writeDone (readDone s a) a (readValue s a &&& ~~~m)

/-- The bytes a block read of `n` bytes returns: none for none; otherwise those of the answer but the first, the first
of them masked (40_register_access.md R111). -/
def burstValue (s : State) (a : Addr) (n : Nat) (align : Bits3) : List Byte :=
  if n = 0 then [] else maskFirst align ((s.rx (burstFrame s.cfg a n)).drop 1)

/-- The state after a block read: no frame for no byte. -/
def burstDone (s : State) (a : Addr) (n : Nat) : State :=
  if n = 0 then s else s.exchanged (burstFrame s.cfg a n)

/-- The state after the delay between two polls (D35). -/
def pollGap (s : State) : State :=
  match s.cfg.pollDelay with
  | none => s
  | some t => s.emit (.wait t)

/-- The state after `k` unsuccessful polls of a register. -/
def polled (s : State) (reg : Addr) : Nat → State
  | 0 => s
  | k + 1 => pollGap (readDone (polled s reg k) reg)

/-- The byte the poll after `k` unsuccessful ones reads. -/
def pollByte (s : State) (reg : Addr) (k : Nat) : Byte := readValue (polled s reg k) reg

/-- The state after `k` unsuccessful polls and one more that ends the loop. -/
def pollDone (s : State) (reg : Addr) (k : Nat) : State := readDone (polled s reg k) reg

/-- Step K1 of CALCCRC (42_crc.md R150). -/
def crcLoaded (s : State) (data : List Byte) : State :=
  let c := s.cfg
  writeDone (writesDone (setDone (clrDone (writeDone s c.reg.command c.cmd.idle) c.reg.divIrq c.mask.irqCrc)
    c.reg.fifoLevel c.mask.fifoFlush) c.reg.fifoData data) c.reg.command c.cmd.calcCrc

/-- Steps S0 to S3 of COMM (43_communicate.md R160). -/
def commIssued (s : State) (o : CommOperands) : State :=
  let c := s.cfg
  writeDone (setDone (clrDone (writesDone (setDone (writeDone s c.reg.comIrq c.mask.comIrqClear)
    c.reg.fifoLevel c.mask.fifoFlush) c.reg.fifoData (o.data.take o.len.toNat)) c.reg.bitFraming c.bfAll)
    c.reg.bitFraming (bf c o.align o.txLast)) c.reg.command o.cmd

/-- Steps S0 to S3b of COMM: the transmission of a Transceive, and of no other command, is started
(43_communicate.md R166). -/
def commLoaded (s : State) (o : CommOperands) : State :=
  if o.cmd = s.cfg.cmd.transceive then setDone (commIssued s o) s.cfg.reg.bitFraming s.cfg.mask.bfStartSend
  else commIssued s o

/-- The four steps of HRESET (41_lifecycle.md R130). -/
def resetDone (s : State) : State :=
  (s.setNrst true).setTrace
    ([.wait s.cfg.resetHold, .nrst true, .wait s.cfg.resetHold, .nrst false] ++ s.trace)

/-- The check-before-write of ANTON (41_lifecycle.md R133). -/
def antennaDone (s : State) : State :=
  let r := s.cfg.reg.txControl
  let m := s.cfg.mask.antMask
  if readValue s r &&& m = m then readDone s r else writeDone (readDone s r) r (readValue s r ||| m)

/-- The six writes of INIT, then ANTON (41_lifecycle.md R132). -/
def initDone (s : State) : State :=
  let c := s.cfg
  antennaDone (writeDone (writeDone (writeDone (writeDone (writeDone (writeDone s
    c.reg.tMode c.initC.tMode) c.reg.tPrescaler c.initC.tPrescaler) c.reg.tReloadH c.initC.tReloadH)
    c.reg.tReloadL c.initC.tReloadL) c.reg.txAsk c.initC.txAsk) c.reg.mode c.initC.mode)

/-- The completion poll of COMM ends with a completion bit seen at the poll after `k` others: no earlier poll shows the
timer-expired bit or a requested bit, and this one shows a requested bit and not the timer's (43_communicate.md
R167). -/
def CompletedAt (s : State) (o : CommOperands) (k : Nat) : Prop :=
  k < s.cfg.commPollBound ∧
    (∀ j < k, pollByte s s.cfg.reg.comIrq j &&& s.cfg.mask.irqTimer = 0 ∧
      pollByte s s.cfg.reg.comIrq j &&& o.irqMask = 0) ∧
    pollByte s s.cfg.reg.comIrq k &&& s.cfg.mask.irqTimer = 0 ∧
    pollByte s s.cfg.reg.comIrq k &&& o.irqMask ≠ 0

/-- The three fatal bits of an error byte are clear, or not (43_communicate.md R169). -/
def FatalBits (c : Config) (e : Byte) : Prop :=
  e &&& (c.mask.errBufOvfl ||| c.mask.errParity ||| c.mask.errProtocol) ≠ 0

/-- An operation ends in `s` with a status other than OK and no result. -/
def ended (st : Status) (s : State) : State := respond (.error ⟨st, none⟩) s

/-- COMM ends in `s` with a failure after the reply was copied, the reply kept for an extension (10_state.md R27,
43_communicate.md R171, R172; log 24). -/
def endedKeeping (st : Status) (back : List Byte) (s : State) : State := respond (.error ⟨st, some back⟩) s

/-- An operation ends in `s` with OK and these results. -/
def endedOk (r : Results) (s : State) : State := respond (.ok r) s

/-- The state a response was given in, its event taken off the trace: where an operation that called the answered one
goes on. -/
def unanswered (t : State) : State := t.setTrace t.trace.tail

/-- The operands of a PICC exchange: the Transceive command, the completion mask of 30_encoding.md R101, no alignment,
no response CRC check (43_communicate.md R160). -/
def exchangeOperands (c : Config) (send : List Byte) (txLast : Bits3) (cap : Option (BitVec 7)) : CommOperands :=
  ⟨c.cmd.transceive, c.irqDone, BitVec.ofNat 8 send.length, send, 0, txLast, false, cap.isSome, cap.getD 0⟩

/-- The results of an operation that returns `n` bytes. -/
def replyResults (n : Byte) (back : List Byte) : Results := { rlen := some n, rdata := some back }

/-- What a request (44_anticollision_select.md R192) makes of the exchange it is: a failure is passed on, a reply too short
to be an ATQA is INVALID, and the first two bytes of one are handed out (with an `ATQA_LEN` other than 2: log 29). -/
def RequestOf (s : State) (cmdByte : Byte) (request : Host.Outcome State Fault Refusal) : Prop :=
  ∃ t r, exec (.comm (exchangeOperands s.cfg [cmdByte] s.cfg.card.reqTxBits (some s.cfg.card.atqaLen))) s = .next t ∧
    t.response = some r ∧
    (r.status ≠ .ok → request = .next (ended r.status (unanswered t))) ∧
    (r.status = .ok → ∃ ab, r.results.rdata = some ab ∧ ab.length ≤ s.cfg.card.atqaLen.toNat ∧
      (ab.length < s.cfg.card.atqaLen.toNat ∨ ab.length < 2 → request = .next (ended .invalid (unanswered t))) ∧
      (∀ a0 a1 rest, ab = a0 :: a1 :: rest → s.cfg.card.atqaLen.toNat ≤ ab.length →
        request = .next (endedOk { atqa := some (a0, a1) } (unanswered t))))

/-- The most frames an instruction sends: for the operations the table of 70_reset_and_hazards.md R291, for the
other rows what their frames are. -/
def frameBound (c : Config) : Instr → Nat
  | .rdreg _ => 1
  | .rdblk _ _ _ => 1
  | .wrreg _ _ => 1
  | .wrblk _ len _ => len.toNat
  | .setbm _ _ => 2
  | .clrbm _ _ => 2
  | .hreset => 0
  | .sreset => 1 + c.softResetPollBound
  | .init => 8
  | .anton => 2
  | .antoff => 2
  | .calccrc len _ => 6 + len.toNat + c.crcPollBound + 2
  | .comm o => 13 + o.len.toNat + c.commPollBound + (if o.chk then 6 + 62 + c.crcPollBound + 2 else 0)
  | .select _ => (15 + c.commPollBound) + (15 + c.crcPollBound) + (22 + c.commPollBound)
  | .reqa => 14 + c.commPollBound
  | .wupa => 14 + c.commPollBound
  | .isnew => 14 + c.commPollBound
  | .hlta => (10 + c.crcPollBound) + (15 + c.commPollBound)
  | .initialise _ => 8
  | .poll => (14 + c.commPollBound) + ((15 + c.commPollBound) + (15 + c.crcPollBound) + (22 + c.commPollBound)) +
      ((10 + c.crcPollBound) + (15 + c.commPollBound))
  | .unassigned _ => 0
  | .xferAbyteRd _ => 1
  | .xferAbyteWr _ _ => 1
  | .xferRd1 _ => 1
  | .xferRdn _ _ _ => 1
  | .xferWr1 _ _ => 1
  | .xferWrn _ data => data.length
  | .xferReserved _ => 0
  | .cmdIdle => 1
  | .cmdCalccrc => 1
  | .cmdTransceive => 1
  | .cmdSoftreset => 1
  | .bitframingValue _ _ _ => 6
  | .piccReqa => 14 + c.commPollBound
  | .piccWupa => 14 + c.commPollBound
  | .piccAnticollCl1 => 15 + c.commPollBound
  | .piccSelectCl1 _ _ _ _ _ _ _ => 22 + c.commPollBound
  | .piccHlta _ _ => 15 + c.commPollBound
  | .piccReplyAtqa _ _ => 0
  | .piccReplyAnticoll _ _ _ _ _ => 0
  | .piccReplySak _ _ => 0
  | .statusOk => 0
  | .statusError => 0
  | .statusCollision => 0
  | .statusTimeout => 0
  | .statusNoRoom => 0
  | .statusInvalid => 0
  | .statusCrcWrong => 0

/-- The instructions that write `UID`: SELECT, directly or inside POLL (10_state.md R22). -/
def writesUid : Instr → Bool
  | .select _ | .poll => true
  | _ => false

/-- The instructions that drive the reset line: HRESET, and INITIALIZE through it (10_state.md R23; 46_host_ops.md
R230). -/
def writesNrst : Instr → Bool
  | .hreset | .initialise true => true
  | _ => false

/-- The one instruction that sets `FATAL` (10_state.md R24). -/
def writesFatal : Instr → Bool
  | .initialise false => true
  | _ => false

/-- The fixture holds these registers and the configuration lays the address byte out as 30_encoding.md R81 does. -/
def FixtureWith (s : State) (m : Memory) : Prop :=
  s.chip = .simpleRegs m ∧ Memory.wf m ∧ s.cfg.readFlag = 0x80 ∧ s.cfg.addrShift = 1

/-- The fixture's register at an address, in a state. -/
def fixtureRead (s : State) (a : Addr) : Byte :=
  match s.chip with
  | .simpleRegs m => memRead m a.toNat
  | .oracle _ => 0

end Sys2Proof.Machine
end

