-- ==== Sys2Proof/Certificates/Slice0/Obligations.lean ====
section
/-! DEFINITION. The statements about this model, for the provers. Each docstring names the rule of spec/ it states. -/

open Sys2Proof
open Sys2Proof.Machine

/-! ### Reset, parameters, the response record -/

/-- 10_state.md R47, 70_reset_and_hazards.md R270: the values the block's own reset gives. -/
def Obligations.ResetState : Prop :=
  State.reset.uid.valid = false ∧ State.reset.uid.size = 0 ∧ State.reset.uid.b = [] ∧ State.reset.fatal = false ∧
    State.reset.busy = false ∧ State.reset.seq = [] ∧ State.reset.response = none ∧ State.reset.trace = []

/-- 00_scope.md R6, 30_encoding.md R97: the numbers the source fixes, and the numbers of the status codes. -/
def Obligations.ParameterDefaults : Prop :=
  Config.default.addrBits = 6 ∧ Config.default.rxAlignMax = 7 ∧
    Config.default.readFlag = 0x80 ∧ Config.default.addrShift = 1 ∧ Config.default.fifoCapacity = 64 ∧
    Config.default.uidCapacity = 10 ∧ Config.default.crcPollBound = 5000 ∧ Config.default.commPollBound = 2000 ∧
    Config.default.resetHold = 50 ∧ Config.default.mask.antMask = 0x03 ∧ Config.default.card.reqa = 0x26 ∧
    Config.default.card.wupa = 0x52 ∧ Config.default.card.reqTxBits = 7 ∧ Config.default.card.selCl1 = 0x93 ∧
    Config.default.card.nvbAnticoll = 0x20 ∧ Config.default.card.hlta0 = 0x50 ∧ Config.default.card.hlta1 = 0x00 ∧
    Config.default.card.atqaLen = 2 ∧ Config.default.card.anticollReplyLen = 5 ∧
    Config.default.card.sakCascadeBit = 0x04 ∧ Config.default.card.crcPreset = 0x6363 ∧
    [Status.ok, .error, .collision, .timeout, .noRoom, .invalid, .crcWrong].map Config.default.numbering.code =
      [0, 1, 2, 3, 4, 5, 6]

/-- 60_exceptions.md R240, 10_state.md R25, R27, R28, R30, 70_reset_and_hazards.md R277: what the end of an operation
writes (its response record, and the event of it), what falls idle, and that nothing else changes. A result field holds
a value only with OK; a reply that COMM keeps is no result field (log 24). -/
def Obligations.ResponseRecord : Prop :=
  (∀ st s, (ended st s).response = some ⟨st, s.cfg.numbering.code st, {}, none⟩) ∧
  (∀ st back s, (endedKeeping st back s).response = some ⟨st, s.cfg.numbering.code st, {}, some back⟩) ∧
  (∀ r s, (endedOk r s).response = some ⟨.ok, s.cfg.numbering.code .ok, r, none⟩) ∧
  ∀ r s, Idle (respond r s) ∧ SameBlock s (respond r s) ∧ (respond r s).chip = s.chip ∧
    ∃ q, (respond r s).response = some q ∧ (respond r s).trace = .response q :: s.trace

/-! ### Register access -/

/-- 40_register_access.md R110: one frame, the second returned byte, nothing else. -/
def Obligations.RdregResult : Prop :=
  ∀ a s, exec (.rdreg a) s =
    .next (endedOk { rval := some ((s.rx [s.cfg.readFlag ||| ((a.setWidth 8 <<< s.cfg.addrShift) &&& 0x7E), 0]).getD 1 0) }
      (s.exchanged [s.cfg.readFlag ||| ((a.setWidth 8 <<< s.cfg.addrShift) &&& 0x7E), 0]))

/-- 40_register_access.md R111: NO_ROOM above the FIFO's capacity, and no frame; OK and no frame for no byte;
otherwise one frame, the bytes after the first returned one, only the first of them masked. -/
def Obligations.RdblkResult : Prop :=
  ∀ a len align s,
    (s.cfg.fifoCapacity < len.toNat → exec (.rdblk a len align) s = .next (ended .noRoom s)) ∧
    (len = 0 → exec (.rdblk a len align) s = .next (endedOk (replyResults 0 []) s)) ∧
    (len ≠ 0 → len.toNat ≤ s.cfg.fifoCapacity →
      let tx := List.replicate len.toNat (s.cfg.readFlag ||| ((a.setWidth 8 <<< s.cfg.addrShift) &&& 0x7E)) ++ [0]
      ∃ b rest, (s.rx tx).drop 1 = b :: rest ∧ (b :: rest).length = len.toNat ∧
        exec (.rdblk a len align) s = .next (endedOk
          (replyResults len ((b &&& ((0xFF : BitVec 16) <<< align.toNat).setWidth 8) :: rest))
          (s.exchanged tx)))

/-- 40_register_access.md R112: one frame, both returned bytes ignored. -/
def Obligations.WrregResult : Prop :=
  ∀ a v s, exec (.wrreg a v) s =
    .next (endedOk {} (s.exchanged [(a.setWidth 8 <<< s.cfg.addrShift) &&& 0x7E, v]))

/-- 40_register_access.md R113: NO_ROOM above the FIFO's capacity, and no frame; otherwise one write frame a byte, in
index order, all to one address. -/
def Obligations.WrblkResult : Prop :=
  ∀ a len data s,
    (s.cfg.fifoCapacity < len.toNat → exec (.wrblk a len data) s = .next (ended .noRoom s)) ∧
    (len.toNat ≤ s.cfg.fifoCapacity → dataFits len data = true →
      exec (.wrblk a len data) s = .next (endedOk {} (data.foldl
        (fun t b => t.exchanged [(a.setWidth 8 <<< s.cfg.addrShift) &&& 0x7E, b]) s)))

/-- 40_register_access.md R114: a read, then always a write of the byte read with the mask's bits set. -/
def Obligations.SetbmResult : Prop :=
  ∀ a m s, exec (.setbm a m) s = .next (endedOk {} (writeDone (readDone s a) a (readValue s a ||| m)))

/-- 40_register_access.md R115: a read, then always a write of the byte read with the mask's bits cleared. -/
def Obligations.ClrbmResult : Prop :=
  ∀ a m s, exec (.clrbm a m) s = .next (endedOk {} (writeDone (readDone s a) a (readValue s a &&& ~~~m)))

/-- 40_register_access.md R116, on the fixture of 20_memory.md R56: the same mask applied twice leaves every register
as once. -/
def Obligations.MaskIdempotent : Prop :=
  ∀ a k s m, FixtureWith s m → ∃ t u t' u',
    exec (.setbm a k) s = .next t ∧ exec (.setbm a k) t = .next u ∧ u.chip = t.chip ∧
      fixtureRead u a = memRead m a.toNat ||| k ∧
      exec (.clrbm a k) s = .next t' ∧ exec (.clrbm a k) t' = .next u' ∧ u'.chip = t'.chip ∧
      fixtureRead u' a = memRead m a.toNat &&& ~~~k

/-- 40_register_access.md R117, on the fixture of 20_memory.md R56: a write followed by a read of the same address
returns the byte written. -/
def Obligations.RegisterRoundTrip : Prop :=
  ∀ a v s m, FixtureWith s m → ∃ t u,
    exec (.wrreg a v) s = .next t ∧ exec (.rdreg a) t = .next u ∧ Responded u .ok { rval := some v }

/-- 20_memory.md R56, R60: what each access does to the fixture's registers: the reads return what the register holds
and change none; the writes change the one register they name and no other. -/
def Obligations.FixtureRegisters : Prop :=
  ∀ s m, FixtureWith s m →
    (∀ a, ∃ t, exec (.rdreg a) s = .next t ∧ t.chip = s.chip ∧ Responded t .ok { rval := some (memRead m a.toNat) }) ∧
    (∀ a len align, len.toNat ≤ s.cfg.fifoCapacity → ∃ t, exec (.rdblk a len align) s = .next t ∧ t.chip = s.chip ∧
      Responded t .ok 
        (replyResults len (maskFirst align (List.replicate len.toNat (memRead m a.toNat))))) ∧
    (∀ a v, ∃ t m', exec (.wrreg a v) s = .next t ∧ FixtureWith t m' ∧
      ∀ x, memRead m' x = if x = a.toNat then v else memRead m x) ∧
    (∀ a k, ∃ t m', exec (.setbm a k) s = .next t ∧ FixtureWith t m' ∧
      ∀ x, memRead m' x = if x = a.toNat then memRead m a.toNat ||| k else memRead m x) ∧
    (∀ a k, ∃ t m', exec (.clrbm a k) s = .next t ∧ FixtureWith t m' ∧
      ∀ x, memRead m' x = if x = a.toNat then memRead m a.toNat &&& ~~~k else memRead m x) ∧
    (∀ a len data b, len.toNat ≤ s.cfg.fifoCapacity → dataFits len (data ++ [b]) = true →
      ∃ t m', exec (.wrblk a len (data ++ [b])) s = .next t ∧ FixtureWith t m' ∧
        ∀ x, memRead m' x = if x = a.toNat then b else memRead m x)

/-! ### Lifecycle -/

/-- 41_lifecycle.md R130: low, wait, high, wait, in this order, and no frame; `NRST` ends at 1; `UID`, `FATAL`, the chip
and the configuration are untouched. -/
def Obligations.HresetResult : Prop :=
  ∀ s, exec .hreset s = .next (endedOk {} ((s.setNrst true).setTrace
    (.wait s.cfg.resetHold :: .nrst true :: .wait s.cfg.resetHold :: .nrst false :: s.trace)))

/-- 41_lifecycle.md R131: OK at the first poll that reads the power-down bit 0; TIMEOUT after as many polls as the bound
that all read it 1. -/
def Obligations.SresetResult : Prop :=
  ∀ s, let t := writeDone s s.cfg.reg.command s.cfg.cmd.softReset
    (∀ k < s.cfg.softResetPollBound,
      (∀ j < k, pollByte t s.cfg.reg.command j &&& s.cfg.mask.cmdPowerDown ≠ 0) →
      pollByte t s.cfg.reg.command k &&& s.cfg.mask.cmdPowerDown = 0 →
      exec .sreset s = .next (endedOk {} (pollDone t s.cfg.reg.command k))) ∧
    ((∀ j < s.cfg.softResetPollBound, pollByte t s.cfg.reg.command j &&& s.cfg.mask.cmdPowerDown ≠ 0) →
      exec .sreset s = .next (ended .timeout (polled t s.cfg.reg.command s.cfg.softResetPollBound)))

/-- 41_lifecycle.md R132: six whole-byte writes in this order, then the frames of ANTON. -/
def Obligations.InitResult : Prop :=
  ∀ s, let c := s.cfg
    exec .init s = .next (endedOk {} (antennaDone ([(c.reg.tMode, c.initC.tMode),
      (c.reg.tPrescaler, c.initC.tPrescaler), (c.reg.tReloadH, c.initC.tReloadH), (c.reg.tReloadL, c.initC.tReloadL),
      (c.reg.txAsk, c.initC.txAsk), (c.reg.mode, c.initC.mode)].foldl (fun t w => writeDone t w.1 w.2) s)))

/-- 41_lifecycle.md R133: the write is made when, and only when, not both bits of the mask read 1, and sets both. -/
def Obligations.AntonResult : Prop :=
  ∀ s, let r := s.cfg.reg.txControl
    let m := s.cfg.mask.antMask
    exec .anton s = .next (endedOk {} (antennaDone s)) ∧
    (readValue s r &&& m = m → antennaDone s = readDone s r) ∧
    (readValue s r &&& m ≠ m → antennaDone s = writeDone (readDone s r) r (readValue s r ||| m))

/-- 41_lifecycle.md R134: the write is always made. -/
def Obligations.AntoffResult : Prop :=
  ∀ s, exec .antoff s = exec (.clrbm s.cfg.reg.txControl s.cfg.mask.antMask) s ∧
    exec .antoff s = .next (endedOk {} (writeDone (readDone s s.cfg.reg.txControl) s.cfg.reg.txControl
      (readValue s s.cfg.reg.txControl &&& ~~~s.cfg.mask.antMask)))

/-! ### The CRC coprocessor -/

/-- 42_crc.md R150, R152: at the first poll that shows the CRC-done flag the two result registers are read, low byte
first. -/
def Obligations.CalccrcResult : Prop :=
  ∀ len data s k, len.toNat ≤ s.cfg.fifoCapacity →
    let t := crcLoaded s (data.take len.toNat)
    k < s.cfg.crcPollBound →
    (∀ j < k, pollByte t s.cfg.reg.divIrq j &&& s.cfg.mask.irqCrc = 0) →
    pollByte t s.cfg.reg.divIrq k &&& s.cfg.mask.irqCrc ≠ 0 →
    let u := pollDone t s.cfg.reg.divIrq k
    let v := readDone u s.cfg.reg.crcResultL
    exec (.calccrc len data) s = .next (endedOk
      { crc := some (readValue u s.cfg.reg.crcResultL, readValue v s.cfg.reg.crcResultH) }
      (readDone v s.cfg.reg.crcResultH))

/-- 42_crc.md R153, 40_register_access.md R119: TIMEOUT and no result after as many polls as the bound that all read the
flag 0; NO_ROOM and no frame for a length above the FIFO's capacity. -/
def Obligations.CalccrcStops : Prop :=
  ∀ len data s,
    (s.cfg.fifoCapacity < len.toNat → exec (.calccrc len data) s = .next (ended .noRoom s)) ∧
    (len.toNat ≤ s.cfg.fifoCapacity →
      let t := crcLoaded s (data.take len.toNat)
      (∀ j < s.cfg.crcPollBound, pollByte t s.cfg.reg.divIrq j &&& s.cfg.mask.irqCrc = 0) →
      exec (.calccrc len data) s = .next (ended .timeout (polled t s.cfg.reg.divIrq s.cfg.crcPollBound)))

/-! ### COMM -/

/-- 43_communicate.md R161: a frame too long for the FIFO is NO_ROOM before any exchange. -/
def Obligations.CommSendTooLong : Prop :=
  ∀ o s, s.cfg.fifoCapacity < o.len.toNat → exec (.comm o) s = .next (ended .noRoom s)

/-- 43_communicate.md R167, R168: the timer-expired bit ends the poll with TIMEOUT whatever else the byte shows; so does
the bound, after exactly that many reads; nothing is read afterwards. -/
def Obligations.CommTimesOut : Prop :=
  ∀ o s, o.len.toNat ≤ s.cfg.fifoCapacity →
    let t := commLoaded s o
    let r := s.cfg.reg.comIrq
    let waiting := fun j => pollByte t r j &&& s.cfg.mask.irqTimer = 0 ∧ pollByte t r j &&& o.irqMask = 0
    (∀ k < s.cfg.commPollBound, (∀ j < k, waiting j) → pollByte t r k &&& s.cfg.mask.irqTimer ≠ 0 →
      exec (.comm o) s = .next (ended .timeout (pollDone t r k))) ∧
    ((∀ j < s.cfg.commPollBound, waiting j) →
      exec (.comm o) s = .next (ended .timeout (polled t r s.cfg.commPollBound)))

/-- 43_communicate.md R169: any of the three fatal bits of the error register ends COMM with ERROR; neither the FIFO's
level nor its data is read, with or without an output buffer. -/
def Obligations.CommErrorBits : Prop :=
  ∀ o s k, o.len.toNat ≤ s.cfg.fifoCapacity → CompletedAt (commLoaded s o) o k →
    let u := pollDone (commLoaded s o) s.cfg.reg.comIrq k
    FatalBits s.cfg (readValue u s.cfg.reg.error) →
    exec (.comm o) s = .next (ended .error (readDone u s.cfg.reg.error))

/-- 43_communicate.md R170, R171, R173: without an output buffer nothing more is read; the collision bit alone decides
between COLLISION and OK, and the response CRC is not checked (R172). -/
def Obligations.CommWithoutBuffer : Prop :=
  ∀ o s k, o.len.toNat ≤ s.cfg.fifoCapacity → CompletedAt (commLoaded s o) o k → o.hasBack = false →
    let u := pollDone (commLoaded s o) s.cfg.reg.comIrq k
    let e := readValue u s.cfg.reg.error
    ¬ FatalBits s.cfg e →
    (e &&& s.cfg.mask.errColl ≠ 0 → exec (.comm o) s = .next (ended .collision (readDone u s.cfg.reg.error))) ∧
    (e &&& s.cfg.mask.errColl = 0 → exec (.comm o) s = .next (endedOk {} (readDone u s.cfg.reg.error)))

/-- 43_communicate.md R170: a reply longer than the buffer is NO_ROOM, and nothing is copied, collision or not (R175).
The clause of the FIFO's own capacity is that of the block read (40_register_access.md R111). -/
def Obligations.CommReplyTooLong : Prop :=
  ∀ o s k, o.len.toNat ≤ s.cfg.fifoCapacity → CompletedAt (commLoaded s o) o k → o.hasBack = true →
    let u := pollDone (commLoaded s o) s.cfg.reg.comIrq k
    let v := readDone u s.cfg.reg.error
    let n := readValue v s.cfg.reg.fifoLevel
    ¬ FatalBits s.cfg (readValue u s.cfg.reg.error) →
    (o.cap.toNat < n.toNat ∨ s.cfg.fifoCapacity < n.toNat) →
    exec (.comm o) s = .next (ended .noRoom (readDone v s.cfg.reg.fifoLevel))

/-- 43_communicate.md R170, R171, R173: a reply that fits is copied, exactly as many bytes as the FIFO's level, the first
masked; with the collision bit the status is COLLISION and the reply is kept, but is no result (10_state.md R27,
70_reset_and_hazards.md R277, log 24); without it and without a CRC check the status is OK. -/
def Obligations.CommReply : Prop :=
  ∀ o s k, o.len.toNat ≤ s.cfg.fifoCapacity → CompletedAt (commLoaded s o) o k → o.hasBack = true →
    let u := pollDone (commLoaded s o) s.cfg.reg.comIrq k
    let e := readValue u s.cfg.reg.error
    let v := readDone u s.cfg.reg.error
    let n := readValue v s.cfg.reg.fifoLevel
    let w := readDone v s.cfg.reg.fifoLevel
    ¬ FatalBits s.cfg e → n.toNat ≤ o.cap.toNat → n.toNat ≤ s.cfg.fifoCapacity →
    let back := burstValue w s.cfg.reg.fifoData n.toNat o.align
    let x := burstDone w s.cfg.reg.fifoData n.toNat
    back.length = n.toNat ∧
    (e &&& s.cfg.mask.errColl ≠ 0 → exec (.comm o) s = .next (endedKeeping .collision back x)) ∧
    (e &&& s.cfg.mask.errColl = 0 → o.chk = false →
      exec (.comm o) s = .next (endedOk (replyResults n back) x))

/-- 43_communicate.md R172: with the check and a buffer, a reply of fewer than 3 bytes is CRC_WRONG; otherwise the
coprocessor computes the CRC of all but the last two bytes, its failure is passed on, and any difference is CRC_WRONG,
the low byte compared first. The reply is kept "in every outcome of this step": as the result with OK, apart from the
result fields with CRC_WRONG and with the failure of the nested CALCCRC (log 24). -/
def Obligations.CommCheck : Prop :=
  ∀ o s k, o.len.toNat ≤ s.cfg.fifoCapacity → CompletedAt (commLoaded s o) o k → o.hasBack = true → o.chk = true →
    let u := pollDone (commLoaded s o) s.cfg.reg.comIrq k
    let e := readValue u s.cfg.reg.error
    let v := readDone u s.cfg.reg.error
    let n := readValue v s.cfg.reg.fifoLevel
    let w := readDone v s.cfg.reg.fifoLevel
    ¬ FatalBits s.cfg e → e &&& s.cfg.mask.errColl = 0 → n.toNat ≤ o.cap.toNat → n.toNat ≤ s.cfg.fifoCapacity →
    let back := burstValue w s.cfg.reg.fifoData n.toNat o.align
    let x := burstDone w s.cfg.reg.fifoData n.toNat
    (n.toNat < 3 → exec (.comm o) s = .next (endedKeeping .crcWrong back x)) ∧
    (3 ≤ n.toNat → ∃ t r, exec (.calccrc (n - 2) (back.take (n.toNat - 2))) x = .next t ∧ t.response = some r ∧
      (r.status ≠ .ok → exec (.comm o) s = .next (endedKeeping r.status back (unanswered t))) ∧
      (r.status = .ok → ∃ lo hi, r.results.crc = some (lo, hi) ∧
        (back[n.toNat - 2]? = some lo ∧ back[n.toNat - 1]? = some hi →
          exec (.comm o) s = .next (endedOk (replyResults n back) (unanswered t))) ∧
        (¬ (back[n.toNat - 2]? = some lo ∧ back[n.toNat - 1]? = some hi) →
          exec (.comm o) s = .next (endedKeeping .crcWrong back (unanswered t)))))

/-! ### Anti-collision, select, halt -/

/-- 44_anticollision_select.md R190, R191, R192 (with an `ATQA_LEN` other than 2: log 29). -/
def Obligations.RequestResult : Prop :=
  ∀ s, s.cfg.wf = true → RequestOf s s.cfg.card.reqa (exec .reqa s) ∧
    RequestOf s s.cfg.card.wupa (exec .wupa s)

/-- 44_anticollision_select.md R193: always OK; a card is present when the request ended OK or COLLISION. -/
def Obligations.IsnewResult : Prop :=
  ∀ s, s.cfg.wf = true → ∃ t r, exec .reqa s = .next t ∧ t.response = some r ∧
    exec .isnew s = .next (endedOk { present := some (decide (r.status = .ok ∨ r.status = .collision)) } (unanswered t))

/-- 44_anticollision_select.md R202: a SELECT with VBITS not 0 is refused. -/
def Obligations.SelectRefusesValidBits : Prop :=
  ∀ v s, v ≠ 0 → exec (.select v) s = .refused .validBitsNotZero

/-- 44_anticollision_select.md R195, R196, R197, R201: the anti-collision exchange is COMM with the frame of
30_encoding.md R91 and room for 5 bytes; its failure, COLLISION among them, is passed on, a reply shorter than 5 bytes
is INVALID, and in both cases `UID` is unchanged; a reply is never longer. -/
def Obligations.SelectFirstExchange : Prop :=
  ∀ s, s.cfg.wf = true → s.cfg.card.anticollReplyLen = 5 → ∃ t r,
    exec (.comm (exchangeOperands s.cfg [s.cfg.card.selCl1, s.cfg.card.nvbAnticoll] 0 (some 5))) s = .next t ∧
    t.response = some r ∧ (unanswered t).uid = s.uid ∧
    (r.status ≠ .ok → exec (.select 0) s = .next (ended r.status (unanswered t))) ∧
    (r.status = .ok → ∃ rb, r.results.rdata = some rb ∧ rb.length ≤ 5 ∧
      (rb.length < 5 → exec (.select 0) s = .next (ended .invalid (unanswered t))))

/-- 44_anticollision_select.md R194, R198, R199, R200: after a reply of 5 bytes: the four UID bytes are copied and
unconfirmed; a wrong BCC ends SELECT; the chip's CRC of the first seven bytes of the SELECT frame is asked for, its
failure passed on; the frame of nine bytes is exchanged with room for 3, its failure passed on; an empty reply is
INVALID; otherwise the first byte is the SAK, it is stored, the UID is confirmed and handed out. -/
def Obligations.SelectCompletes : Prop :=
  ∀ s t r u0 u1 u2 u3 bcc, s.cfg.wf = true → s.cfg.card.anticollReplyLen = 5 →
    exec (.comm (exchangeOperands s.cfg [s.cfg.card.selCl1, s.cfg.card.nvbAnticoll] 0 (some 5))) s = .next t →
    t.response = some r → r.status = .ok → r.results.rdata = some [u0, u1, u2, u3, bcc] →
    let copied := (unanswered t).setUid ⟨4, [u0, u1, u2, u3], s.uid.sak, false⟩
    let frame := [s.cfg.card.selCl1, s.cfg.card.nvbSelect, u0, u1, u2, u3, bcc]
    (u0 ^^^ u1 ^^^ u2 ^^^ u3 ≠ bcc → exec (.select 0) s = .next (ended s.cfg.bccFailStatus copied)) ∧
    (u0 ^^^ u1 ^^^ u2 ^^^ u3 = bcc →
      ∃ w q, exec (.calccrc 7 frame) copied = .next w ∧ w.response = some q ∧
        (q.status ≠ .ok → exec (.select 0) s = .next (ended q.status (unanswered w))) ∧
        (q.status = .ok → ∃ lo hi x p, q.results.crc = some (lo, hi) ∧
          exec (.comm (exchangeOperands s.cfg (frame ++ [lo, hi]) 0 (some 3))) (unanswered w) = .next x ∧
          x.response = some p ∧
          (p.status ≠ .ok → exec (.select 0) s = .next (ended p.status (unanswered x))) ∧
          (p.status = .ok → ∃ kb, p.results.rdata = some kb ∧ kb.length ≤ 3 ∧
            (kb = [] → exec (.select 0) s = .next (ended .invalid (unanswered x))) ∧
            (∀ sak rest, kb = sak :: rest → exec (.select 0) s = .next (endedOk
              { uidOut := some ⟨4, [u0, u1, u2, u3], sak⟩ }
              ((unanswered x).setUid ⟨4, [u0, u1, u2, u3], sak, true⟩))))))

/-- 44_anticollision_select.md R201, R204, 60_exceptions.md R254: SELECT leaves `UID` as it was, or, from step L5 on,
four unconfirmed bytes beside the old SAK byte, and then its status is not OK; or it confirms four bytes, hands them out,
and its status is OK. -/
def Obligations.SelectUid : Prop :=
  ∀ s, s.cfg.wf = true → ∃ t r, exec (.select 0) s = .next t ∧ t.response = some r ∧
    ((r.status ≠ .ok ∧ r.results = {} ∧
        (t.uid = s.uid ∨ ∃ b, b.length = 4 ∧ t.uid = ⟨4, b, s.uid.sak, false⟩)) ∨
      (r.status = .ok ∧ ∃ b sak, b.length = 4 ∧ t.uid = ⟨4, b, sak, true⟩ ∧ r.results = { uidOut := some ⟨4, b, sak⟩ }))

/-- 45_halt.md R220, R221, R222, R223: the CRC's failure is passed on and nothing is sent to the card; otherwise the frame
of four bytes is exchanged with no output buffer, and TIMEOUT is OK, every other status ERROR. -/
def Obligations.HltaResult : Prop :=
  ∀ s, s.cfg.wf = true → ∃ t r,
    exec (.calccrc 2 [s.cfg.card.hlta0, s.cfg.card.hlta1]) s = .next t ∧ t.response = some r ∧
    (r.status ≠ .ok → exec .hlta s = .next (ended r.status (unanswered t))) ∧
    (r.status = .ok → ∃ lo hi u q, r.results.crc = some (lo, hi) ∧
      exec (.comm (exchangeOperands s.cfg [s.cfg.card.hlta0, s.cfg.card.hlta1, lo, hi] 0 none)) (unanswered t) =
        .next u ∧ u.response = some q ∧
      (q.status = .timeout → exec .hlta s = .next (endedOk {} (unanswered u))) ∧
      (q.status ≠ .timeout → exec .hlta s = .next (ended .error (unanswered u))))

/-! ### The host call surface -/

/-- 46_host_ops.md R230: with the bus open, HRESET then INIT, and OK; without it no frame, the fatal flag, and ERROR. -/
def Obligations.InitializeResult : Prop :=
  ∀ s, (∃ t, exec .hreset s = .next t ∧ exec (.initialise true) s = exec .init (unanswered t)) ∧
    exec (.initialise true) s = .next (endedOk {} (initDone (resetDone s))) ∧
    exec (.initialise false) s = .next (ended .error (s.setFatal true))

/-- 46_host_ops.md R231, R232, R233: always OK. No card at the request, or a SELECT that fails: no UID. A SELECT that ends
OK: the event, once; then, with HALT_AFTER_READ, HLTA, whose status is ignored; and the UID. -/
def Obligations.PollResult : Prop :=
  ∀ s, s.cfg.wf = true →
    ∃ t p, exec .isnew s = .next t ∧ Responded t .ok { present := some p } ∧
    (p = false → exec .poll s = .next (endedOk { someTag := some false } (unanswered t))) ∧
    (p = true → ∃ u r, exec (.select 0) (unanswered t) = .next u ∧ u.response = some r ∧
      (r.status ≠ .ok → exec .poll s = .next (endedOk { someTag := some false } (unanswered u))) ∧
      (r.status = .ok → ∃ o, r.results.uidOut = some o ∧
        let v := (unanswered u).emit (.cardDiscovered o)
        (s.cfg.haltAfterRead = false →
          exec .poll s = .next (endedOk { uidOut := some o, someTag := some true } v)) ∧
        (s.cfg.haltAfterRead = true → ∃ w, exec .hlta v = .next w ∧
          exec .poll s = .next (endedOk { uidOut := some o, someTag := some true } (unanswered w)))))

/-- 30_encoding.md R96: an unassigned code is answered INVALID, with no exchange, no wait and no state change. That the
code is the first byte of the request, and that bytes after it are ignored, is the model's (log 20, log 26). -/
def Obligations.UnassignedResult : Prop :=
  (∀ op rest, op ∉ assignedOps → decode ⟨.hostReq, op :: rest⟩ = .ok (.unassigned op)) ∧
    ∀ op s, exec (.unassigned op) s = .next (ended .invalid s)

/-! ### The rows that are no host operation (the model's reading: log 12 to log 18) -/

/-- 30_encoding.md R80, R82, R84, by log 12 and log 13: the single frames alone. -/
def Obligations.SingleFrames : Prop :=
  ∀ a v s,
    exec (.xferAbyteRd a) s = .next (endedOk { rval := some (readValue s a) } (readDone s a)) ∧
    exec (.xferRd1 a) s = .next (endedOk { rval := some (readValue s a) } (readDone s a)) ∧
    exec (.xferAbyteWr a v) s = .next (endedOk {} (writeDone s a v)) ∧
    exec (.xferWr1 a v) s = .next (endedOk {} (writeDone s a v))

/-- 30_encoding.md R83, R85, R102, by log 12 and log 14: the block frames alone, the length check before them. -/
def Obligations.BlockFrames : Prop :=
  ∀ a (n : BitVec 7) align data s,
    (s.cfg.fifoCapacity < n.toNat → exec (.xferRdn a n align) s = .next (ended .noRoom s)) ∧
    (n.toNat ≤ s.cfg.fifoCapacity → exec (.xferRdn a n align) s =
      .next (endedOk (replyResults (n.setWidth 8) (burstValue s a n.toNat align)) (burstDone s a n.toNat))) ∧
    (s.cfg.fifoCapacity < data.length → exec (.xferWrn a data) s = .next (ended .noRoom s)) ∧
    (data.length ≤ s.cfg.fifoCapacity → exec (.xferWrn a data) s = .next (endedOk {} (writesDone s a data)))

/-- 30_encoding.md R87: the reserved address byte is refused (log 14). -/
def Obligations.ReservedAddressByte : Prop :=
  ∀ b s, exec (.xferReserved b) s = .refused .reservedAddressByte

/-- 30_encoding.md R88: each chip command is one whole-byte write to the register of role COMMAND (log 12). -/
def Obligations.ChipCommandRows : Prop :=
  ∀ s, let r := s.cfg.reg.command
    exec .cmdIdle s = .next (endedOk {} (writeDone s r s.cfg.cmd.idle)) ∧
    exec .cmdCalccrc s = .next (endedOk {} (writeDone s r s.cfg.cmd.calcCrc)) ∧
    exec .cmdTransceive s = .next (endedOk {} (writeDone s r s.cfg.cmd.transceive)) ∧
    exec .cmdSoftreset s = .next (endedOk {} (writeDone s r s.cfg.cmd.softReset))

/-- 30_encoding.md R89, 43_communicate.md R164, R166, by log 15: the fields are cleared, the value is set, and the
start-send bit is set apart. -/
def Obligations.BitframingRow : Prop :=
  ∀ start align txLast s, let r := s.cfg.reg.bitFraming
    let t := setDone (clrDone s r s.cfg.bfAll) r (bf s.cfg align txLast)
    exec (.bitframingValue start align txLast) s =
      .next (endedOk {} (if start then setDone t r s.cfg.mask.bfStartSend else t))

/-- 30_encoding.md R90 to R93, by log 16: each card frame is one PICC exchange, COMM with those bytes, those valid bits
and the buffer the operation that sends it supplies. -/
def Obligations.CardFrames : Prop :=
  ∀ s u0 u1 u2 u3 bcc lo hi, let c := s.cfg
    let exchange := fun send txLast cap => exec (.comm (exchangeOperands c send txLast cap)) s
    (∃ t, exec .piccReqa s = .next t ∧ exchange [c.card.reqa] c.card.reqTxBits (some c.card.atqaLen) = .next t) ∧
    (∃ t, exec .piccWupa s = .next t ∧ exchange [c.card.wupa] c.card.reqTxBits (some c.card.atqaLen) = .next t) ∧
    (∃ t, exec .piccAnticollCl1 s = .next t ∧
      exchange [c.card.selCl1, c.card.nvbAnticoll] 0 (some c.card.anticollReplyLen) = .next t) ∧
    (∃ t, exec (.piccSelectCl1 u0 u1 u2 u3 bcc lo hi) s = .next t ∧
      exchange [c.card.selCl1, c.card.nvbSelect, u0, u1, u2, u3, bcc, lo, hi] 0 (some sakCap) = .next t) ∧
    (∃ t, exec (.piccHlta lo hi) s = .next t ∧ exchange [c.card.hlta0, c.card.hlta1, lo, hi] 0 none = .next t)

/-- 30_encoding.md R94, 44_anticollision_select.md R192, R198, R199, 10_state.md R22, by log 17: what the block takes out
of each reply: the ATQA; the four UID bytes of the anti-collision reply, whose BCC decides the status; the SAK, further
bytes ignored. `UID` is written by SELECT alone, so none of the three changes it. -/
def Obligations.CardReplies : Prop :=
  ∀ s, s.cfg.card.atqaLen = 2 → s.cfg.card.anticollReplyLen = 5 →
    (∀ a0 a1, exec (.piccReplyAtqa a0 a1) s = .next (endedOk { atqa := some (a0, a1) } s)) ∧
    (∀ u0 u1 u2 u3 bcc,
      (u0 ^^^ u1 ^^^ u2 ^^^ u3 = bcc →
        exec (.piccReplyAnticoll u0 u1 u2 u3 bcc) s = .next (endedOk (replyResults 4 [u0, u1, u2, u3]) s)) ∧
      (u0 ^^^ u1 ^^^ u2 ^^^ u3 ≠ bcc →
        exec (.piccReplyAnticoll u0 u1 u2 u3 bcc) s = .next (ended s.cfg.bccFailStatus s))) ∧
    (∀ sak extra, exec (.piccReplySak sak extra) s = .next (endedOk (replyResults 1 [sak]) s))

/-- 30_encoding.md R97, 60_exceptions.md R240, by log 18: each status code ends an operation with that status and
writes nothing else. -/
def Obligations.StatusRows : Prop :=
  ∀ s, exec .statusOk s = .next (endedOk {} s) ∧ exec .statusError s = .next (ended .error s) ∧
    exec .statusCollision s = .next (ended .collision s) ∧ exec .statusTimeout s = .next (ended .timeout s) ∧
    exec .statusNoRoom s = .next (ended .noRoom s) ∧ exec .statusInvalid s = .next (ended .invalid s) ∧
    exec .statusCrcWrong s = .next (ended .crcWrong s)

/-! ### Encoding -/

/-- Decoding what a well-formed instruction is encoded as gives it back, with every operand (30_encoding.md R80 to R97;
the request record's layout is log 20). -/
def Obligations.DecodeEncode : Prop :=
  ∀ i : Instr, i.wf = true → decode (encode i) = .ok i

/-- Whatever the bytes, an instruction that is decoded has its operands in their domains (00_scope.md R12). -/
def Obligations.DecodeWellFormed : Prop :=
  ∀ p i, decode p = .ok i → i.wf = true

/-- 30_encoding.md R86, R87: a frame that is decoded as one the block emits begins with an address byte whose bit 0 is 0;
a read repeats it, N times, before one 0x00; a write has two bytes. -/
def Obligations.EmittedFrames : Prop :=
  ∀ bytes align i, (decode ⟨.busFrame2, bytes⟩ = .ok i ∨ decode ⟨.busFrameN align, bytes⟩ = .ok i) →
    ∃ b rest, bytes = b :: rest ∧ b.getLsbD 0 = false ∧
      (b.getLsbD 7 = false → bytes.length = 2) ∧
      (b.getLsbD 7 = true → 1 ≤ rest.length ∧ rest.length ≤ 64 ∧ bytes = List.replicate rest.length b ++ [0])

/-- Words written out from the spec's encodings (30_encoding.md R80, R83, R88, R89, R90, R91, R95, R97). -/
def Obligations.DecodeWords : Prop :=
  decode ⟨.hostReq, [0x01, 0x06]⟩ = .ok (.rdreg 0x06) ∧
  decode ⟨.hostReq, [0x04, 0x09, 0x02, 0x93, 0x20]⟩ = .ok (.wrblk 0x09 2 [0x93, 0x20]) ∧
  decode ⟨.hostReq, [0x40, 0x00]⟩ = .ok (.select 0) ∧
  decode ⟨.busFrame2, [0x8C, 0x00]⟩ = .ok (.xferRd1 0x06) ∧
  decode ⟨.busFrame2, [0x02, 0x0C]⟩ = .ok (.xferWr1 0x01 0x0C) ∧
  decode ⟨.busFrameN 4, [0x92, 0x92, 0x92, 0x00]⟩ = .ok (.xferRdn 0x09 3 4) ∧
  decode ⟨.chipCmd, [0x0C]⟩ = .ok .cmdTransceive ∧
  decode ⟨.chipReg, [0x77]⟩ = .ok (.bitframingValue false 7 7) ∧
  decode ⟨.cardShort, [0x26]⟩ = .ok .piccReqa ∧
  decode ⟨.card2, [0x93, 0x20]⟩ = .ok .piccAnticollCl1 ∧
  decode ⟨.status, [6]⟩ = .ok .statusCrcWrong

/-- 30_encoding.md R81, R89, R102 and their examples: the address bytes, the bit-framing value and the first-byte mask
with the defaults. -/
def Obligations.BusBytes : Prop :=
  (∀ a : Addr, abyteRd .default a = 0x80 ||| abyteWr .default a ∧ abyteWr .default a = a.setWidth 8 <<< 1 ∧
    byteIsRead (abyteRd .default a) = true ∧ byteIsRead (abyteWr .default a) = false ∧
    byteAddr (abyteRd .default a) = a ∧ byteAddr (abyteWr .default a) = a) ∧
  (∀ x y : Bits3, bf .default x y = (x.setWidth 8 <<< 4) ||| y.setWidth 8) ∧
  (∀ (k : Bits3) (j : Nat), j < 8 → (amask k).getLsbD j = decide (k.toNat ≤ j))

/-! ### The step -/

/-- A step runs the instruction that the bytes presented next decode to; so it does on a word of the opcode table placed
with `withFetchWord` (log 5). Its operands are in the domains the configuration gives them (log 32; with the defaults all
are: `DefaultDomains`). -/
def Obligations.StepRunsDecoded : Prop :=
  (∀ s p rest i, s.host = p :: rest → s.cfg.wf = true → s.fatal = false → s.busy = false → decode p = .ok i →
    operandsInDomain s.cfg i = true → step s = exec i (s.setHost rest)) ∧
  ∀ s nbits w i, s.cfg.wf = true → s.fatal = false → s.busy = false → decodeTableWord nbits w = some i →
    operandsInDomain s.cfg i = true → step (s.withFetchWord nbits w) = exec i s

/-- 10_state.md R24, R25 (log 19), 92 D40, 00_scope.md R12: with nothing presented nothing happens; a request presented
while FATAL or BUSY has no effect and is gone; an ill-formed configuration, bytes that encode no instruction and operands
outside the domains `ADDR_BITS` and `RXALIGN_MAX` give them (log 32) are refused. -/
def Obligations.StepOtherwise : Prop :=
  ∀ s, (s.host = [] → step s = .next s) ∧
    ∀ p rest, s.host = p :: rest →
      (s.cfg.wf = false → step s = .refused .illFormedConfiguration) ∧
      (s.cfg.wf = true → s.fatal = true ∨ s.busy = true → step s = .next (s.setHost rest)) ∧
      (s.cfg.wf = true → s.fatal = false → s.busy = false → ∀ e, decode p = .error e →
        step s = .refused (.undecodable e)) ∧
      (s.cfg.wf = true → s.fatal = false → s.busy = false → ∀ i, decode p = .ok i → operandsInDomain s.cfg i = false →
        step s = .refused .operandOutsideDomain)

/-- 00_scope.md R6, R12: a 6-bit address and a 3-bit alignment cannot leave the domains the defaults give them, nor any
wider; a narrower `ADDR_BITS` or `RXALIGN_MAX` shuts out, of every instruction that carries an address or an alignment,
exactly the addresses from `2 ^ ADDR_BITS` and the alignments above `RXALIGN_MAX`; an instruction that carries neither is
never shut out (log 32). -/
def Obligations.DefaultDomains : Prop :=
  (∀ c i, 6 ≤ c.addrBits → 7 ≤ c.rxAlignMax → operandsInDomain c i = true) ∧
  (∀ c a len v data, ∀ i ∈ [Instr.rdreg a, .wrreg a v, .wrblk a len data, .setbm a v, .clrbm a v, .xferAbyteRd a,
      .xferAbyteWr a v, .xferRd1 a, .xferWr1 a v, .xferWrn a data],
    (operandsInDomain c i = true ↔ a.toNat < 2 ^ c.addrBits)) ∧
  (∀ c a len n align, ∀ i ∈ [Instr.rdblk a len align, .xferRdn a n align],
    (operandsInDomain c i = true ↔ a.toNat < 2 ^ c.addrBits ∧ align.toNat ≤ c.rxAlignMax)) ∧
  (∀ c o, operandsInDomain c (.comm o) = true ↔ o.align.toNat ≤ c.rxAlignMax) ∧
  (∀ c start align txLast, operandsInDomain c (.bitframingValue start align txLast) = true ↔
    align.toNat ≤ c.rxAlignMax) ∧
  ∀ c len data op flag u0 u1 u2 u3 bcc lo hi, ∀ i ∈ [Instr.hreset, .sreset, .init, .anton, .antoff, .calccrc len data,
      .select op, .reqa, .wupa, .isnew, .hlta, .initialise flag, .poll, .unassigned op, .xferReserved op, .cmdIdle,
      .cmdCalccrc, .cmdTransceive, .cmdSoftreset, .piccReqa, .piccWupa, .piccAnticollCl1,
      .piccSelectCl1 u0 u1 u2 u3 bcc lo hi, .piccHlta lo hi, .piccReplyAtqa lo hi, .piccReplyAnticoll u0 u1 u2 u3 bcc,
      .piccReplySak op data, .statusOk, .statusError, .statusCollision, .statusTimeout, .statusNoRoom, .statusInvalid,
      .statusCrcWrong],
    operandsInDomain c i = true

/-- The invariant holds at reset. -/
def Obligations.InvReset : Prop := MachineInv State.reset

/-- The invariant goes through every step, from every state (10_state.md R22, R25, R27, R28, R30, R46; 30_encoding.md
R86, R87; the fixture's canonical form). -/
def Obligations.InvKept : Prop :=
  ∀ s t, MachineInv s → step s = .next t → MachineInv t

/-- 20_memory.md R55, 00_scope.md R16: every instruction but the reserved address byte and a SELECT with VBITS not 0
completes, whatever the state and whatever the chip answers: it hands over one response, is idle again, and keeps the
configuration. -/
def Obligations.EveryInstructionCompletes : Prop :=
  ∀ i s, i.wf = true → (∀ b, i ≠ .xferReserved b) → (∀ v, v ≠ 0 → i ≠ .select v) →
    ∃ t, exec i s = .next t ∧ t.cfg = s.cfg ∧ Idle t ∧
      ∃ r rest, t.response = some r ∧ t.trace = .response r :: rest

/-- 10_state.md R22, R23, R24, R46: no instruction changes the configuration or what the host will present; only those
that are said to write `UID`, the reset line or the fatal flag change them; HRESET and INITIALIZE leave the line at 1. -/
def Obligations.PersistentFrame : Prop :=
  ∀ i s t, exec i s = .next t → t.cfg = s.cfg ∧ t.host = s.host ∧
    (writesUid i = false → t.uid = s.uid) ∧ (writesNrst i = false → t.nrst = s.nrst) ∧
    (writesFatal i = false → t.fatal = s.fatal) ∧ (writesNrst i = true → t.nrst = true) ∧
    (writesFatal i = true → t.fatal = true)

/-- 20_memory.md R65, R62: the events of the trace stay, in their order: a step only adds events before them; with
nothing presented it adds none. -/
def Obligations.TraceGrows : Prop :=
  ∀ s t, step s = .next t → (∃ new, t.trace = new ++ s.trace) ∧ (s.host = [] → t.trace = s.trace)

/-- 10_state.md R24: the fatal flag is sticky: while it is set a step changes nothing but the list of what the host
presents. -/
def Obligations.FatalIsSticky : Prop :=
  ∀ s t, step s = .next t → s.fatal = true → t = s.setHost t.host ∧ t.fatal = true

/-- 10_state.md R30: the scratch, the counter, the call stack and the last response are not read before they are
written: every instruction does the same whatever they hold. -/
def Obligations.ScratchUnread : Prop :=
  ∀ i s x n q r b, exec i (((((s.setScratch x).setPoll n).setSeq q).setResponse r).setBusy b) = exec i s

/-- 70_reset_and_hazards.md R291, 43_communicate.md R176: no instruction sends more frames than the bound of its row. -/
def Obligations.FrameBounds : Prop :=
  ∀ i s t, i.wf = true → s.cfg.wf = true → exec i s = .next t →
    frameCount t.trace ≤ frameCount s.trace + frameBound s.cfg i
end

