-- ==== Sys2Proof/Laws/State.lean ====
section
/-! SUPPORT. One lemma per field per update of State. -/

namespace Sys2Proof.Machine

variable (s : State)

section setUid
variable (x : Uid)
@[simp] theorem State.setUid_cfg : (s.setUid x).cfg = s.cfg := rfl
@[simp] theorem State.setUid_uid : (s.setUid x).uid = x := rfl
@[simp] theorem State.setUid_nrst : (s.setUid x).nrst = s.nrst := rfl
@[simp] theorem State.setUid_fatal : (s.setUid x).fatal = s.fatal := rfl
@[simp] theorem State.setUid_busy : (s.setUid x).busy = s.busy := rfl
@[simp] theorem State.setUid_response : (s.setUid x).response = s.response := rfl
@[simp] theorem State.setUid_seq : (s.setUid x).seq = s.seq := rfl
@[simp] theorem State.setUid_poll : (s.setUid x).poll = s.poll := rfl
@[simp] theorem State.setUid_scratch : (s.setUid x).scratch = s.scratch := rfl
@[simp] theorem State.setUid_chip : (s.setUid x).chip = s.chip := rfl
@[simp] theorem State.setUid_trace : (s.setUid x).trace = s.trace := rfl
@[simp] theorem State.setUid_host : (s.setUid x).host = s.host := rfl
end setUid

section setNrst
variable (x : Bool)
@[simp] theorem State.setNrst_cfg : (s.setNrst x).cfg = s.cfg := rfl
@[simp] theorem State.setNrst_uid : (s.setNrst x).uid = s.uid := rfl
@[simp] theorem State.setNrst_nrst : (s.setNrst x).nrst = x := rfl
@[simp] theorem State.setNrst_fatal : (s.setNrst x).fatal = s.fatal := rfl
@[simp] theorem State.setNrst_busy : (s.setNrst x).busy = s.busy := rfl
@[simp] theorem State.setNrst_response : (s.setNrst x).response = s.response := rfl
@[simp] theorem State.setNrst_seq : (s.setNrst x).seq = s.seq := rfl
@[simp] theorem State.setNrst_poll : (s.setNrst x).poll = s.poll := rfl
@[simp] theorem State.setNrst_scratch : (s.setNrst x).scratch = s.scratch := rfl
@[simp] theorem State.setNrst_chip : (s.setNrst x).chip = s.chip := rfl
@[simp] theorem State.setNrst_trace : (s.setNrst x).trace = s.trace := rfl
@[simp] theorem State.setNrst_host : (s.setNrst x).host = s.host := rfl
end setNrst

section setFatal
variable (x : Bool)
@[simp] theorem State.setFatal_cfg : (s.setFatal x).cfg = s.cfg := rfl
@[simp] theorem State.setFatal_uid : (s.setFatal x).uid = s.uid := rfl
@[simp] theorem State.setFatal_nrst : (s.setFatal x).nrst = s.nrst := rfl
@[simp] theorem State.setFatal_fatal : (s.setFatal x).fatal = x := rfl
@[simp] theorem State.setFatal_busy : (s.setFatal x).busy = s.busy := rfl
@[simp] theorem State.setFatal_response : (s.setFatal x).response = s.response := rfl
@[simp] theorem State.setFatal_seq : (s.setFatal x).seq = s.seq := rfl
@[simp] theorem State.setFatal_poll : (s.setFatal x).poll = s.poll := rfl
@[simp] theorem State.setFatal_scratch : (s.setFatal x).scratch = s.scratch := rfl
@[simp] theorem State.setFatal_chip : (s.setFatal x).chip = s.chip := rfl
@[simp] theorem State.setFatal_trace : (s.setFatal x).trace = s.trace := rfl
@[simp] theorem State.setFatal_host : (s.setFatal x).host = s.host := rfl
end setFatal

section setBusy
variable (x : Bool)
@[simp] theorem State.setBusy_cfg : (s.setBusy x).cfg = s.cfg := rfl
@[simp] theorem State.setBusy_uid : (s.setBusy x).uid = s.uid := rfl
@[simp] theorem State.setBusy_nrst : (s.setBusy x).nrst = s.nrst := rfl
@[simp] theorem State.setBusy_fatal : (s.setBusy x).fatal = s.fatal := rfl
@[simp] theorem State.setBusy_busy : (s.setBusy x).busy = x := rfl
@[simp] theorem State.setBusy_response : (s.setBusy x).response = s.response := rfl
@[simp] theorem State.setBusy_seq : (s.setBusy x).seq = s.seq := rfl
@[simp] theorem State.setBusy_poll : (s.setBusy x).poll = s.poll := rfl
@[simp] theorem State.setBusy_scratch : (s.setBusy x).scratch = s.scratch := rfl
@[simp] theorem State.setBusy_chip : (s.setBusy x).chip = s.chip := rfl
@[simp] theorem State.setBusy_trace : (s.setBusy x).trace = s.trace := rfl
@[simp] theorem State.setBusy_host : (s.setBusy x).host = s.host := rfl
end setBusy

section setResponse
variable (x : Option Response)
@[simp] theorem State.setResponse_cfg : (s.setResponse x).cfg = s.cfg := rfl
@[simp] theorem State.setResponse_uid : (s.setResponse x).uid = s.uid := rfl
@[simp] theorem State.setResponse_nrst : (s.setResponse x).nrst = s.nrst := rfl
@[simp] theorem State.setResponse_fatal : (s.setResponse x).fatal = s.fatal := rfl
@[simp] theorem State.setResponse_busy : (s.setResponse x).busy = s.busy := rfl
@[simp] theorem State.setResponse_response : (s.setResponse x).response = x := rfl
@[simp] theorem State.setResponse_seq : (s.setResponse x).seq = s.seq := rfl
@[simp] theorem State.setResponse_poll : (s.setResponse x).poll = s.poll := rfl
@[simp] theorem State.setResponse_scratch : (s.setResponse x).scratch = s.scratch := rfl
@[simp] theorem State.setResponse_chip : (s.setResponse x).chip = s.chip := rfl
@[simp] theorem State.setResponse_trace : (s.setResponse x).trace = s.trace := rfl
@[simp] theorem State.setResponse_host : (s.setResponse x).host = s.host := rfl
end setResponse

section setSeq
variable (x : List SeqEntry)
@[simp] theorem State.setSeq_cfg : (s.setSeq x).cfg = s.cfg := rfl
@[simp] theorem State.setSeq_uid : (s.setSeq x).uid = s.uid := rfl
@[simp] theorem State.setSeq_nrst : (s.setSeq x).nrst = s.nrst := rfl
@[simp] theorem State.setSeq_fatal : (s.setSeq x).fatal = s.fatal := rfl
@[simp] theorem State.setSeq_busy : (s.setSeq x).busy = s.busy := rfl
@[simp] theorem State.setSeq_response : (s.setSeq x).response = s.response := rfl
@[simp] theorem State.setSeq_seq : (s.setSeq x).seq = x := rfl
@[simp] theorem State.setSeq_poll : (s.setSeq x).poll = s.poll := rfl
@[simp] theorem State.setSeq_scratch : (s.setSeq x).scratch = s.scratch := rfl
@[simp] theorem State.setSeq_chip : (s.setSeq x).chip = s.chip := rfl
@[simp] theorem State.setSeq_trace : (s.setSeq x).trace = s.trace := rfl
@[simp] theorem State.setSeq_host : (s.setSeq x).host = s.host := rfl
@[simp] theorem State.setSeq_setSeq (y : List SeqEntry) : (s.setSeq x).setSeq y = s.setSeq y := rfl
@[simp] theorem State.setSeq_self : s.setSeq s.seq = s := rfl
@[simp] theorem State.setSeq_setScratch (y : Scratch) : (s.setSeq x).setScratch y = (s.setScratch y).setSeq x := rfl
end setSeq

section setPoll
variable (x : Nat)
@[simp] theorem State.setPoll_cfg : (s.setPoll x).cfg = s.cfg := rfl
@[simp] theorem State.setPoll_uid : (s.setPoll x).uid = s.uid := rfl
@[simp] theorem State.setPoll_nrst : (s.setPoll x).nrst = s.nrst := rfl
@[simp] theorem State.setPoll_fatal : (s.setPoll x).fatal = s.fatal := rfl
@[simp] theorem State.setPoll_busy : (s.setPoll x).busy = s.busy := rfl
@[simp] theorem State.setPoll_response : (s.setPoll x).response = s.response := rfl
@[simp] theorem State.setPoll_seq : (s.setPoll x).seq = s.seq := rfl
@[simp] theorem State.setPoll_poll : (s.setPoll x).poll = x := rfl
@[simp] theorem State.setPoll_scratch : (s.setPoll x).scratch = s.scratch := rfl
@[simp] theorem State.setPoll_chip : (s.setPoll x).chip = s.chip := rfl
@[simp] theorem State.setPoll_trace : (s.setPoll x).trace = s.trace := rfl
@[simp] theorem State.setPoll_host : (s.setPoll x).host = s.host := rfl
end setPoll

section setScratch
variable (x : Scratch)
@[simp] theorem State.setScratch_cfg : (s.setScratch x).cfg = s.cfg := rfl
@[simp] theorem State.setScratch_uid : (s.setScratch x).uid = s.uid := rfl
@[simp] theorem State.setScratch_nrst : (s.setScratch x).nrst = s.nrst := rfl
@[simp] theorem State.setScratch_fatal : (s.setScratch x).fatal = s.fatal := rfl
@[simp] theorem State.setScratch_busy : (s.setScratch x).busy = s.busy := rfl
@[simp] theorem State.setScratch_response : (s.setScratch x).response = s.response := rfl
@[simp] theorem State.setScratch_seq : (s.setScratch x).seq = s.seq := rfl
@[simp] theorem State.setScratch_poll : (s.setScratch x).poll = s.poll := rfl
@[simp] theorem State.setScratch_scratch : (s.setScratch x).scratch = x := rfl
@[simp] theorem State.setScratch_chip : (s.setScratch x).chip = s.chip := rfl
@[simp] theorem State.setScratch_trace : (s.setScratch x).trace = s.trace := rfl
@[simp] theorem State.setScratch_host : (s.setScratch x).host = s.host := rfl
end setScratch

section setChip
variable (x : Chip)
@[simp] theorem State.setChip_cfg : (s.setChip x).cfg = s.cfg := rfl
@[simp] theorem State.setChip_uid : (s.setChip x).uid = s.uid := rfl
@[simp] theorem State.setChip_nrst : (s.setChip x).nrst = s.nrst := rfl
@[simp] theorem State.setChip_fatal : (s.setChip x).fatal = s.fatal := rfl
@[simp] theorem State.setChip_busy : (s.setChip x).busy = s.busy := rfl
@[simp] theorem State.setChip_response : (s.setChip x).response = s.response := rfl
@[simp] theorem State.setChip_seq : (s.setChip x).seq = s.seq := rfl
@[simp] theorem State.setChip_poll : (s.setChip x).poll = s.poll := rfl
@[simp] theorem State.setChip_scratch : (s.setChip x).scratch = s.scratch := rfl
@[simp] theorem State.setChip_chip : (s.setChip x).chip = x := rfl
@[simp] theorem State.setChip_trace : (s.setChip x).trace = s.trace := rfl
@[simp] theorem State.setChip_host : (s.setChip x).host = s.host := rfl
end setChip

section setTrace
variable (x : List Event)
@[simp] theorem State.setTrace_cfg : (s.setTrace x).cfg = s.cfg := rfl
@[simp] theorem State.setTrace_uid : (s.setTrace x).uid = s.uid := rfl
@[simp] theorem State.setTrace_nrst : (s.setTrace x).nrst = s.nrst := rfl
@[simp] theorem State.setTrace_fatal : (s.setTrace x).fatal = s.fatal := rfl
@[simp] theorem State.setTrace_busy : (s.setTrace x).busy = s.busy := rfl
@[simp] theorem State.setTrace_response : (s.setTrace x).response = s.response := rfl
@[simp] theorem State.setTrace_seq : (s.setTrace x).seq = s.seq := rfl
@[simp] theorem State.setTrace_poll : (s.setTrace x).poll = s.poll := rfl
@[simp] theorem State.setTrace_scratch : (s.setTrace x).scratch = s.scratch := rfl
@[simp] theorem State.setTrace_chip : (s.setTrace x).chip = s.chip := rfl
@[simp] theorem State.setTrace_trace : (s.setTrace x).trace = x := rfl
@[simp] theorem State.setTrace_host : (s.setTrace x).host = s.host := rfl
end setTrace

section setHost
variable (x : List Packet)
@[simp] theorem State.setHost_cfg : (s.setHost x).cfg = s.cfg := rfl
@[simp] theorem State.setHost_uid : (s.setHost x).uid = s.uid := rfl
@[simp] theorem State.setHost_nrst : (s.setHost x).nrst = s.nrst := rfl
@[simp] theorem State.setHost_fatal : (s.setHost x).fatal = s.fatal := rfl
@[simp] theorem State.setHost_busy : (s.setHost x).busy = s.busy := rfl
@[simp] theorem State.setHost_response : (s.setHost x).response = s.response := rfl
@[simp] theorem State.setHost_seq : (s.setHost x).seq = s.seq := rfl
@[simp] theorem State.setHost_poll : (s.setHost x).poll = s.poll := rfl
@[simp] theorem State.setHost_scratch : (s.setHost x).scratch = s.scratch := rfl
@[simp] theorem State.setHost_chip : (s.setHost x).chip = s.chip := rfl
@[simp] theorem State.setHost_trace : (s.setHost x).trace = s.trace := rfl
@[simp] theorem State.setHost_host : (s.setHost x).host = x := rfl
end setHost

section emit
variable (e : Event)
@[simp] theorem State.emit_cfg : (s.emit e).cfg = s.cfg := rfl
@[simp] theorem State.emit_uid : (s.emit e).uid = s.uid := rfl
@[simp] theorem State.emit_nrst : (s.emit e).nrst = s.nrst := rfl
@[simp] theorem State.emit_fatal : (s.emit e).fatal = s.fatal := rfl
@[simp] theorem State.emit_busy : (s.emit e).busy = s.busy := rfl
@[simp] theorem State.emit_response : (s.emit e).response = s.response := rfl
@[simp] theorem State.emit_seq : (s.emit e).seq = s.seq := rfl
@[simp] theorem State.emit_poll : (s.emit e).poll = s.poll := rfl
@[simp] theorem State.emit_scratch : (s.emit e).scratch = s.scratch := rfl
@[simp] theorem State.emit_chip : (s.emit e).chip = s.chip := rfl
@[simp] theorem State.emit_trace : (s.emit e).trace = e :: s.trace := rfl
@[simp] theorem State.emit_host : (s.emit e).host = s.host := rfl
end emit

/-- Two states with the same fields are the same state. -/
theorem State.ext_fields {s t : State} (h1 : s.cfg = t.cfg) (h2 : s.uid = t.uid) (h3 : s.nrst = t.nrst)
    (h4 : s.fatal = t.fatal) (h5 : s.busy = t.busy) (h6 : s.response = t.response) (h7 : s.seq = t.seq)
    (h8 : s.poll = t.poll) (h9 : s.scratch = t.scratch) (h10 : s.chip = t.chip) (h11 : s.trace = t.trace)
    (h12 : s.host = t.host) : s = t := by
  cases s; cases t; simp_all

end Sys2Proof.Machine
end

