-- ==== Sys2Proof/Laws/Run.lean ====
section
/-! SUPPORT. What each piece of control notation does to a state: one equation each, cited by every later proof. -/

namespace Sys2Proof.Machine

variable {α β : Type}

/-- Running one sequence after another. -/
def andThen (r : Except Raised α × State) (f : α → Op β) : Except Raised β × State :=
  match r.1 with
  | .ok a => runOp (f a) r.2
  | .error e => (.error e, r.2)

@[simp] theorem andThen_ok (a : α) (s : State) (f : α → Op β) : andThen (.ok a, s) f = runOp (f a) s := rfl
@[simp] theorem andThen_error (e : Raised) (s : State) (f : α → Op β) :
    andThen ((.error e, s) : Except Raised α × State) f = (.error e, s) := rfl

@[simp] theorem runOp_opOf (f : State → Except Raised α × State) (s : State) : runOp (opOf f) s = f s := rfl

@[simp] theorem runOp_pure (a : α) (s : State) : runOp (pure a : Op α) s = (.ok a, s) := rfl

@[simp] theorem runOp_bind (m : Op α) (f : α → Op β) (s : State) :
    runOp (m >>= f) s = andThen (runOp m s) f := by
  rcases h : runOp m s with ⟨r, t⟩
  have h' : (m : State → Except Raised α × State) s = (r, t) := h
  cases r <;>
    simp [runOp, andThen, ExceptT.run, StateT.run, bind, ExceptT.bind, ExceptT.mk, StateT.bind, ExceptT.bindCont, h'] ; rfl

@[simp] theorem runOp_ite (c : Prop) [Decidable c] (m m' : Op α) (s : State) :
    runOp (if c then m else m') s = if c then runOp m s else runOp m' s := by split <;> rfl

@[simp] theorem runOp_raise (st : Status) (s : State) : runOp (raise st : Op α) s = (.error ⟨st, none⟩, s) := rfl
@[simp] theorem runOp_raiseKeeping (st : Status) (b : Option (List Byte)) (s : State) :
    runOp (raiseKeeping st b : Op α) s = (.error ⟨st, b⟩, s) := rfl
@[simp] theorem runOp_askCfg (s : State) : runOp askCfg s = (.ok s.cfg, s) := rfl
@[simp] theorem runOp_peek (f : State → α) (s : State) : runOp (peek f) s = (.ok (f s), s) := rfl
@[simp] theorem runOp_update (f : State → State) (s : State) : runOp (update f) s = (.ok (), f s) := rfl

theorem runOp_enter (op : OpName) (m : Op α) (s : State) :
    runOp (enter op m) s =
      ((runOp m (s.setSeq (⟨op, 1⟩ :: s.seq))).1, (runOp m (s.setSeq (⟨op, 1⟩ :: s.seq))).2.setSeq s.seq) := rfl

@[simp] theorem runOp_reach (k : Nat) (s : State) : runOp (reach k) s = (.ok (), s.setSeq (seqAt k s.seq)) := rfl

theorem runOp_line (k : Nat) (m : Op α) (s : State) : runOp (line k m) s = runOp m (s.setSeq (seqAt k s.seq)) := by
  simp only [line, runOp_bind, runOp_reach, andThen_ok]

/-- The call stack after the innermost running operation has passed statements. -/
def passed (ks : List Nat) (q : List SeqEntry) : List SeqEntry := ks.foldl (fun q k => seqAt k q) q

@[simp] theorem runOp_pass (ks : List Nat) (s : State) : runOp (pass ks) s = (.ok (), s.setSeq (passed ks s.seq)) := by
  induction ks generalizing s with
  | nil => rfl
  | cons k rest ih => simp only [pass, runOp_bind, runOp_reach, andThen_ok, ih]; rfl

theorem runOp_attempt (m : Op α) (s : State) : runOp (attempt m) s = (.ok (runOp m s).1, (runOp m s).2) := rfl

/-- What `passOnKeeping` makes of a result. -/
def handedOn (kept : Option (List Byte)) : Except Raised α → Except Raised α
  | .ok a => .ok a
  | .error e => .error ⟨e.status, kept⟩

@[simp] theorem handedOn_ok (kept : Option (List Byte)) (a : α) : handedOn kept (.ok a : Except Raised α) = .ok a := rfl
@[simp] theorem handedOn_error (kept : Option (List Byte)) (e : Raised) :
    handedOn kept (.error e : Except Raised α) = .error ⟨e.status, kept⟩ := rfl

/-- What `passOn` makes of a result. -/
abbrev stripped (r : Except Raised α) : Except Raised α := handedOn none r

theorem runOp_passOnKeeping (kept : Option (List Byte)) (check : Status → List Nat) (m : Op α) (s : State) :
    runOp (passOnKeeping kept check m) s = (handedOn kept (runOp m s).1,
      (runOp m s).2.setSeq (passed (check (statusOf (runOp m s).1)) (runOp m s).2.seq)) := by
  rcases h : runOp m s with ⟨r, t⟩
  simp only [passOnKeeping, runOp_bind, runOp_attempt, h, andThen_ok, runOp_pass]
  cases r <;> rfl

theorem runOp_passOn (check : Status → List Nat) (m : Op α) (s : State) : runOp (passOn check m) s = (stripped (runOp m s).1,
    (runOp m s).2.setSeq (passed (check (statusOf (runOp m s).1)) (runOp m s).2.seq)) :=
  runOp_passOnKeeping none check m s

@[simp] theorem runOp_xfer (tx : List Byte) (s : State) : runOp (xfer tx) s = (.ok (s.rx tx), s.exchanged tx) := rfl
@[simp] theorem runOp_driveNrst (b : Bool) (s : State) :
    runOp (driveNrst b) s = (.ok (), (s.setNrst b).emit (.nrst b)) := rfl
@[simp] theorem runOp_waitUnits (t : Nat) (s : State) : runOp (waitUnits t) s = (.ok (), s.emit (.wait t)) := rfl
@[simp] theorem runOp_loadPoll (n : Nat) (s : State) : runOp (loadPoll n) s = (.ok (), s.setPoll n) := rfl
@[simp] theorem runOp_latch (f : Scratch → Scratch) (s : State) :
    runOp (latch f) s = (.ok (), s.setScratch (f s.scratch)) := rfl

theorem operation_eq (m : Op Results) (s : State) :
    operation m s = respond (runOp m (s.setBusy true)).1 (runOp m (s.setBusy true)).2 := rfl

/-! ### The exchange -/

section exchanged
variable (s : State) (tx : List Byte)

@[simp] theorem State.exchanged_cfg : (s.exchanged tx).cfg = s.cfg := rfl
@[simp] theorem State.exchanged_uid : (s.exchanged tx).uid = s.uid := rfl
@[simp] theorem State.exchanged_nrst : (s.exchanged tx).nrst = s.nrst := rfl
@[simp] theorem State.exchanged_fatal : (s.exchanged tx).fatal = s.fatal := rfl
@[simp] theorem State.exchanged_busy : (s.exchanged tx).busy = s.busy := rfl
@[simp] theorem State.exchanged_response : (s.exchanged tx).response = s.response := rfl
@[simp] theorem State.exchanged_seq : (s.exchanged tx).seq = s.seq := rfl
@[simp] theorem State.exchanged_poll : (s.exchanged tx).poll = s.poll := rfl
@[simp] theorem State.exchanged_scratch : (s.exchanged tx).scratch = s.scratch := rfl
@[simp] theorem State.exchanged_chip : (s.exchanged tx).chip = chipAfter s.chip tx := rfl
@[simp] theorem State.exchanged_trace : (s.exchanged tx).trace = .xfer tx (s.rx tx) :: s.trace := rfl
@[simp] theorem State.exchanged_host : (s.exchanged tx).host = s.host := rfl

/-- The exchange does not look at the call stack. -/
@[simp] theorem State.setSeq_rx (x : List SeqEntry) : (s.setSeq x).rx tx = s.rx tx := rfl
@[simp] theorem State.setSeq_exchanged (x : List SeqEntry) :
    (s.setSeq x).exchanged tx = (s.exchanged tx).setSeq x := rfl

/-- As many bytes come back as were sent (20_memory.md R53). -/
@[simp] theorem State.rx_length : (s.rx tx).length = tx.length := by simp [State.rx]

end exchanged

/-- The answer depends on the chip and the trace alone (20_memory.md R55). -/
theorem State.rx_congr {s t : State} (hc : s.chip = t.chip) (ht : s.trace = t.trace) (tx : List Byte) :
    s.rx tx = t.rx tx := by simp [State.rx, hc, ht]

/-! ### The end of an operation -/

section respond
variable (r : Except Raised Results) (s : State)

@[simp] theorem respond_cfg : (respond r s).cfg = s.cfg := rfl
@[simp] theorem respond_uid : (respond r s).uid = s.uid := rfl
@[simp] theorem respond_nrst : (respond r s).nrst = s.nrst := rfl
@[simp] theorem respond_fatal : (respond r s).fatal = s.fatal := rfl
@[simp] theorem respond_busy : (respond r s).busy = false := rfl
@[simp] theorem respond_response : (respond r s).response = some (responseOf s.cfg r) := rfl
@[simp] theorem respond_seq : (respond r s).seq = [] := rfl
@[simp] theorem respond_poll : (respond r s).poll = 0 := rfl
@[simp] theorem respond_scratch : (respond r s).scratch = .empty := rfl
@[simp] theorem respond_chip : (respond r s).chip = s.chip := rfl
@[simp] theorem respond_trace : (respond r s).trace = .response (responseOf s.cfg r) :: s.trace := rfl
@[simp] theorem respond_host : (respond r s).host = s.host := rfl

end respond

/-- What an operation's end keeps of the state it ends in: the configuration, `UID`, `NRST`, `FATAL`, the chip, the
trace and the host's list; nothing else of it is left. -/
theorem respond_congr {s t : State} (r : Except Raised Results) (h1 : s.cfg = t.cfg) (h2 : s.uid = t.uid)
    (h3 : s.nrst = t.nrst) (h4 : s.fatal = t.fatal) (h5 : s.chip = t.chip) (h6 : s.trace = t.trace)
    (h7 : s.host = t.host) : respond r s = respond r t := by
  apply State.ext_fields <;> simp [h1, h2, h3, h4, h5, h6, h7]

@[simp] theorem responseOf_ok (c : Config) (r : Results) : responseOf c (.ok r) = ⟨.ok, c.numbering.code .ok, r, none⟩ := rfl
@[simp] theorem responseOf_error (c : Config) (e : Raised) :
    responseOf c (.error e) = ⟨e.status, c.numbering.code e.status, {}, e.back⟩ := rfl

end Sys2Proof.Machine
end

