-- ==== Sys2Proof/Laws/Access.lean ====
section
/-! SUPPORT. The single accesses as equations: what each of them does, for every chip. -/

namespace Sys2Proof.Machine

variable (s : State) (a : Addr) (v m : Byte)

/-- The scratch byte `v` holds what a read-modify-write has read. -/
def vLatched (s : State) (v : Byte) : State := s.setScratch { s.scratch with v := v }

theorem rdReg_run : runOp (rdReg a) s = (.ok (readValue s a), readDone s a) := rfl

theorem wrReg_run : runOp (wrReg a v) s = (.ok (), writeDone s a v) := rfl

@[simp] theorem readValue_setSeq (x : List SeqEntry) : readValue (s.setSeq x) a = readValue s a := rfl
@[simp] theorem readDone_setSeq (x : List SeqEntry) : readDone (s.setSeq x) a = (readDone s a).setSeq x := rfl
@[simp] theorem writeDone_setSeq (x : List SeqEntry) : writeDone (s.setSeq x) a v = (writeDone s a v).setSeq x := rfl

theorem setBits_run : runOp (setBits a m) s = (.ok (), setDone (vLatched s (readValue s a)) a m) := by
  simp only [setBits, runOp_enter, runOp_bind, runOp_line, rdReg_run, andThen_ok, runOp_latch, wrReg_run, runOp_pure,
    readValue_setSeq, readDone_setSeq, State.setSeq_setSeq, State.setSeq_setScratch, writeDone_setSeq]
  rfl

theorem clrBits_run : runOp (clrBits a m) s = (.ok (), clrDone (vLatched s (readValue s a)) a m) := by
  simp only [clrBits, runOp_enter, runOp_bind, runOp_line, rdReg_run, andThen_ok, runOp_latch, wrReg_run, runOp_pure,
    readValue_setSeq, readDone_setSeq, State.setSeq_setSeq, State.setSeq_setScratch, writeDone_setSeq]
  rfl

theorem writeEach_run (bytes : List Byte) : runOp (writeEach a bytes) s = (.ok (), writesDone s a bytes) := by
  induction bytes generalizing s with
  | nil => rfl
  | cons b rest ih =>
    simp only [writeEach, runOp_bind, runOp_askCfg, andThen_ok, runOp_xfer, ih]
    rfl

theorem writesDone_setSeq (bytes : List Byte) (x : List SeqEntry) :
    writesDone (s.setSeq x) a bytes = (writesDone s a bytes).setSeq x := by
  induction bytes generalizing s with
  | nil => rfl
  | cons b rest ih => exact ih (writeDone s a b)

theorem writesDone_seq (bytes : List Byte) : (writesDone s a bytes).seq = s.seq := by
  induction bytes generalizing s with
  | nil => rfl
  | cons b rest ih => exact ih (writeDone s a b)

theorem wrBlk_run (len : Nat) (bytes : List Byte) : runOp (wrBlk a len bytes) s =
    if s.cfg.fifoCapacity < len then (.error ⟨.noRoom, none⟩, s) else (.ok (), writesDone s a (bytes.take len)) := by
  simp only [wrBlk, runOp_enter, runOp_bind, runOp_askCfg, andThen_ok, runOp_ite, runOp_line, runOp_raise,
    writeEach_run, runOp_pure, writesDone_setSeq, State.setSeq_cfg]
  by_cases h : s.cfg.fifoCapacity < len
  · simp only [h, if_true]; rfl
  · simp only [h, if_false, Prod.mk.injEq, true_and]
    apply State.ext_fields <;> simp [writesDone_seq]

theorem rdBlk_run (count : Nat) (align : Bits3) : runOp (rdBlk a count align) s =
    if s.cfg.fifoCapacity < count then (.error ⟨.noRoom, none⟩, s)
    else (.ok (burstValue s a count align), burstDone s a count) := by
  simp only [rdBlk, runOp_enter, runOp_bind, runOp_askCfg, andThen_ok, runOp_ite, runOp_line, runOp_raise, runOp_pure,
    runOp_xfer, runOp_reach, State.setSeq_cfg, State.setSeq_rx, State.setSeq_exchanged, State.setSeq_setSeq]
  by_cases h : s.cfg.fifoCapacity < count
  · simp only [h, if_true]; rfl
  · simp only [h, if_false, burstValue, burstDone]
    split <;> rfl

/-! ### The configuration goes through every state an operation passes -/

@[simp] theorem readDone_cfg : (readDone s a).cfg = s.cfg := rfl
@[simp] theorem writeDone_cfg : (writeDone s a v).cfg = s.cfg := rfl
@[simp] theorem setDone_cfg : (setDone s a m).cfg = s.cfg := rfl
@[simp] theorem clrDone_cfg : (clrDone s a m).cfg = s.cfg := rfl

@[simp] theorem writesDone_cfg (bytes : List Byte) : (writesDone s a bytes).cfg = s.cfg := by
  induction bytes generalizing s with
  | nil => rfl
  | cons b rest ih => exact ih (writeDone s a b)

@[simp] theorem burstDone_cfg (n : Nat) : (burstDone s a n).cfg = s.cfg := by
  unfold burstDone; split <;> rfl

@[simp] theorem pollGap_cfg : (pollGap s).cfg = s.cfg := by
  unfold pollGap; split <;> rfl

@[simp] theorem polled_cfg (k : Nat) : (polled s a k).cfg = s.cfg := by
  induction k with
  | zero => rfl
  | succ k ih => simp [polled, ih]

@[simp] theorem pollDone_cfg (k : Nat) : (pollDone s a k).cfg = s.cfg := by simp [pollDone]

@[simp] theorem crcLoaded_cfg (data : List Byte) : (crcLoaded s data).cfg = s.cfg := by simp [crcLoaded]

@[simp] theorem commIssued_cfg (o : CommOperands) : (commIssued s o).cfg = s.cfg := by simp [commIssued]

@[simp] theorem commLoaded_cfg (o : CommOperands) : (commLoaded s o).cfg = s.cfg := by
  unfold commLoaded; split <;> simp

end Sys2Proof.Machine
end

