-- ==== Sys2Proof/Laws/Blind.lean ====
section
/-! SUPPORT. What an operation does depends on nothing but the configuration, the persistent state, the chip and the
trace: the scratch, the counter, the call stack and the last response are never read before they are written
(10_state.md R30). -/

namespace Sys2Proof.Machine

variable {α β γ : Type} {G H K : Type}

/-- Two states alike in all that an operation can see before it writes. -/
structure Agree (s t : State) : Prop where
  cfg : s.cfg = t.cfg
  uid : s.uid = t.uid
  nrst : s.nrst = t.nrst
  fatal : s.fatal = t.fatal
  chip : s.chip = t.chip
  trace : s.trace = t.trace
  host : s.host = t.host

namespace Agree

theorem refl (s : State) : Agree s s := ⟨rfl, rfl, rfl, rfl, rfl, rfl, rfl⟩
theorem symm {s t : State} (h : Agree s t) : Agree t s :=
  ⟨h.1.symm, h.2.symm, h.3.symm, h.4.symm, h.5.symm, h.6.symm, h.7.symm⟩
theorem trans {s t u : State} (h : Agree s t) (k : Agree t u) : Agree s u :=
  ⟨h.1.trans k.1, h.2.trans k.2, h.3.trans k.3, h.4.trans k.4, h.5.trans k.5, h.6.trans k.6, h.7.trans k.7⟩

variable {s t : State} (h : Agree s t)
include h

theorem rx (tx : List Byte) : s.rx tx = t.rx tx := State.rx_congr h.chip h.trace tx

theorem exchanged (tx : List Byte) : Agree (s.exchanged tx) (t.exchanged tx) := by
  constructor <;> simp [h.cfg, h.uid, h.nrst, h.fatal, h.chip, h.trace, h.host, h.rx tx]

theorem emit (e : Event) : Agree (s.emit e) (t.emit e) := by
  constructor <;> simp [h.cfg, h.uid, h.nrst, h.fatal, h.chip, h.trace, h.host]

theorem setUid (u : Uid) : Agree (s.setUid u) (t.setUid u) := by
  constructor <;> simp [h.cfg, h.nrst, h.fatal, h.chip, h.trace, h.host]

theorem setNrst (b : Bool) : Agree (s.setNrst b) (t.setNrst b) := by
  constructor <;> simp [h.cfg, h.uid, h.fatal, h.chip, h.trace, h.host]

theorem setFatal (b : Bool) : Agree (s.setFatal b) (t.setFatal b) := by
  constructor <;> simp [h.cfg, h.uid, h.nrst, h.chip, h.trace, h.host]

theorem readValue (a : Addr) : readValue s a = Machine.readValue t a := by simp [Machine.readValue, h.cfg, h.rx]

theorem readDone (a : Addr) : Agree (readDone s a) (Machine.readDone t a) := by
  simp only [Machine.readDone, h.cfg]; exact h.exchanged _

theorem writeDone (a : Addr) (v : Byte) : Agree (writeDone s a v) (Machine.writeDone t a v) := by
  simp only [Machine.writeDone, h.cfg]; exact h.exchanged _

omit h in
theorem writesDone {s t : State} (h : Agree s t) (a : Addr) (bytes : List Byte) :
    Agree (writesDone s a bytes) (Machine.writesDone t a bytes) := by
  induction bytes generalizing s t with
  | nil => exact h
  | cons b rest ih => exact ih (h.writeDone a b)

theorem setDone (a : Addr) (m : Byte) : Agree (setDone s a m) (Machine.setDone t a m) := by
  simp only [Machine.setDone, h.readValue]; exact (h.readDone a).writeDone a _

theorem clrDone (a : Addr) (m : Byte) : Agree (clrDone s a m) (Machine.clrDone t a m) := by
  simp only [Machine.clrDone, h.readValue]; exact (h.readDone a).writeDone a _

theorem burstValue (a : Addr) (n : Nat) (align : Bits3) : burstValue s a n align = Machine.burstValue t a n align := by
  simp [Machine.burstValue, h.cfg, h.rx]

theorem burstDone (a : Addr) (n : Nat) : Agree (burstDone s a n) (Machine.burstDone t a n) := by
  simp only [Machine.burstDone, h.cfg]
  split
  · exact h
  · exact h.exchanged _

theorem pollGap : Agree (pollGap s) (Machine.pollGap t) := by
  simp only [Machine.pollGap, h.cfg]
  split
  · exact h
  · exact h.emit _

theorem polled (reg : Addr) (k : Nat) : Agree (polled s reg k) (Machine.polled t reg k) := by
  induction k with
  | zero => exact h
  | succ k ih => exact (ih.readDone reg).pollGap

theorem pollByte (reg : Addr) (k : Nat) : pollByte s reg k = Machine.pollByte t reg k := (h.polled reg k).readValue reg

theorem pollDone (reg : Addr) (k : Nat) : Agree (pollDone s reg k) (Machine.pollDone t reg k) :=
  (h.polled reg k).readDone reg

/-- A response leaves nothing of what two such states may differ in. -/
theorem respond (r : Except Raised Results) : respond r s = Machine.respond r t :=
  respond_congr r h.cfg h.uid h.nrst h.fatal h.chip h.trace h.host

end Agree

/-! ### The updates that no one sees -/

variable (s : State)

theorem agree_setSeq (x : List SeqEntry) : Agree (s.setSeq x) s := ⟨rfl, rfl, rfl, rfl, rfl, rfl, rfl⟩
theorem agree_setPoll (x : Nat) : Agree (s.setPoll x) s := ⟨rfl, rfl, rfl, rfl, rfl, rfl, rfl⟩
theorem agree_setScratch (x : Scratch) : Agree (s.setScratch x) s := ⟨rfl, rfl, rfl, rfl, rfl, rfl, rfl⟩
theorem agree_setBusy (x : Bool) : Agree (s.setBusy x) s := ⟨rfl, rfl, rfl, rfl, rfl, rfl, rfl⟩
theorem agree_setResponse (x : Option Response) : Agree (s.setResponse x) s := ⟨rfl, rfl, rfl, rfl, rfl, rfl, rfl⟩
theorem agree_unanswered_respond (r : Except Raised Results) : Agree (unanswered (respond r s)) s := by
  constructor <;> simp [unanswered]

/-! ### Operations -/

/-- Two states alike as above, and alike in what `g` sees of the scratch. -/
def Alike (g : Scratch → G) (s t : State) : Prop := Agree s t ∧ g s.scratch = g t.scratch

/-- Started in states alike in `g`, a sequence answers alike and ends in states that agree, and that are alike in `h` if
it ended normally. -/
def Blind (g : Scratch → G) (h : Scratch → H) (m : Op α) : Prop :=
  ∀ s t, Alike g s t → (runOp m s).1 = (runOp m t).1 ∧ Agree (runOp m s).2 (runOp m t).2 ∧
    ∀ a, (runOp m s).1 = .ok a → h (runOp m s).2.scratch = h (runOp m t).2.scratch

/-- A view of the scratch that does not see the items the accesses and COMM latch. -/
def Buffers (g : Scratch → G) : Prop := ∀ (x : Scratch) n v lo hi, g { x with n := n, v := v, lo := lo, hi := hi } = g x

namespace Blind

variable {g : Scratch → G} {h : Scratch → H} {k : Scratch → K}

theorem bind {m : Op α} {f : α → Op β} (hm : Blind g h m) (hf : ∀ a, Blind h k (f a)) : Blind g k (m >>= f) := by
  intro s t a
  obtain ⟨h1, h2, h3⟩ := hm s t a
  simp only [runOp_bind]
  rcases hs : runOp m s with ⟨r, s'⟩
  rcases ht : runOp m t with ⟨r', t'⟩
  simp only [hs, ht] at h1 h2 h3
  subst h1
  cases r with
  | ok a => exact hf a s' t' ⟨h2, h3 a rfl⟩
  | error e => exact ⟨rfl, h2, fun a e => by simp at e⟩

theorem pure (a : α) : Blind g g (Pure.pure a : Op α) := fun _ _ e => ⟨rfl, e.1, fun _ _ => e.2⟩

theorem raise (st : Status) : Blind g h (Machine.raise st : Op α) :=
  fun _ _ e => ⟨rfl, e.1, fun _ e => by simp at e⟩

theorem raiseKeeping (st : Status) (b : Option (List Byte)) : Blind g h (Machine.raiseKeeping st b : Op α) :=
  fun _ _ e => ⟨rfl, e.1, fun _ e => by simp at e⟩

theorem askCfg : Blind g g Machine.askCfg := fun s t e => ⟨by simp [e.1.cfg], e.1, fun _ _ => e.2⟩

/-- Forgetting what is known of the scratch. -/
theorem weaken {m : Op α} (hm : Blind g h m) (w : H → K) : Blind g (fun x => w (h x)) m := fun s t e => by
  obtain ⟨h1, h2, h3⟩ := hm s t e
  exact ⟨h1, h2, fun a ha => congrArg w (h3 a ha)⟩

theorem strengthen {m : Op α} (hm : Blind g h m) (w : K → G) (e : ∀ x, g x = w (k x)) : Blind k h m := fun s t a =>
  hm s t ⟨a.1, by rw [e, e, a.2]⟩

theorem none {m : Op α} (hm : Blind g h m) : Blind g (fun _ => ()) m := hm.weaken fun _ => ()

theorem ite {c : Prop} [Decidable c] {m m' : Op α} (h1 : Blind g h m) (h2 : Blind g h m') :
    Blind g h (if c then m else m') := by split <;> assumption

theorem attempt {m : Op α} (hm : Blind g h m) : Blind g (fun _ => ()) (Machine.attempt m) := fun s t e => by
  obtain ⟨h1, h2, -⟩ := hm s t e
  exact ⟨congrArg Except.ok h1, h2, fun _ _ => rfl⟩

theorem passOnKeeping {kept : Option (List Byte)} {check : Status → List Nat} {m : Op α} (hm : Blind g h m) :
    Blind g h (Machine.passOnKeeping kept check m) := fun s t e => by
  obtain ⟨h1, h2, h3⟩ := hm s t e
  simp only [runOp_passOnKeeping]
  refine ⟨by rw [h1], ((agree_setSeq _ _).trans h2).trans (agree_setSeq _ _).symm, fun a ha => ?_⟩
  cases hr : (runOp m s).1 with
  | ok b => exact h3 b hr
  | error e => simp [hr] at ha

theorem passOn {check : Status → List Nat} {m : Op α} (hm : Blind g h m) : Blind g h (Machine.passOn check m) :=
  passOnKeeping hm

theorem enter {op : OpName} {m : Op α} (hm : Blind g h m) : Blind g h (Machine.enter op m) := fun s t e => by
  simp only [runOp_enter]
  obtain ⟨h1, h2, h3⟩ := hm (s.setSeq (⟨op, 1⟩ :: s.seq)) (t.setSeq (⟨op, 1⟩ :: t.seq))
    ⟨((agree_setSeq _ _).trans e.1).trans (agree_setSeq _ _).symm, e.2⟩
  exact ⟨h1, ((agree_setSeq _ _).trans h2).trans (agree_setSeq _ _).symm, h3⟩

theorem reach (k : Nat) : Blind g g (Machine.reach k) := fun _ _ e =>
  ⟨rfl, ((agree_setSeq _ _).trans e.1).trans (agree_setSeq _ _).symm, fun _ _ => e.2⟩

theorem pass (ks : List Nat) : Blind g g (Machine.pass ks) := fun _ _ e => by
  simp only [runOp_pass]
  exact ⟨trivial, ((agree_setSeq _ _).trans e.1).trans (agree_setSeq _ _).symm, fun _ _ => e.2⟩

theorem line {k : Nat} {m : Op α} (hm : Blind g h m) : Blind g h (Machine.line k m) := bind (reach k) fun _ => hm

/-- A statement, and what follows it. -/
theorem step {n : Nat} {m : Op α} {f : α → Op β} (hm : Blind g h m) (hf : ∀ a, Blind h k (f a)) :
    Blind g k (Machine.line n m >>= f) := bind (line hm) hf

/-- The statement that returns a value. -/
theorem done {n : Nat} (a : α) : Blind g g (Machine.line n (Pure.pure a : Op α)) := line (pure a)

theorem loadPoll (n : Nat) : Blind g g (Machine.loadPoll n) := fun _ _ e =>
  ⟨rfl, ((agree_setPoll _ _).trans e.1).trans (agree_setPoll _ _).symm, fun _ _ => e.2⟩

theorem waitUnits (n : Nat) : Blind g g (Machine.waitUnits n) := fun _ _ e => ⟨rfl, e.1.emit _, fun _ _ => e.2⟩

theorem driveNrst (b : Bool) : Blind g g (Machine.driveNrst b) := fun _ _ e =>
  ⟨rfl, (e.1.setNrst b).emit _, fun _ _ => e.2⟩

theorem pollGap_scratch (s : State) : (pollGap s).scratch = s.scratch := by
  simp only [pollGap]; split <;> rfl

theorem waitPollDelay : Blind g g Machine.waitPollDelay := fun s t e =>
  ⟨rfl, e.1.pollGap, fun _ _ => by
    have := e.2
    rwa [← pollGap_scratch s, ← pollGap_scratch t] at this⟩

/-- A latch whose result `h` is determined by what `g` sees. -/
theorem latch (f : Scratch → Scratch) (w : G → H) (e : ∀ x, h (f x) = w (g x)) : Blind g h (Machine.latch f) :=
  fun s t a => ⟨rfl, ((agree_setScratch _ _).trans a.1).trans (agree_setScratch _ _).symm, fun _ _ => by
    simp [e, a.2]⟩

theorem peekScratch (f : Scratch → α) (w : G → α) (e : ∀ x, f x = w (g x)) :
    Blind g g (Machine.peek fun s => f s.scratch) := fun _ _ a => ⟨by simp [e, a.2], a.1, fun _ _ => a.2⟩

theorem peekUid (f : Uid → α) : Blind g g (Machine.peek fun s => f s.uid) := fun _ _ a =>
  ⟨by simp [a.1.uid], a.1, fun _ _ => a.2⟩

theorem updateUid (f : Uid → Uid) : Blind g g (Machine.update fun s => s.setUid (f s.uid)) := fun s t a =>
  ⟨rfl, by simp only [runOp_update, a.1.uid]; exact a.1.setUid _, fun _ _ => a.2⟩

theorem setFatal (b : Bool) : Blind g g (Machine.update fun s => s.setFatal b) := fun _ _ a =>
  ⟨rfl, a.1.setFatal b, fun _ _ => a.2⟩

theorem emit (e : Event) : Blind g g (Machine.update fun s => s.emit e) := fun _ _ a => ⟨rfl, a.1.emit e, fun _ _ => a.2⟩

/-! ### Accesses -/

theorem rdReg (a : Addr) : Blind g g (Machine.rdReg a) := fun s t e => by
  simp only [rdReg_run, e.1.readValue]
  exact ⟨trivial, e.1.readDone a, fun _ _ => e.2⟩

theorem wrReg (a : Addr) (v : Byte) : Blind g g (Machine.wrReg a v) := fun s t e => by
  simp only [wrReg_run]
  exact ⟨trivial, e.1.writeDone a v, fun _ _ => e.2⟩

theorem writesDone_scratch (s : State) (a : Addr) (bytes : List Byte) :
    (Machine.writesDone s a bytes).scratch = s.scratch := by
  induction bytes generalizing s with
  | nil => rfl
  | cons b rest ih => exact ih (writeDone s a b)

theorem wrBlk (a : Addr) (len : Nat) (bytes : List Byte) : Blind g g (Machine.wrBlk a len bytes) :=
  fun s t e => by
    simp only [wrBlk_run, e.1.cfg]
    split
    · exact ⟨rfl, e.1, fun _ _ => e.2⟩
    · exact ⟨rfl, e.1.writesDone a _, fun _ _ => by simp only [writesDone_scratch, e.2]⟩

theorem rdBlk (a : Addr) (n : Nat) (align : Bits3) : Blind g g (Machine.rdBlk a n align) := fun s t e => by
  simp only [rdBlk_run, e.1.cfg, e.1.burstValue]
  split
  · exact ⟨rfl, e.1, fun _ _ => e.2⟩
  · refine ⟨rfl, e.1.burstDone a n, fun _ _ => ?_⟩
    simp only [burstDone]
    split <;> exact e.2

theorem latchV (b : Buffers g) (v : Byte) : Blind g g (Machine.latch fun x => { x with v := v }) :=
  latch _ id fun x => b x x.n v x.lo x.hi

theorem latchN (b : Buffers g) (n : Byte) : Blind g g (Machine.latch fun x => { x with n := n }) :=
  latch _ id fun x => b x n x.v x.lo x.hi

theorem latchLo (b : Buffers g) (lo : Byte) : Blind g g (Machine.latch fun x => { x with lo := lo }) :=
  latch _ id fun x => b x x.n x.v lo x.hi

theorem latchHi (b : Buffers g) (hi : Byte) : Blind g g (Machine.latch fun x => { x with hi := hi }) :=
  latch _ id fun x => b x x.n x.v x.lo hi

theorem setBits (b : Buffers g) (a : Addr) (m : Byte) : Blind g g (Machine.setBits a m) :=
  enter <| step (rdReg a) fun _ => bind (latchV b _) fun _ => step (wrReg a _) fun _ => done ()

theorem clrBits (b : Buffers g) (a : Addr) (m : Byte) : Blind g g (Machine.clrBits a m) :=
  enter <| step (rdReg a) fun _ => bind (latchV b _) fun _ => step (wrReg a _) fun _ => done ()

theorem pollLoop (l : PollLines) (reg : Addr) (test : Byte → Verdict) (n : Nat) :
    Blind g g (Machine.pollLoop l reg test n) := by
  induction n with
  | zero => exact line (line (raise _))
  | succ n ih =>
    refine line <| step (rdReg reg) fun b => bind (pass _) fun _ => ?_
    cases test b with
    | done => exact pure ()
    | failed st => exact raise st
    | again => exact step (loadPoll n) fun _ => step waitPollDelay fun _ => ih

theorem pollReg (l : PollLines) (reg : Addr) (test : Byte → Verdict) (n : Nat) :
    Blind g g (Machine.pollReg l reg test n) := step (loadPoll n) fun _ => pollLoop l reg test n

/-! ### The operations -/

theorem hardReset : Blind g g Machine.hardReset :=
  enter <| bind askCfg fun _ => step (driveNrst _) fun _ => step (waitUnits _) fun _ => step (driveNrst _) fun _ =>
    step (waitUnits _) fun _ => done ()

theorem softReset : Blind g g Machine.softReset :=
  enter <| bind askCfg fun _ => step (wrReg _ _) fun _ => pollReg _ _ _ _

theorem antennaOn (b : Buffers g) : Blind g g Machine.antennaOn :=
  enter <| bind askCfg fun _ => step (rdReg _) fun _ => bind (latchV b _) fun _ => line <|
    bind (ite (pure ()) (line (wrReg _ _))) fun _ => done ()

theorem antennaOff (b : Buffers g) : Blind g g Machine.antennaOff :=
  enter <| bind askCfg fun _ => step (clrBits b _ _) fun _ => done ()

theorem initChip (b : Buffers g) : Blind g g Machine.initChip :=
  enter <| bind askCfg fun _ => step (wrReg _ _) fun _ => step (wrReg _ _) fun _ => step (wrReg _ _) fun _ =>
    step (wrReg _ _) fun _ => step (wrReg _ _) fun _ => step (wrReg _ _) fun _ => step (antennaOn b) fun _ => done ()

theorem calcCrc (b : Buffers g) (data : List Byte) (len : Nat) : Blind g g (Machine.calcCrc data len) :=
  enter <| bind askCfg fun _ => ite (line (raise _)) <|
    step (wrReg _ _) fun _ => step (clrBits b _ _) fun _ => step (setBits b _ _) fun _ =>
    step (wrBlk _ _ _) fun _ => step (wrReg _ _) fun _ => bind (pollReg _ _ _ _) fun _ =>
    step (rdReg _) fun _ => bind (latchLo b _) fun _ => step (rdReg _) fun _ => bind (latchHi b _) fun _ => done _

theorem commPrepare (b : Buffers g) (p : CommCall) : Blind g g (Machine.commPrepare p) :=
  bind askCfg fun _ => step (wrReg _ _) fun _ => step (setBits b _ _) fun _ => step (wrBlk _ _ _) fun _ =>
    step (clrBits b _ _) fun _ => step (setBits b _ _) fun _ => step (wrReg _ _) fun _ => line <|
    ite (setBits b _ _) (pure ())

theorem commReply (b : Buffers g) (p : CommCall) : Blind g g (Machine.commReply p) :=
  bind askCfg fun _ => line <| line <| ite
    (step (rdReg _) fun _ => bind (latchN b _) fun _ => line <| ite (raise _) (step (rdBlk _ _ _) fun _ => done _))
    (pure _)

theorem commCheckCrc (b : Buffers g) (back : List Byte) : Blind g g (Machine.commCheckCrc back) :=
  line <| ite (raiseKeeping _ _) <|
    step (passOnKeeping (calcCrc b _ _)) fun _ => line <| ite (pure ()) (raiseKeeping _ _)

theorem commCheck (b : Buffers g) (p : CommCall) (back : Option (List Byte)) : Blind g g (Machine.commCheck p back) := by
  refine line ?_
  cases back with
  | none => exact pure ()
  | some x => exact ite (commCheckCrc b x) (pure ())

theorem commFinish (b : Buffers g) (be : ∀ (x : Scratch) e, g { x with e := e } = g x) (p : CommCall) :
    Blind g g (Machine.commFinish p) := by
  have b' : Buffers (fun x : Scratch => (g x, x.e)) := fun x n v lo hi => by simp only [b x n v lo hi]
  refine bind askCfg fun _ => step (rdReg _) fun e =>
    bind (h := fun x : Scratch => (g x, x.e)) (latch _ (fun y => (y, e)) fun x => by simp only [be]) fun _ => line <|
    ite (raise _) ?_
  refine bind (commReply b' p) fun back => line <|
    bind (peekScratch (fun x => x.e) Prod.snd fun _ => rfl) fun _ => ite (raiseKeeping _ _) ?_
  exact weaken (bind (commCheck b' p back) fun _ => done _) Prod.fst

theorem communicate (b : Buffers g) (be : ∀ (x : Scratch) e, g { x with e := e } = g x) (p : CommCall) :
    Blind g g (Machine.communicate p) :=
  enter <| bind askCfg fun _ => ite (line (raise _)) <|
    bind (commPrepare b p) fun _ => bind (pollReg _ _ _ _) fun _ => commFinish b be p

/-- What the views below see: one of the frame and reply buffers, or nothing. -/
theorem buffers_unit : Buffers fun _ => () := fun _ _ _ _ _ => rfl

theorem piccExchange (b : Buffers g) (be : ∀ (x : Scratch) e, g { x with e := e } = g x) (check : Status → List Nat)
    (send : List Byte) (txLast : Bits3) (cap : Option (BitVec 7)) :
    Blind g g (Machine.piccExchange check send txLast cap) :=
  bind askCfg fun _ => bind (passOn (communicate b be _)) fun _ => pure _

theorem takeAtqa : Blind (fun x => x.ab) (fun _ => ()) Machine.takeAtqa :=
  bind askCfg fun _ => bind (peekScratch _ id fun _ => rfl) fun _ => line <| ite (raise _) (none (done _))

theorem reqOrWup (c : Byte) : Blind (fun _ => ()) (fun _ => ()) (Machine.reqOrWup c) :=
  bind askCfg fun _ => step (h := fun x => x.sb) (latch _ (fun _ => [c]) fun _ => rfl) fun _ =>
    bind (peekScratch _ id fun _ => rfl) fun _ =>
    step (piccExchange (fun _ _ _ _ _ => rfl) (fun _ _ => rfl) _ _ _ _) fun ab =>
    bind (latch _ (fun _ => ab) fun _ => rfl) fun _ => takeAtqa

theorem requestA : Blind (fun _ => ()) (fun _ => ()) Machine.requestA := enter <| bind askCfg fun _ => reqOrWup _

theorem wakeupA : Blind (fun _ => ()) (fun _ => ()) Machine.wakeupA := enter <| bind askCfg fun _ => reqOrWup _

theorem isNewCardPresent : Blind (fun _ => ()) (fun _ => ()) Machine.isNewCardPresent :=
  enter <| step (attempt requestA) fun _ => done _

theorem anticollExchange : Blind (fun _ => ()) (fun x => x.rb) Machine.anticollExchange :=
  bind askCfg fun c =>
    step (h := fun x => x.sb) (latch _ (fun _ => [c.card.selCl1, c.card.nvbAnticoll]) fun _ => rfl) fun _ =>
    bind (peekScratch _ id fun _ => rfl) fun _ =>
    step (piccExchange (fun _ _ _ _ _ => rfl) (fun _ _ => rfl) _ _ _ _) fun rb => latch _ (fun _ => rb) fun _ => rfl

theorem checkReplyLength (rb : List Byte) : Blind g g (Machine.checkReplyLength rb) :=
  bind askCfg fun _ => line <| ite (raise _) (pure ())

theorem checkBcc (rb : List Byte) : Blind g g (Machine.checkBcc rb) :=
  bind askCfg fun _ => line <| ite (pure ()) (raise _)

theorem copyUid (rb : List Byte) : Blind g g (Machine.copyUid rb) :=
  step (updateUid Uid.unconfirmed) fun _ => line <| line <| updateUid fun u => Uid.copied u (rb.take 4)

theorem takeAnticoll : Blind (fun x => x.rb) (fun x => x.rb) Machine.takeAnticoll :=
  bind (peekScratch _ id fun _ => rfl) fun _ => bind (checkReplyLength _) fun _ => bind (copyUid _) fun _ => checkBcc _

theorem selectExchange : Blind (fun x => x.rb) (fun x => x.kb) Machine.selectExchange :=
  bind askCfg fun c => step (h := fun x => x.sb)
      (latch _ (fun rb => c.card.selCl1 :: c.card.nvbSelect :: rb.take 5) fun _ => rfl) fun _ =>
    bind (peekScratch _ id fun _ => rfl) fun _ => step (passOn (calcCrc (fun _ _ _ _ _ => rfl) _ _)) fun crc =>
    step (h := fun x => x.sb) (latch _ (fun sb => sb ++ [crc.1, crc.2]) fun _ => rfl) fun _ =>
    bind (peekScratch _ id fun _ => rfl) fun _ =>
    step (piccExchange (fun _ _ _ _ _ => rfl) (fun _ _ => rfl) _ _ _ _) fun kb => latch _ (fun _ => kb) fun _ => rfl

theorem sakOf (kb : List Byte) : Blind g g (Machine.sakOf kb) := by
  refine line ?_
  cases kb with
  | nil => exact raise _
  | cons b rest => exact pure b

theorem takeSak : Blind (fun x => x.kb) (fun _ => ()) Machine.takeSak :=
  bind (peekScratch _ id fun _ => rfl) fun _ => bind (sakOf _) fun sak =>
    step (updateUid fun u => Uid.stored u sak) fun _ => step (updateUid Uid.confirmed) fun _ => line (none (peekUid _))

theorem selectCard : Blind (fun _ => ()) (fun _ => ()) Machine.selectCard :=
  enter <| bind anticollExchange fun _ => bind takeAnticoll fun _ => bind selectExchange fun _ => takeSak

theorem haltA : Blind (fun _ => ()) (fun _ => ()) Machine.haltA := by
  refine enter <| bind askCfg fun c =>
    step (h := fun x => x.sb) (latch _ (fun _ => [c.card.hlta0, c.card.hlta1]) fun _ => rfl) fun _ =>
    bind (peekScratch _ id fun _ => rfl) fun _ => step (passOn (calcCrc (fun _ _ _ _ _ => rfl) _ _)) fun crc =>
    step (h := fun x => x.sb) (latch _ (fun sb => sb ++ [crc.1, crc.2]) fun _ => rfl) fun _ =>
    bind (peekScratch _ id fun _ => rfl) fun _ =>
    step (attempt (communicate (fun _ _ _ _ _ => rfl) (fun _ _ => rfl) _)) fun r => line ?_
  cases haltStatus (statusOf r) with
  | ok => exact pure ()
  | _ => exact line (raise _)

theorem initializeOp (x : Bool) : Blind (fun _ => ()) (fun _ => ()) (Machine.initializeOp x) :=
  enter <| ite (step hardReset fun _ => step (initChip buffers_unit) fun _ => done ())
    (step (setFatal _) fun _ => line (raise _))

theorem reportCard : Blind (fun _ => ()) (fun _ => ()) Machine.reportCard :=
  bind askCfg fun _ => bind (peekUid _) fun _ => step (emit _) fun _ => line <|
    ite (step (attempt haltA) fun _ => pure _) (pure _)

theorem pollForCard : Blind (fun _ => ()) (fun _ => ()) Machine.pollForCard :=
  enter <| step isNewCardPresent fun _ => line <| ite
    (step (bind (attempt selectCard) fun _ => pure _) fun _ => line <| ite (bind reportCard fun _ => done _) (pure _))
    (pure _)

theorem setBitFraming (start : Bool) (align txLast : Bits3) :
    Blind (fun _ => ()) (fun _ => ()) (Machine.setBitFraming start align txLast) :=
  bind askCfg fun _ => bind (clrBits buffers_unit _ _) fun _ => bind (setBits buffers_unit _ _) fun _ =>
    ite (setBits buffers_unit _ _) (pure ())

end Blind

/-- Two runs from states that agree. -/
theorem Blind.run {m : Op α} (hm : Blind (fun _ => ()) (fun _ => ()) m) {s t : State} (a : Agree s t) :
    (runOp m s).1 = (runOp m t).1 ∧ Agree (runOp m s).2 (runOp m t).2 :=
  have h := hm s t ⟨a, rfl⟩
  ⟨h.1, h.2.1⟩

/-- Two whole operations from states that agree: the same state. -/
theorem Blind.operation {m : Op Results} (hm : Blind (fun _ => ()) (fun _ => ()) m) {s t : State} (a : Agree s t) :
    operation m s = Machine.operation m t := by
  obtain ⟨h1, h2⟩ := hm.run (((agree_setBusy s true).trans a).trans (agree_setBusy t true).symm)
  simp only [operation_eq, h1]
  exact h2.respond _

/-- An operation run alone, seen from inside another operation that calls it in a state that agrees: its response is
the call's result, and taken off the trace it leaves a state that agrees with the one the call leaves. -/
theorem Blind.alone {m : Op α} (hm : Blind (fun _ => ()) (fun _ => ()) m) (f : α → Results) {s t : State}
    (a : Agree s t) :
    Agree (unanswered (Machine.operation (m >>= fun x => Pure.pure (f x)) s)) (runOp m t).2 ∧
      (Machine.operation (m >>= fun x => Pure.pure (f x)) s).response =
        some (responseOf (runOp m t).2.cfg ((runOp m t).1.map f)) := by
  obtain ⟨h1, h2⟩ := hm.run ((agree_setBusy s true).trans a)
  rw [operation_eq, runOp_bind]
  rcases hs : runOp m (s.setBusy true) with ⟨r, u⟩
  simp only [hs] at h1 h2
  rw [← h1]
  cases r with
  | ok x => exact ⟨(agree_unanswered_respond _ _).trans h2, by simp [h2.cfg, Except.map]⟩
  | error e => exact ⟨(agree_unanswered_respond _ _).trans h2, by simp [h2.cfg, Except.map]⟩

end Sys2Proof.Machine
end

