-- ==== Sys2Proof/Laws/Exact.lean ====
section
/-! SUPPORT. What each operation does, exactly, up to the call stack, the counter and the scratch: one lemma per
outcome. -/

namespace Sys2Proof.Machine

variable {α β : Type} {G H : Type} {g : Scratch → G} {b : G} {s t u : State}

/-- From every state that agrees with `s` and shows `b` in `g`, the sequence answers `r`, ends in a state that agrees
with `t`, and shows `b` in `g` again. -/
def Ends (g : Scratch → G) (b : G) (m : Op α) (s : State) (r : Except Raised α) (t : State) : Prop :=
  ∀ s', Agree s' s → g s'.scratch = b →
    (runOp m s').1 = r ∧ Agree (runOp m s').2 t ∧ g (runOp m s').2.scratch = b

namespace Ends

theorem pure (a : α) : Ends g b (Pure.pure a : Op α) s (.ok a) s := fun _ h e => ⟨rfl, h, e⟩
theorem raise (st : Status) : Ends g b (Machine.raise st : Op α) s (.error ⟨st, none⟩) s := fun _ h e => ⟨rfl, h, e⟩
theorem raiseKeeping (st : Status) (x : Option (List Byte)) :
    Ends g b (Machine.raiseKeeping st x : Op α) s (.error ⟨st, x⟩) s := fun _ h e => ⟨rfl, h, e⟩

theorem bind {m : Op α} {f : α → Op β} {a : α} {r : Except Raised β} (hm : Ends g b m s (.ok a) t)
    (hf : Ends g b (f a) t r u) : Ends g b (m >>= f) s r u := by
  intro s' h e
  obtain ⟨h1, h2, h3⟩ := hm s' h e
  rw [runOp_bind]
  rcases hs : runOp m s' with ⟨x, y⟩
  simp only [hs] at h1 h2 h3
  subst h1
  exact hf y h2 h3

theorem bindError {m : Op α} {f : α → Op β} {e : Raised} (hm : Ends g b m s (.error e) t) :
    Ends g b (m >>= f) s (.error e) t := by
  intro s' h x
  obtain ⟨h1, h2, h3⟩ := hm s' h x
  rw [runOp_bind]
  rcases hs : runOp m s' with ⟨y, z⟩
  simp only [hs] at h1 h2 h3
  subst h1
  exact ⟨rfl, h2, h3⟩

theorem askCfg : Ends g b Machine.askCfg s (.ok s.cfg) s := fun _ h e => ⟨by simp [h.cfg], h, e⟩

theorem enter {op : OpName} {m : Op α} {r : Except Raised α} (hm : Ends g b m s r t) :
    Ends g b (Machine.enter op m) s r t := fun s' h e => by
  obtain ⟨h1, h2, h3⟩ := hm (s'.setSeq (⟨op, 1⟩ :: s'.seq)) ((agree_setSeq _ _).trans h) e
  rw [runOp_enter]
  exact ⟨h1, (agree_setSeq _ _).trans h2, h3⟩

theorem passOnKeeping {kept : Option (List Byte)} {check : Status → List Nat} {m : Op α} {r : Except Raised α}
    (hm : Ends g b m s r t) : Ends g b (Machine.passOnKeeping kept check m) s (handedOn kept r) t := fun s' h e => by
  obtain ⟨h1, h2, h3⟩ := hm s' h e
  rw [runOp_passOnKeeping]
  exact ⟨by rw [h1], (agree_setSeq _ _).trans h2, h3⟩

theorem pass (ks : List Nat) : Ends g b (Machine.pass ks) s (.ok ()) s := fun _ h e => by
  rw [runOp_pass]
  exact ⟨rfl, (agree_setSeq _ _).trans h, e⟩

theorem attempt {m : Op α} {r : Except Raised α} (hm : Ends g b m s r t) :
    Ends g b (Machine.attempt m) s (.ok r) t := fun s' h e => by
  obtain ⟨h1, h2, h3⟩ := hm s' h e
  rw [runOp_attempt]
  exact ⟨by rw [h1], h2, h3⟩

theorem line {k : Nat} {m : Op α} {r : Except Raised α} (hm : Ends g b m s r t) : Ends g b (Machine.line k m) s r t :=
  fun s' h e => by
    rw [runOp_line]
    exact hm _ ((agree_setSeq _ _).trans h) e

/-- A statement, and what follows it. -/
theorem step {k : Nat} {m : Op α} {f : α → Op β} {a : α} {r : Except Raised β} (hm : Ends g b m s (.ok a) t)
    (hf : Ends g b (f a) t r u) : Ends g b (Machine.line k m >>= f) s r u := bind (line hm) hf

/-- The statement that returns a value. -/
theorem done {k : Nat} (a : α) : Ends g b (Machine.line k (Pure.pure a : Op α)) s (.ok a) s := line (pure a)

theorem loadPoll (n : Nat) : Ends g b (Machine.loadPoll n) s (.ok ()) s := fun _ h e =>
  ⟨rfl, (agree_setPoll _ _).trans h, e⟩

theorem waitPollDelay : Ends g b Machine.waitPollDelay s (.ok ()) (pollGap s) := fun s' h e =>
  ⟨rfl, h.pollGap, by
    have := Blind.pollGap_scratch s'
    show g (pollGap s').scratch = b
    rw [this, e]⟩

theorem latchV (B : Buffers g) (v : Byte) : Ends g b (Machine.latch fun x => { x with v := v }) s (.ok ()) s :=
  fun s' h e => ⟨rfl, (agree_setScratch _ _).trans h, (B s'.scratch s'.scratch.n v s'.scratch.lo s'.scratch.hi).trans e⟩

theorem latchN (B : Buffers g) (n : Byte) : Ends g b (Machine.latch fun x => { x with n := n }) s (.ok ()) s :=
  fun s' h e => ⟨rfl, (agree_setScratch _ _).trans h, (B s'.scratch n s'.scratch.v s'.scratch.lo s'.scratch.hi).trans e⟩

theorem latchLo (B : Buffers g) (lo : Byte) : Ends g b (Machine.latch fun x => { x with lo := lo }) s (.ok ()) s :=
  fun s' h e => ⟨rfl, (agree_setScratch _ _).trans h, (B s'.scratch s'.scratch.n s'.scratch.v lo s'.scratch.hi).trans e⟩

theorem latchHi (B : Buffers g) (hi : Byte) : Ends g b (Machine.latch fun x => { x with hi := hi }) s (.ok ()) s :=
  fun s' h e => ⟨rfl, (agree_setScratch _ _).trans h, (B s'.scratch s'.scratch.n s'.scratch.v s'.scratch.lo hi).trans e⟩

/-! ### Accesses -/

theorem rdReg (a : Addr) : Ends g b (Machine.rdReg a) s (.ok (readValue s a)) (readDone s a) := fun s' h e => by
  simp only [rdReg_run, h.readValue]
  exact ⟨trivial, h.readDone a, e⟩

theorem wrReg (a : Addr) (v : Byte) : Ends g b (Machine.wrReg a v) s (.ok ()) (writeDone s a v) := fun s' h e => by
  simp only [wrReg_run]
  exact ⟨trivial, h.writeDone a v, e⟩

theorem setBits (B : Buffers g) (a : Addr) (m : Byte) : Ends g b (Machine.setBits a m) s (.ok ()) (setDone s a m) :=
  enter <| step (rdReg a) <| bind (latchV B _) <| step (wrReg a _) (done ())

theorem clrBits (B : Buffers g) (a : Addr) (m : Byte) : Ends g b (Machine.clrBits a m) s (.ok ()) (clrDone s a m) :=
  enter <| step (rdReg a) <| bind (latchV B _) <| step (wrReg a _) (done ())

theorem wrBlk (a : Addr) {len : Nat} (bytes : List Byte) (h : len ≤ s.cfg.fifoCapacity) :
    Ends g b (Machine.wrBlk a len bytes) s (.ok ()) (writesDone s a (bytes.take len)) := fun s' k e => by
  rw [wrBlk_run, if_neg (by rw [k.cfg]; omega)]
  exact ⟨rfl, k.writesDone a _, by rw [Blind.writesDone_scratch, e]⟩

theorem rdBlk (a : Addr) {n : Nat} (align : Bits3) (h : n ≤ s.cfg.fifoCapacity) :
    Ends g b (Machine.rdBlk a n align) s (.ok (burstValue s a n align)) (burstDone s a n) := fun s' k e => by
  rw [rdBlk_run, if_neg (by rw [k.cfg]; omega)]
  refine ⟨by simp only [k.burstValue], k.burstDone a n, ?_⟩
  simp only [burstDone]
  split <;> exact e

theorem rdBlk_noRoom (a : Addr) {n : Nat} (align : Bits3) (h : s.cfg.fifoCapacity < n) :
    Ends g b (Machine.rdBlk a n align) s (.error ⟨.noRoom, none⟩) s := fun s' k e => by
  rw [rdBlk_run, if_pos (by rw [k.cfg]; omega)]
  exact ⟨rfl, k, e⟩

theorem pollGap_comm (s : State) (reg : Addr) (k : Nat) :
    polled (pollGap (readDone s reg)) reg k = pollGap (readDone (polled s reg k) reg) := by
  induction k with
  | zero => rfl
  | succ k ih => simp only [polled, ih]

theorem polled_succ (s : State) (reg : Addr) (k : Nat) :
    polled s reg (k + 1) = polled (pollGap (readDone s reg)) reg k := (pollGap_comm s reg k).symm

theorem pollLoop_done {l : PollLines} {reg : Addr} {test : Byte → Verdict} {n k : Nat} (hk : k < n)
    (before : ∀ j < k, test (pollByte s reg j) = .again) (now : test (pollByte s reg k) = .done) :
    Ends g b (Machine.pollLoop l reg test n) s (.ok ()) (pollDone s reg k) := by
  induction n generalizing s k with
  | zero => omega
  | succ n ih =>
    refine line <| step (rdReg reg) <| bind (pass _) ?_
    cases k with
    | zero =>
      rw [show test (readValue s reg) = .done from now]
      exact pure ()
    | succ k =>
      rw [show test (readValue s reg) = .again from before 0 (by omega)]
      refine step (loadPoll n) (step waitPollDelay ?_)
      have := ih (s := pollGap (readDone s reg)) (k := k) (by omega)
        (fun j hj => by rw [pollByte, ← polled_succ]; exact before (j + 1) (by omega))
        (by rw [pollByte, ← polled_succ]; exact now)
      rwa [pollDone, ← polled_succ] at this

theorem pollLoop_failed {l : PollLines} {reg : Addr} {test : Byte → Verdict} {n k : Nat} {st : Status} (hk : k < n)
    (before : ∀ j < k, test (pollByte s reg j) = .again) (now : test (pollByte s reg k) = .failed st) :
    Ends g b (Machine.pollLoop l reg test n) s (.error ⟨st, none⟩) (pollDone s reg k) := by
  induction n generalizing s k with
  | zero => omega
  | succ n ih =>
    refine line <| step (rdReg reg) <| bind (pass _) ?_
    cases k with
    | zero =>
      rw [show test (readValue s reg) = .failed st from now]
      exact raise st
    | succ k =>
      rw [show test (readValue s reg) = .again from before 0 (by omega)]
      refine step (loadPoll n) (step waitPollDelay ?_)
      have := ih (s := pollGap (readDone s reg)) (k := k) (by omega)
        (fun j hj => by rw [pollByte, ← polled_succ]; exact before (j + 1) (by omega))
        (by rw [pollByte, ← polled_succ]; exact now)
      rwa [pollDone, ← polled_succ] at this

theorem pollLoop_exhausted {l : PollLines} {reg : Addr} {test : Byte → Verdict} {n : Nat}
    (all : ∀ j < n, test (pollByte s reg j) = .again) :
    Ends g b (Machine.pollLoop l reg test n) s (.error ⟨.timeout, none⟩) (polled s reg n) := by
  induction n generalizing s with
  | zero => exact line (line (raise _))
  | succ n ih =>
    refine line <| step (rdReg reg) <| bind (pass _) ?_
    rw [show test (readValue s reg) = .again from all 0 (by omega)]
    refine step (loadPoll n) (step waitPollDelay ?_)
    rw [polled_succ]
    exact ih fun j hj => by rw [pollByte, ← polled_succ]; exact all (j + 1) (by omega)

theorem pollReg {l : PollLines} {reg : Addr} {test : Byte → Verdict} {n : Nat} {r : Except Raised Unit}
    (h : Ends g b (Machine.pollLoop l reg test n) s r t) : Ends g b (Machine.pollReg l reg test n) s r t :=
  step (loadPoll n) h

/-! ### The operations -/

theorem antennaOn (B : Buffers g) : Ends g b Machine.antennaOn s (.ok ()) (antennaDone s) := by
  refine enter <| bind askCfg <| step (rdReg _) <| bind (latchV B _) <| line <| bind (a := ()) (t := antennaDone s) ?_ (done ())
  simp only [antennaDone, allSet, beq_iff_eq]
  split
  · exact pure ()
  · exact line (wrReg _ _)

theorem initChip (B : Buffers g) : Ends g b Machine.initChip s (.ok ()) (initDone s) :=
  enter <| bind askCfg <| step (wrReg _ _) <| step (wrReg _ _) <| step (wrReg _ _) <| step (wrReg _ _) <|
    step (wrReg _ _) <| step (wrReg _ _) <| step (antennaOn B) (done ())

theorem driveNrst (x : Bool) : Ends g b (Machine.driveNrst x) s (.ok ()) ((s.setNrst x).emit (.nrst x)) :=
  fun _ h e => ⟨rfl, (h.setNrst x).emit _, e⟩

theorem waitUnits (n : Nat) : Ends g b (Machine.waitUnits n) s (.ok ()) (s.emit (.wait n)) := fun _ h e =>
  ⟨rfl, h.emit _, e⟩

theorem hardReset : Ends g b Machine.hardReset s (.ok ()) (resetDone s) :=
  enter <| bind askCfg <| step (driveNrst _) <| step (waitUnits _) <| step (driveNrst _) <| step (waitUnits _) <|
    done ()

theorem calcCrc_poll (B : Buffers g) {data : List Byte} {len : Nat} (h : len ≤ s.cfg.fifoCapacity)
    {r : Except Raised (Byte × Byte)}
    (rest : Ends g b (do
      Machine.pollReg crcLines s.cfg.reg.divIrq (crcVerdict s.cfg) s.cfg.crcPollBound
      let lo ← Machine.line 11 (Machine.rdReg s.cfg.reg.crcResultL)
      Machine.latch fun x => { x with lo := lo }
      let hi ← Machine.line 12 (Machine.rdReg s.cfg.reg.crcResultH)
      Machine.latch fun x => { x with hi := hi }
      Machine.line 13 (Pure.pure (lo, hi))) (crcLoaded s (data.take len)) r t) :
    Ends g b (Machine.calcCrc data len) s r t := by
  refine enter <| bind askCfg ?_
  rw [if_neg (by omega)]
  exact step (wrReg _ _) <| step (clrBits B _ _) <| step (setBits B _ _) <| step (wrBlk _ _ h) <|
    step (wrReg _ _) rest

theorem calcCrc_noRoom {data : List Byte} {len : Nat} (h : s.cfg.fifoCapacity < len) :
    Ends g b (Machine.calcCrc data len) s (.error ⟨.noRoom, none⟩) s := by
  refine enter <| bind askCfg ?_
  rw [if_pos h]
  exact line (raise _)

theorem calcCrc_ok (B : Buffers g) {data : List Byte} {len k : Nat} (h : len ≤ s.cfg.fifoCapacity)
    (hk : k < s.cfg.crcPollBound)
    (before : ∀ j < k, pollByte (crcLoaded s (data.take len)) s.cfg.reg.divIrq j &&& s.cfg.mask.irqCrc = 0)
    (now : pollByte (crcLoaded s (data.take len)) s.cfg.reg.divIrq k &&& s.cfg.mask.irqCrc ≠ 0) :
    Ends g b (Machine.calcCrc data len) s
      (.ok (readValue (pollDone (crcLoaded s (data.take len)) s.cfg.reg.divIrq k) s.cfg.reg.crcResultL,
        readValue (readDone (pollDone (crcLoaded s (data.take len)) s.cfg.reg.divIrq k) s.cfg.reg.crcResultL)
          s.cfg.reg.crcResultH))
      (readDone (readDone (pollDone (crcLoaded s (data.take len)) s.cfg.reg.divIrq k) s.cfg.reg.crcResultL)
        s.cfg.reg.crcResultH) := by
  refine calcCrc_poll B h (bind (pollReg <| pollLoop_done hk (fun j hj => ?_) ?_) <|
    step (rdReg _) <| bind (latchLo B _) <| step (rdReg _) <| bind (latchHi B _) <| done _)
  · simp [crcVerdict, anySet, before j hj]
  · simpa [crcVerdict, anySet] using now

theorem calcCrc_timeout (B : Buffers g) {data : List Byte} {len : Nat} (h : len ≤ s.cfg.fifoCapacity)
    (all : ∀ j < s.cfg.crcPollBound,
      pollByte (crcLoaded s (data.take len)) s.cfg.reg.divIrq j &&& s.cfg.mask.irqCrc = 0) :
    Ends g b (Machine.calcCrc data len) s (.error ⟨.timeout, none⟩)
      (polled (crcLoaded s (data.take len)) s.cfg.reg.divIrq s.cfg.crcPollBound) :=
  calcCrc_poll B h (bindError <| pollReg <| pollLoop_exhausted fun j hj => by simp [crcVerdict, anySet, all j hj])

theorem commPrepare (B : Buffers g) (o : CommOperands) (h : o.len.toNat ≤ s.cfg.fifoCapacity) :
    Ends g b (Machine.commPrepare (CommOperands.call o)) s (.ok ()) (commLoaded s o) := by
  refine bind askCfg <| step (wrReg _ _) <| step (setBits B _ _) <| step (wrBlk _ _ h) <| step (clrBits B _ _) <|
    step (setBits B _ _) <| step (wrReg _ _) <| line ?_
  by_cases hc : o.cmd = s.cfg.cmd.transceive
  · rw [commLoaded, if_pos hc, if_pos (show (CommOperands.call o).cmd = _ from hc)]
    exact setBits B _ _
  · rw [commLoaded, if_neg hc, if_neg (show ¬ (CommOperands.call o).cmd = _ from hc)]
    exact pure ()

theorem communicate_noRoom {o : CommOperands} (h : s.cfg.fifoCapacity < o.len.toNat) :
    Ends g b (Machine.communicate (CommOperands.call o)) s (.error ⟨.noRoom, none⟩) s := by
  refine enter <| bind askCfg ?_
  rw [if_pos (by exact h)]
  exact line (raise _)

theorem communicate_failed (B : Buffers g) {o : CommOperands} (h : o.len.toNat ≤ s.cfg.fifoCapacity) {e : Raised}
    (hp : Ends g b (Machine.pollLoop commLines s.cfg.reg.comIrq (commVerdict s.cfg o.irqMask) s.cfg.commPollBound)
      (commLoaded s o) (.error e) t) :
    Ends g b (Machine.communicate (CommOperands.call o)) s (.error e) t := by
  refine enter <| bind askCfg ?_
  rw [if_neg (by simp only [CommOperands.call]; omega)]
  exact bind (commPrepare B o h) <| bindError <| pollReg hp

theorem communicate_timer (B : Buffers g) {o : CommOperands} {k : Nat} (h : o.len.toNat ≤ s.cfg.fifoCapacity)
    (hk : k < s.cfg.commPollBound)
    (before : ∀ j < k, pollByte (commLoaded s o) s.cfg.reg.comIrq j &&& s.cfg.mask.irqTimer = 0 ∧
      pollByte (commLoaded s o) s.cfg.reg.comIrq j &&& o.irqMask = 0)
    (now : pollByte (commLoaded s o) s.cfg.reg.comIrq k &&& s.cfg.mask.irqTimer ≠ 0) :
    Ends g b (Machine.communicate (CommOperands.call o)) s (.error ⟨.timeout, none⟩)
      (pollDone (commLoaded s o) s.cfg.reg.comIrq k) :=
  communicate_failed B h <| pollLoop_failed hk (fun j hj => by simp [commVerdict, anySet, before j hj])
    (by
      rw [commVerdict, if_pos (by simpa [anySet] using now)])

theorem communicate_exhausted (B : Buffers g) {o : CommOperands} (h : o.len.toNat ≤ s.cfg.fifoCapacity)
    (all : ∀ j < s.cfg.commPollBound, pollByte (commLoaded s o) s.cfg.reg.comIrq j &&& s.cfg.mask.irqTimer = 0 ∧
      pollByte (commLoaded s o) s.cfg.reg.comIrq j &&& o.irqMask = 0) :
    Ends g b (Machine.communicate (CommOperands.call o)) s (.error ⟨.timeout, none⟩)
      (polled (commLoaded s o) s.cfg.reg.comIrq s.cfg.commPollBound) :=
  communicate_failed B h <| pollLoop_exhausted fun j hj => by simp [commVerdict, anySet, all j hj]

/-- After the completion poll only steps S5 to S7 are left. -/
theorem communicate_completed (B : Buffers g) {o : CommOperands} {k : Nat} (h : o.len.toNat ≤ s.cfg.fifoCapacity)
    (done : CompletedAt (commLoaded s o) o k) {r : Except Raised (Option (List Byte))}
    (rest : Ends g b (Machine.commFinish (CommOperands.call o)) (pollDone (commLoaded s o) s.cfg.reg.comIrq k) r t) :
    Ends g b (Machine.communicate (CommOperands.call o)) s r t := by
  obtain ⟨hk, before, now1, now2⟩ := done
  simp only [commLoaded_cfg] at hk before now1 now2
  refine enter <| bind askCfg ?_
  rw [if_neg (by simp only [CommOperands.call]; omega)]
  refine bind (commPrepare B o h) <| bind (pollReg <| pollLoop_done hk (fun j hj => ?_) ?_) rest
  · simp [commVerdict, anySet, before j hj, CommOperands.call]
  · simpa [commVerdict, anySet, now1, CommOperands.call] using now2

/-- Step S5: the error byte is latched, and the fatal bits are tested. -/
theorem commFinish_fatal {o : CommOperands} (h : FatalBits s.cfg (readValue s s.cfg.reg.error)) :
    Ends (fun _ => ()) () (Machine.commFinish (CommOperands.call o)) s (.error ⟨.error, none⟩) (readDone s s.cfg.reg.error) := by
  refine bind askCfg <| step (rdReg _) ?_
  have : fatalError s.cfg (readValue s s.cfg.reg.error) = true := by
    simpa [fatalError, anySet, Config.errFatal, FatalBits] using h
  rw [if_pos this]
  exact bind (fun s' h e => ⟨rfl, (agree_setScratch _ _).trans h, e⟩) (line (raise _))

end Ends

/-- The same without a word on `g` in the end. -/
def Gives (g : Scratch → G) (b : G) (m : Op α) (s : State) (r : Except Raised α) (t : State) : Prop :=
  ∀ s', Agree s' s → g s'.scratch = b → (runOp m s').1 = r ∧ Agree (runOp m s').2 t

namespace Gives

theorem ofEnds {m : Op α} {r : Except Raised α} (h : Ends g b m s r t) : Gives g b m s r t := fun s' a x =>
  ⟨(h s' a x).1, (h s' a x).2.1⟩

theorem bind {m : Op α} {f : α → Op β} {a : α} {r : Except Raised β} (hm : Ends g b m s (.ok a) t)
    (hf : Gives g b (f a) t r u) : Gives g b (m >>= f) s r u := by
  intro s' h e
  obtain ⟨h1, h2, h3⟩ := hm s' h e
  rw [runOp_bind]
  rcases hs : runOp m s' with ⟨x, y⟩
  simp only [hs] at h1 h2 h3
  subst h1
  exact hf y h2 h3

theorem andThen {m : Op α} {f : α → Op β} {a : α} {r : Except Raised β} (hm : Gives g b m s (.ok a) t)
    (hf : Gives (fun _ => ()) () (f a) t r u) : Gives g b (m >>= f) s r u := by
  intro s' h e
  obtain ⟨h1, h2⟩ := hm s' h e
  rw [runOp_bind]
  rcases hs : runOp m s' with ⟨x, y⟩
  simp only [hs] at h1 h2
  subst h1
  exact hf y h2 rfl

theorem bindError {m : Op α} {f : α → Op β} {e : Raised} (hm : Gives g b m s (.error e) t) :
    Gives g b (m >>= f) s (.error e) t := by
  intro s' h x
  obtain ⟨h1, h2⟩ := hm s' h x
  rw [runOp_bind]
  rcases hs : runOp m s' with ⟨y, z⟩
  simp only [hs] at h1 h2
  subst h1
  exact ⟨rfl, h2⟩

/-- A call, as the run it is. -/
theorem call {m : Op α} (hm : Blind (fun _ => ()) (fun _ => ()) m) : Gives g b m s (runOp m s).1 (runOp m s).2 :=
  fun _ a _ => hm.run a

theorem line {k : Nat} {m : Op α} {r : Except Raised α} (hm : Gives g b m s r t) :
    Gives g b (Machine.line k m) s r t := fun s' h e => by
  rw [runOp_line]
  exact hm _ ((agree_setSeq _ _).trans h) e

theorem passOnKeeping {kept : Option (List Byte)} {check : Status → List Nat} {m : Op α} {r : Except Raised α}
    (hm : Gives g b m s r t) : Gives g b (Machine.passOnKeeping kept check m) s (handedOn kept r) t := fun s' h e => by
  obtain ⟨h1, h2⟩ := hm s' h e
  rw [runOp_passOnKeeping]
  exact ⟨by rw [h1], (agree_setSeq _ _).trans h2⟩

end Gives

namespace Ends

/-- Steps S6 to S7, the error byte being latched. -/
theorem commFinish_go {o : CommOperands} (h : ¬ FatalBits s.cfg (readValue s s.cfg.reg.error))
    {r : Except Raised (Option (List Byte))}
    (rest : Gives (fun x : Scratch => x.e) (readValue s s.cfg.reg.error) (do
      let back ← Machine.commReply (CommOperands.call o)
      Machine.reach 24
      let e ← peek fun s => s.scratch.e
      if collisionError s.cfg e then Machine.raiseKeeping .collision back
      else
        Machine.commCheck (CommOperands.call o) back
        Machine.line 30 (Pure.pure back)) (readDone s s.cfg.reg.error) r t) :
    Ends (fun _ => ()) () (Machine.commFinish (CommOperands.call o)) s r t := by
  have : ¬ fatalError s.cfg (readValue s s.cfg.reg.error) = true := by
    simpa [fatalError, anySet, Config.errFatal, FatalBits] using h
  refine bind askCfg <| step (rdReg _) ?_
  intro s' a _
  rw [runOp_bind, runOp_latch, andThen_ok, runOp_bind, runOp_reach, andThen_ok, if_neg this]
  obtain ⟨h1, h2⟩ := rest _
    ((agree_setSeq (s'.setScratch { s'.scratch with e := readValue s s.cfg.reg.error }) _).trans
      ((agree_setScratch _ _).trans a)) rfl
  exact ⟨h1, h2, rfl⟩

theorem peekE {e : Byte} : Ends (fun x : Scratch => x.e) e (Machine.peek fun s => s.scratch.e) s (.ok e) s :=
  fun _ h k => ⟨by simp only [runOp_peek, k], h, k⟩

/-- After step S6: the collision bit, then the check of the reply's CRC. -/
theorem commTail {o : CommOperands} {e : Byte} {back : Option (List Byte)} {r : Except Raised (Option (List Byte))}
    (coll : e &&& s.cfg.mask.errColl ≠ 0 → r = .error ⟨.collision, back⟩ ∧ t = s)
    (go : e &&& s.cfg.mask.errColl = 0 → ∃ x, Gives (fun x : Scratch => x.e) e (Machine.commCheck (CommOperands.call o) back) s x t ∧
      r = x.map fun _ => back) :
    Gives (fun x : Scratch => x.e) e (do
      Machine.reach 24
      let e ← peek fun s => s.scratch.e
      if collisionError s.cfg e then Machine.raiseKeeping .collision back
      else
        Machine.commCheck (CommOperands.call o) back
        Machine.line 30 (Pure.pure back)) s r t := by
  refine Gives.line (k := 24) <| Gives.bind peekE ?_
  by_cases hc : e &&& s.cfg.mask.errColl = 0
  · rw [if_neg (by simp [collisionError, anySet, hc])]
    obtain ⟨x, hx, rfl⟩ := go hc
    cases x with
    | ok a => exact Gives.andThen hx (Gives.ofEnds (done _))
    | error e => exact Gives.bindError hx
  · rw [if_pos (by simpa [collisionError, anySet] using hc)]
    obtain ⟨rfl, rfl⟩ := coll hc
    exact Gives.ofEnds (raiseKeeping _ _)

theorem commReply_none {o : CommOperands} (h : o.hasBack = false) :
    Ends g b (Machine.commReply (CommOperands.call o)) s (.ok none) s := by
  refine bind askCfg <| line <| line ?_
  rw [if_neg (by simp [CommOperands.call, h])]
  exact pure _

theorem commReply_noRoom {o : CommOperands} (h : o.hasBack = true) (B : Buffers g)
    (hn : o.cap.toNat < (readValue s s.cfg.reg.fifoLevel).toNat ∨
      s.cfg.fifoCapacity < (readValue s s.cfg.reg.fifoLevel).toNat) :
    Ends g b (Machine.commReply (CommOperands.call o)) s (.error ⟨.noRoom, none⟩) (readDone s s.cfg.reg.fifoLevel) := by
  refine bind askCfg <| line <| line ?_
  rw [if_pos (by simp [CommOperands.call, h])]
  refine step (rdReg _) <| bind (latchN B _) <| line ?_
  by_cases hc : o.cap.toNat < (readValue s s.cfg.reg.fifoLevel).toNat
  · rw [if_pos (by exact hc)]
    exact raise _
  · rw [if_neg (by exact hc)]
    exact bindError (line (rdBlk_noRoom _ _ (hn.resolve_left hc)))

theorem commReply_some {o : CommOperands} (h : o.hasBack = true) (B : Buffers g)
    (h1 : (readValue s s.cfg.reg.fifoLevel).toNat ≤ o.cap.toNat)
    (h2 : (readValue s s.cfg.reg.fifoLevel).toNat ≤ s.cfg.fifoCapacity) :
    Ends g b (Machine.commReply (CommOperands.call o)) s
      (.ok (some (burstValue (readDone s s.cfg.reg.fifoLevel) s.cfg.reg.fifoData
        (readValue s s.cfg.reg.fifoLevel).toNat o.align)))
      (burstDone (readDone s s.cfg.reg.fifoLevel) s.cfg.reg.fifoData (readValue s s.cfg.reg.fifoLevel).toNat) := by
  refine bind askCfg <| line <| line ?_
  rw [if_pos (by simp [CommOperands.call, h])]
  refine step (rdReg _) <| bind (latchN B _) <| line ?_
  rw [if_neg (by simp only [CommOperands.call]; omega)]
  exact step (rdBlk _ _ h2) (done _)

end Ends

/-- A whole operation, from how its body ends. -/
theorem Ends.operation {m : Op Results} {r : Except Raised Results} (h : Ends (fun _ => ()) () m s r t) :
    operation m s = respond r t := by
  obtain ⟨h1, h2, -⟩ := h (s.setBusy true) (agree_setBusy s true) rfl
  rw [operation_eq, h1]
  exact h2.respond r

/-- An operation whose body hands over a result of what it calls. -/
theorem Ends.answers {m : Op α} {f : α → Results} {a : α} (h : Ends (fun _ => ()) () m s (.ok a) t) :
    Machine.operation (m >>= fun x => Pure.pure (f x)) s = endedOk (f a) t := (bind h (pure (f a))).operation

/-- An operation whose body is ended by what it calls. -/
theorem Ends.stops {m : Op α} {f : α → Op Results} {e : Raised} (h : Ends (fun _ => ()) () m s (.error e) t) :
    Machine.operation (m >>= f) s = respond (.error e) t := (bindError h).operation

end Sys2Proof.Machine
end

