-- ==== Sys2Proof/Laws/Keeps.lean ====
section
/-! SUPPORT. Every relation between states that the moves on the bus keep is kept by every operation made of them: the
one induction behind the frame and invariant proofs. -/

namespace Sys2Proof.Machine

variable {α β : Type} {R : State → State → Prop}

/-- Whatever a sequence does, and however it ends, the relation holds between the state before and after. -/
def Keeps (R : State → State → Prop) (m : Op α) : Prop := ∀ s, R s (runOp m s).2

/-- A relation closed under what the block does on the bus: exchanges, waits, the counter, the call stack, and the
scratch that is no frame or reply buffer. -/
structure BusFrame (R : State → State → Prop) : Prop where
  refl : ∀ s, R s s
  trans : ∀ {s t u}, R s t → R t u → R s u
  exchange : ∀ s tx, FrameForm s.cfg tx → R s (s.exchanged tx)
  wait : ∀ s k, R s (s.emit (.wait k))
  poll : ∀ s k, R s (s.setPoll k)
  seq : ∀ s x, R s (s.setSeq x)
  latch : ∀ s (x : Scratch), x.sb = s.scratch.sb → x.rb = s.scratch.rb → x.kb = s.scratch.kb →
    x.ab = s.scratch.ab → R s (s.setScratch x)

/-- Closed under every change of the scratch as well: what the protocol operations do that leave `UID` alone. -/
structure CallFrame (R : State → State → Prop) : Prop extends BusFrame R where
  buffers : ∀ s (x : Scratch), R s (s.setScratch x)

namespace Keeps

theorem pure (F : BusFrame R) (a : α) : Keeps R (Pure.pure a : Op α) := fun s => F.refl s

theorem raise (F : BusFrame R) (st : Status) : Keeps R (Machine.raise st : Op α) := fun s => F.refl s

theorem raiseKeeping (F : BusFrame R) (st : Status) (b : Option (List Byte)) :
    Keeps R (Machine.raiseKeeping st b : Op α) := fun s => F.refl s

theorem askCfg (F : BusFrame R) : Keeps R Machine.askCfg := fun s => F.refl s

theorem peek (F : BusFrame R) (f : State → α) : Keeps R (Machine.peek f) := fun s => F.refl s

theorem bind (F : BusFrame R) {m : Op α} {f : α → Op β} (hm : Keeps R m) (hf : ∀ a, Keeps R (f a)) :
    Keeps R (m >>= f) := by
  intro s
  rw [runOp_bind]
  rcases h : runOp m s with ⟨r, t⟩
  have ht : R s t := by simpa [h] using hm s
  cases r with
  | ok a => exact F.trans ht (hf a t)
  | error e => exact ht

theorem ite {c : Prop} [Decidable c] {m m' : Op α} (h : Keeps R m) (h' : Keeps R m') :
    Keeps R (if c then m else m') := by split <;> assumption

theorem enter (F : BusFrame R) {op : OpName} {m : Op α} (h : Keeps R m) : Keeps R (Machine.enter op m) := fun s =>
  F.trans (F.trans (F.seq s _) (h _)) (F.seq _ _)

theorem attempt {m : Op α} (h : Keeps R m) : Keeps R (Machine.attempt m) := fun s => h s

theorem reach (F : BusFrame R) (k : Nat) : Keeps R (Machine.reach k) := fun s => F.seq s _

theorem line (F : BusFrame R) {k : Nat} {m : Op α} (h : Keeps R m) : Keeps R (Machine.line k m) :=
  bind F (reach F k) fun _ => h

/-- A statement, and what follows it. -/
theorem step (F : BusFrame R) {k : Nat} {m : Op α} {f : α → Op β} (hm : Keeps R m) (hf : ∀ a, Keeps R (f a)) :
    Keeps R (Machine.line k m >>= f) := bind F (line F hm) hf

/-- The statement that returns a value. -/
theorem done (F : BusFrame R) {k : Nat} (a : α) : Keeps R (Machine.line k (Pure.pure a : Op α)) := line F (pure F a)

theorem pass (F : BusFrame R) (ks : List Nat) : Keeps R (Machine.pass ks) := fun s => by
  rw [runOp_pass]
  exact F.seq s _

theorem passOnKeeping (F : BusFrame R) {kept : Option (List Byte)} {check : Status → List Nat} {m : Op α}
    (h : Keeps R m) : Keeps R (Machine.passOnKeeping kept check m) := fun s => by
  rw [runOp_passOnKeeping]
  exact F.trans (h s) (F.seq _ _)

theorem passOn (F : BusFrame R) {check : Status → List Nat} {m : Op α} (h : Keeps R m) :
    Keeps R (Machine.passOn check m) := passOnKeeping F h

theorem loadPoll (F : BusFrame R) (n : Nat) : Keeps R (Machine.loadPoll n) := fun s => F.poll s n

theorem waitUnits (F : BusFrame R) (n : Nat) : Keeps R (Machine.waitUnits n) := fun s => F.wait s n

theorem waitPollDelay (F : BusFrame R) : Keeps R Machine.waitPollDelay := by
  intro s
  show R s (match s.cfg.pollDelay with | none => s | some t => s.emit (.wait t))
  split
  · exact F.refl s
  · exact F.wait s _

theorem buffers (F : CallFrame R) (f : Scratch → Scratch) : Keeps R (Machine.latch f) := fun s => F.buffers s _

/-! ### Accesses -/

theorem rdReg (F : BusFrame R) (a : Addr) : Keeps R (Machine.rdReg a) := fun s =>
  F.exchange s _ (.inl ⟨a, rfl⟩)

theorem wrReg (F : BusFrame R) (a : Addr) (v : Byte) : Keeps R (Machine.wrReg a v) := fun s =>
  F.exchange s _ (.inr (.inl ⟨a, v, rfl⟩))

theorem latchV (F : BusFrame R) (v : Byte) : Keeps R (Machine.latch fun x => { x with v := v }) := fun s =>
  F.latch s _ rfl rfl rfl rfl

theorem setBits (F : BusFrame R) (a : Addr) (m : Byte) : Keeps R (Machine.setBits a m) :=
  enter F <| step F (rdReg F a) fun _ => bind F (latchV F _) fun _ => step F (wrReg F a _) fun _ => done F ()

theorem clrBits (F : BusFrame R) (a : Addr) (m : Byte) : Keeps R (Machine.clrBits a m) :=
  enter F <| step F (rdReg F a) fun _ => bind F (latchV F _) fun _ => step F (wrReg F a _) fun _ => done F ()

theorem writeEach (F : BusFrame R) (a : Addr) (bytes : List Byte) : Keeps R (Machine.writeEach a bytes) := by
  induction bytes with
  | nil => exact pure F ()
  | cons b rest ih =>
    intro s
    exact F.trans (F.exchange s _ (.inr (.inl ⟨a, b, rfl⟩))) (ih _)

theorem wrBlk (F : BusFrame R) (a : Addr) (len : Nat) (bytes : List Byte) : Keeps R (Machine.wrBlk a len bytes) :=
  enter F <| bind F (askCfg F) fun _ => ite (line F (raise F _)) <| step F (writeEach F a _) fun _ => done F ()

theorem rdBlk (F : BusFrame R) (a : Addr) (n : Nat) (align : Bits3) : Keeps R (Machine.rdBlk a n align) := by
  intro s
  rw [rdBlk_run]
  split
  · exact F.refl s
  · show R s (burstDone s a n)
    unfold burstDone
    split
    · exact F.refl s
    · exact F.exchange s _ (.inr (.inr ⟨a, n, by omega, by omega, rfl⟩))

theorem pollLoop (F : BusFrame R) (l : PollLines) (reg : Addr) (test : Byte → Verdict) (k : Nat) :
    Keeps R (Machine.pollLoop l reg test k) := by
  induction k with
  | zero => exact line F (line F (raise F _))
  | succ k ih =>
    refine line F <| step F (rdReg F reg) fun b => bind F (pass F _) fun _ => ?_
    cases test b with
    | done => exact pure F ()
    | failed st => exact raise F st
    | again => exact step F (loadPoll F k) fun _ => step F (waitPollDelay F) fun _ => ih

theorem pollReg (F : BusFrame R) (l : PollLines) (reg : Addr) (test : Byte → Verdict) (k : Nat) :
    Keeps R (Machine.pollReg l reg test k) :=
  step F (loadPoll F k) fun _ => pollLoop F l reg test k

/-! ### The operations -/

theorem softReset (F : BusFrame R) : Keeps R Machine.softReset :=
  enter F <| bind F (askCfg F) fun _ => step F (wrReg F _ _) fun _ => pollReg F _ _ _ _

theorem antennaOn (F : BusFrame R) : Keeps R Machine.antennaOn :=
  enter F <| bind F (askCfg F) fun _ => step F (rdReg F _) fun _ => bind F (latchV F _) fun _ => line F <|
    bind F (ite (pure F ()) (line F (wrReg F _ _))) fun _ => done F ()

theorem antennaOff (F : BusFrame R) : Keeps R Machine.antennaOff :=
  enter F <| bind F (askCfg F) fun _ => step F (clrBits F _ _) fun _ => done F ()

theorem initChip (F : BusFrame R) : Keeps R Machine.initChip :=
  enter F <| bind F (askCfg F) fun _ => step F (wrReg F _ _) fun _ => step F (wrReg F _ _) fun _ =>
    step F (wrReg F _ _) fun _ => step F (wrReg F _ _) fun _ => step F (wrReg F _ _) fun _ =>
    step F (wrReg F _ _) fun _ => step F (antennaOn F) fun _ => done F ()

theorem calcCrc (F : BusFrame R) (data : List Byte) (len : Nat) : Keeps R (Machine.calcCrc data len) :=
  enter F <| bind F (askCfg F) fun _ => ite (line F (raise F _)) <|
    step F (wrReg F _ _) fun _ => step F (clrBits F _ _) fun _ =>
    step F (setBits F _ _) fun _ => step F (wrBlk F _ _ _) fun _ => step F (wrReg F _ _) fun _ =>
    bind F (pollReg F _ _ _ _) fun _ =>
    step F (rdReg F _) fun _ => bind F (fun s => F.latch s _ rfl rfl rfl rfl) fun _ =>
    step F (rdReg F _) fun _ => bind F (fun s => F.latch s _ rfl rfl rfl rfl) fun _ => done F _

theorem commPrepare (F : BusFrame R) (p : CommCall) : Keeps R (Machine.commPrepare p) :=
  bind F (askCfg F) fun _ => step F (wrReg F _ _) fun _ => step F (setBits F _ _) fun _ =>
    step F (wrBlk F _ _ _) fun _ => step F (clrBits F _ _) fun _ => step F (setBits F _ _) fun _ =>
    step F (wrReg F _ _) fun _ => line F <| ite (setBits F _ _) (pure F ())

theorem commReply (F : BusFrame R) (p : CommCall) : Keeps R (Machine.commReply p) :=
  bind F (askCfg F) fun _ => line F <| line F <| ite
    (step F (rdReg F _) fun _ => bind F (fun s => F.latch s _ rfl rfl rfl rfl) fun _ => line F <|
      ite (raise F _) (step F (rdBlk F _ _ _) fun _ => line F (pure F _)))
    (pure F _)

theorem commCheckCrc (F : BusFrame R) (back : List Byte) : Keeps R (Machine.commCheckCrc back) :=
  line F <| ite (raiseKeeping F _ _) <|
    step F (passOnKeeping F (calcCrc F _ _)) fun _ => line F <| ite (pure F ()) (raiseKeeping F _ _)

theorem commCheck (F : BusFrame R) (p : CommCall) (back : Option (List Byte)) : Keeps R (Machine.commCheck p back) := by
  refine line F ?_
  cases back with
  | none => exact pure F ()
  | some b => exact ite (commCheckCrc F b) (pure F ())

theorem commFinish (F : BusFrame R) (p : CommCall) : Keeps R (Machine.commFinish p) :=
  bind F (askCfg F) fun _ => step F (rdReg F _) fun _ =>
    bind F (fun s => F.latch s _ rfl rfl rfl rfl) fun _ => line F <| ite (raise F _) <|
    bind F (commReply F p) fun back => line F <| bind F (peek F _) fun _ =>
    ite (raiseKeeping F _ _) <| bind F (commCheck F p back) fun _ => done F _

theorem communicate (F : BusFrame R) (p : CommCall) : Keeps R (Machine.communicate p) :=
  enter F <| bind F (askCfg F) fun _ => ite (line F (raise F _)) <|
    bind F (commPrepare F p) fun _ => bind F (pollReg F _ _ _ _) fun _ => commFinish F p

theorem piccExchange (F : BusFrame R) (check : Status → List Nat) (send : List Byte) (txLast : Bits3)
    (cap : Option (BitVec 7)) : Keeps R (Machine.piccExchange check send txLast cap) :=
  bind F (askCfg F) fun _ => bind F (passOn F (communicate F _)) fun _ => pure F _

theorem takeAtqa (F : BusFrame R) : Keeps R Machine.takeAtqa :=
  bind F (askCfg F) fun _ => bind F (peek F _) fun _ => line F <| ite (raise F _) (done F _)

theorem reqOrWup (F : CallFrame R) (b : Byte) : Keeps R (Machine.reqOrWup b) :=
  have B := F.toBusFrame
  bind B (askCfg B) fun _ => step B (buffers F _) fun _ => bind B (peek B _) fun _ =>
    step B (piccExchange B _ _ _ _) fun _ => bind B (buffers F _) fun _ => takeAtqa B

theorem requestA (F : CallFrame R) : Keeps R Machine.requestA :=
  enter F.toBusFrame <| bind F.toBusFrame (askCfg F.toBusFrame) fun _ => reqOrWup F _

theorem wakeupA (F : CallFrame R) : Keeps R Machine.wakeupA :=
  enter F.toBusFrame <| bind F.toBusFrame (askCfg F.toBusFrame) fun _ => reqOrWup F _

theorem isNewCardPresent (F : CallFrame R) : Keeps R Machine.isNewCardPresent :=
  enter F.toBusFrame <| step F.toBusFrame (attempt (requestA F)) fun _ => done F.toBusFrame _

theorem anticollExchange (F : CallFrame R) : Keeps R Machine.anticollExchange :=
  have B := F.toBusFrame
  bind B (askCfg B) fun _ => step B (buffers F _) fun _ => bind B (peek B _) fun _ =>
    step B (piccExchange B _ _ _ _) fun _ => buffers F _

theorem selectExchange (F : CallFrame R) : Keeps R Machine.selectExchange :=
  have B := F.toBusFrame
  bind B (askCfg B) fun _ => step B (buffers F _) fun _ => bind B (peek B _) fun _ =>
    step B (passOn B (calcCrc B _ _)) fun _ => step B (buffers F _) fun _ => bind B (peek B _) fun _ =>
    step B (piccExchange B _ _ _ _) fun _ => buffers F _

theorem checkReplyLength (F : BusFrame R) (rb : List Byte) : Keeps R (Machine.checkReplyLength rb) :=
  bind F (askCfg F) fun _ => line F <| ite (raise F _) (pure F ())

theorem checkBcc (F : BusFrame R) (rb : List Byte) : Keeps R (Machine.checkBcc rb) :=
  bind F (askCfg F) fun _ => line F <| ite (pure F ()) (raise F _)

theorem sakOf (F : BusFrame R) (kb : List Byte) : Keeps R (Machine.sakOf kb) := by
  refine line F ?_
  cases kb with
  | nil => exact raise F _
  | cons b rest => exact pure F b

theorem haltA (F : CallFrame R) : Keeps R Machine.haltA := by
  have B := F.toBusFrame
  refine enter B <| bind B (askCfg B) fun _ => step B (buffers F _) fun _ => bind B (peek B _) fun _ =>
    step B (passOn B (calcCrc B _ _)) fun _ => step B (buffers F _) fun _ => bind B (peek B _) fun _ =>
    step B (attempt (communicate B _)) fun r => line B ?_
  cases haltStatus (statusOf r) with
  | ok => exact pure B ()
  | _ => exact line B (raise B _)

theorem setBitFraming (F : BusFrame R) (start : Bool) (align txLast : Bits3) :
    Keeps R (Machine.setBitFraming start align txLast) :=
  bind F (askCfg F) fun _ => bind F (clrBits F _ _) fun _ => bind F (setBits F _ _) fun _ =>
    ite (setBits F _ _) (pure F ())

theorem issueCommand (F : BusFrame R) (f : ChipCommands → Byte) : Keeps R (Machine.issueCommand f) :=
  bind F (askCfg F) fun _ => bind F (wrReg F _ _) fun _ => pure F _

theorem exchangeResult (F : BusFrame R) (send : Config → List Byte) (txLast : Config → Bits3)
    (cap : Config → Option (BitVec 7)) : Keeps R (Machine.exchangeResult send txLast cap) :=
  bind F (askCfg F) fun _ => bind F (communicate F _) fun _ => pure F _

end Keeps

end Sys2Proof.Machine
end

