-- ==== Sys2Proof/Laws/Triple.lean ====
section
/-! SUPPORT. Pre- and postconditions of operations over what they keep: the persistent state and the frame and reply
buffers; with each, how many frames it sends at most and how it can end. -/

namespace Sys2Proof.Machine

variable {α β : Type} {c : Config}

/-- What no single access changes: the configuration, `UID`, the lines, the host's list, the four buffers. -/
structure View where
  cfg   : Config
  uid   : Uid
  nrst  : Bool
  fatal : Bool
  host  : List Packet
  sb    : List Byte
  rb    : List Byte
  kb    : List Byte
  ab    : List Byte

/-- See `View`. -/
def view (s : State) : View :=
  ⟨s.cfg, s.uid, s.nrst, s.fatal, s.host, s.scratch.sb, s.scratch.rb, s.scratch.kb, s.scratch.ab⟩

/-- The view goes through the moves on the bus. -/
theorem busFrame_view : BusFrame fun s t => view t = view s where
  refl _ := rfl
  trans h k := k.trans h
  exchange _ _ _ := rfl
  wait _ _ := rfl
  poll _ _ := rfl
  seq _ _ := rfl
  latch s x h1 h2 h3 h4 := by simp [view, h1, h2, h3, h4]

/-- From every state with configuration `c` and `P`, the sequence sends at most `n` frames, keeps the configuration,
and ends with a result in `Q` or a failure in `E`. -/
def Triple (c : Config) (n : Nat) (P : View → Prop) (m : Op α) (Q : α → View → Prop) (E : Raised → View → Prop) :
    Prop :=
  ∀ s, s.cfg = c → P (view s) →
    (runOp m s).2.cfg = c ∧ frameCount (runOp m s).2.trace ≤ frameCount s.trace + n ∧
      match (runOp m s).1 with
      | .ok a => Q a (view (runOp m s).2)
      | .error e => E e (view (runOp m s).2)

/-- The same of a sequence that keeps the view: the result alone is described. -/
def BusOp (c : Config) (n : Nat) (m : Op α) (Q : α → Prop) (E : Raised → Prop) : Prop :=
  ∀ s, s.cfg = c →
    view (runOp m s).2 = view s ∧ frameCount (runOp m s).2.trace ≤ frameCount s.trace + n ∧
      match (runOp m s).1 with
      | .ok a => Q a
      | .error e => E e

theorem cfg_of_view {s t : State} (h : view t = view s) : t.cfg = s.cfg := congrArg View.cfg h

namespace BusOp

variable {n k : Nat} {Q : α → Prop} {R : β → Prop} {E : Raised → Prop}

theorem bind {m : Op α} {f : α → Op β} (hm : BusOp c n m Q E) (hf : ∀ a, Q a → BusOp c k (f a) R E) :
    BusOp c (n + k) (m >>= f) R E := by
  intro s hc
  obtain ⟨h1, h2, h3⟩ := hm s hc
  rw [runOp_bind]
  rcases hs : runOp m s with ⟨r, t⟩
  simp only [hs] at h1 h2 h3
  cases r with
  | ok a =>
    obtain ⟨k1, k2, k3⟩ := hf a h3 t ((cfg_of_view h1).trans hc)
    exact ⟨k1.trans h1, by simp only [andThen_ok]; omega, k3⟩
  | error e => exact ⟨h1, by simp only [andThen_error]; omega, h3⟩

theorem imp {m : Op α} {Q' : α → Prop} {E' : Raised → Prop} {k : Nat} (hm : BusOp c n m Q E) (hn : n ≤ k)
    (hq : ∀ a, Q a → Q' a) (he : ∀ e, E e → E' e) : BusOp c k m Q' E' := by
  intro s hc
  obtain ⟨h1, h2, h3⟩ := hm s hc
  refine ⟨h1, by omega, ?_⟩
  cases hr : (runOp m s).1 with
  | ok a => rw [hr] at h3; exact hq a h3
  | error e => rw [hr] at h3; exact he e h3

theorem pure {a : α} (h : Q a) : BusOp c 0 (Pure.pure a : Op α) Q E := fun _ _ => ⟨rfl, by simp, h⟩

theorem raise {st : Status} (h : E ⟨st, none⟩) : BusOp c 0 (Machine.raise st : Op α) Q E := fun _ _ =>
  ⟨rfl, by simp, h⟩

theorem raiseKeeping {st : Status} {x : Option (List Byte)} (h : E ⟨st, x⟩) :
    BusOp c 0 (Machine.raiseKeeping st x : Op α) Q E := fun _ _ => ⟨rfl, by simp, h⟩

theorem askCfg : BusOp c 0 Machine.askCfg (fun a => a = c) E := fun _ h => ⟨rfl, by simp, h⟩

/-- The configuration an operation asks for is `c`. -/
theorem ask {f : Config → Op α} (h : BusOp c n (f c) Q E) : BusOp c n (Machine.askCfg >>= f) Q E := by
  intro s hc
  have := h s hc
  rw [runOp_bind]
  simpa [hc] using this

theorem peek (f : State → α) : BusOp c 0 (Machine.peek f) (fun _ => True) E := fun _ _ => ⟨rfl, by simp, trivial⟩

theorem ite {p : Prop} [Decidable p] {m m' : Op α} (h : p → BusOp c n m Q E) (h' : ¬ p → BusOp c n m' Q E) :
    BusOp c n (if p then m else m') Q E := by
  split
  · exact h ‹_›
  · exact h' ‹_›

theorem enter {op : OpName} {m : Op α} (hm : BusOp c n m Q E) : BusOp c n (Machine.enter op m) Q E := fun s hc => by
  obtain ⟨h1, h2, h3⟩ := hm (s.setSeq (⟨op, 1⟩ :: s.seq)) hc
  rw [runOp_enter]
  exact ⟨h1, h2, h3⟩

/-- Passing statements. -/
theorem pass {ks : List Nat} {m : Op α} (hm : BusOp c n m Q E) : BusOp c n (Machine.pass ks >>= fun _ => m) Q E :=
  fun s hc => by
    obtain ⟨h1, h2, h3⟩ := hm (s.setSeq (passed ks s.seq)) hc
    rw [runOp_bind, runOp_pass, andThen_ok]
    exact ⟨h1, h2, h3⟩

theorem passOnKeeping {kept : Option (List Byte)} {check : Status → List Nat} {m : Op α} {E' : Raised → Prop}
    (hm : BusOp c n m Q E') (he : ∀ e, E' e → E ⟨e.status, kept⟩) :
    BusOp c n (Machine.passOnKeeping kept check m) Q E := fun s hc => by
  obtain ⟨h1, h2, h3⟩ := hm s hc
  rw [runOp_passOnKeeping]
  refine ⟨h1, h2, ?_⟩
  cases hr : (runOp m s).1 with
  | ok a => simpa [hr] using h3
  | error e => simpa [hr] using he e (by simpa [hr] using h3)

theorem passOn {check : Status → List Nat} {m : Op α} (hm : BusOp c n m Q E) (he : ∀ e, E e → E ⟨e.status, none⟩) :
    BusOp c n (Machine.passOn check m) Q E := passOnKeeping hm he

theorem line {x : Nat} {m : Op α} (hm : BusOp c n m Q E) : BusOp c n (Machine.line x m) Q E := fun s hc => by
  obtain ⟨h1, h2, h3⟩ := hm (s.setSeq (seqAt x s.seq)) hc
  rw [runOp_line]
  exact ⟨h1, h2, h3⟩

/-- A statement, and what follows it. -/
theorem step {x : Nat} {m : Op α} {f : α → Op β} (hm : BusOp c n m Q E) (hf : ∀ a, Q a → BusOp c k (f a) R E) :
    BusOp c (n + k) (Machine.line x m >>= f) R E := bind (line hm) hf

/-- A bound that is not reached. -/
theorem cost {m : Op α} (hm : BusOp c n m Q E) (hn : n ≤ k) : BusOp c k m Q E := imp hm hn (fun _ h => h) fun _ h => h

/-- The statement that returns a value. -/
theorem done {x : Nat} {a : α} (h : Q a) : BusOp c 0 (Machine.line x (Pure.pure a : Op α)) Q E := line (pure h)

theorem loadPoll (x : Nat) : BusOp c 0 (Machine.loadPoll x) (fun _ => True) E := fun _ _ => ⟨rfl, by simp, trivial⟩

theorem waitPollDelay : BusOp c 0 Machine.waitPollDelay (fun _ => True) E := fun s _ => by
  refine ⟨Keeps.waitPollDelay busFrame_view s, ?_, trivial⟩
  show frameCount (match s.cfg.pollDelay with | none => s | some t => s.emit (.wait t)).trace ≤ _
  split <;> simp [frameCount]

theorem latch (f : Scratch → Scratch)
    (h : ∀ x, (f x).sb = x.sb ∧ (f x).rb = x.rb ∧ (f x).kb = x.kb ∧ (f x).ab = x.ab) :
    BusOp c 0 (Machine.latch f) (fun _ => True) E := fun s _ => by
  obtain ⟨h1, h2, h3, h4⟩ := h s.scratch
  exact ⟨by simp [view, h1, h2, h3, h4], by simp, trivial⟩

theorem rdReg (a : Addr) : BusOp c 1 (Machine.rdReg a) (fun _ => True) E := fun s _ =>
  ⟨Keeps.rdReg busFrame_view a s, by simp [rdReg_run, readDone, frameCount], trivial⟩

theorem wrReg (a : Addr) (v : Byte) : BusOp c 1 (Machine.wrReg a v) (fun _ => True) E := fun s _ =>
  ⟨Keeps.wrReg busFrame_view a v s, by simp [wrReg_run, writeDone, frameCount], trivial⟩

theorem frameCount_writesDone (s : State) (a : Addr) (bytes : List Byte) :
    frameCount (writesDone s a bytes).trace = frameCount s.trace + bytes.length := by
  induction bytes generalizing s with
  | nil => rfl
  | cons b rest ih =>
    show frameCount (writesDone (writeDone s a b) a rest).trace = _
    rw [ih]
    simp [writeDone, frameCount]
    omega

theorem wrBlk (a : Addr) (len : Nat) (bytes : List Byte) :
    BusOp c len (Machine.wrBlk a len bytes) (fun _ => len ≤ c.fifoCapacity)
      (fun e => e = ⟨.noRoom, none⟩ ∧ c.fifoCapacity < len) := fun s hc => by
  refine ⟨Keeps.wrBlk busFrame_view a len bytes s, ?_, ?_⟩
  · rw [wrBlk_run]
    split
    · exact Nat.le_add_right _ _
    · simp only [frameCount_writesDone, List.length_take]; omega
  · simp only [wrBlk_run, hc]
    split <;> rename_i x y h <;> split at h <;> simp_all

theorem maskFirst_length (align : Bits3) (x : List Byte) : (maskFirst align x).length = x.length := by
  cases x <;> rfl

theorem burstValue_length (s : State) (a : Addr) (n : Nat) (align : Bits3) : (burstValue s a n align).length = n := by
  unfold burstValue
  split
  · simp [*]
  · simp [maskFirst_length, burstFrame]

theorem rdBlk (a : Addr) (n : Nat) (align : Bits3) :
    BusOp c 1 (Machine.rdBlk a n align) (fun x => x.length = n ∧ n ≤ c.fifoCapacity)
      (fun e => e = ⟨.noRoom, none⟩ ∧ c.fifoCapacity < n) := fun s hc => by
  refine ⟨Keeps.rdBlk busFrame_view a n align s, ?_, ?_⟩
  · rw [rdBlk_run]
    split
    · exact Nat.le_add_right _ _
    · simp only [burstDone]
      split <;> simp [frameCount]
  · simp only [rdBlk_run, hc]
    by_cases h : c.fifoCapacity < n
    · simp [h]
    · simp only [if_neg h]
      exact ⟨burstValue_length s a n align, by omega⟩

theorem latchV (v : Byte) : BusOp c 0 (Machine.latch fun x => { x with v := v }) (fun _ => True) E :=
  latch _ fun _ => ⟨rfl, rfl, rfl, rfl⟩

theorem setBits (a : Addr) (m : Byte) : BusOp c 2 (Machine.setBits a m) (fun _ => True) E :=
  enter <| cost (step (rdReg a) fun _ _ => bind (latchV _) fun _ _ => step (wrReg a _) fun _ _ => done trivial)
    (by omega)

theorem clrBits (a : Addr) (m : Byte) : BusOp c 2 (Machine.clrBits a m) (fun _ => True) E :=
  enter <| cost (step (rdReg a) fun _ _ => bind (latchV _) fun _ _ => step (wrReg a _) fun _ _ => done trivial)
    (by omega)

/-- A poll loop of `n` polls sends at most `n` frames; it ends with TIMEOUT or with what the test names. -/
theorem pollLoop (l : PollLines) (reg : Addr) (test : Byte → Verdict) (n : Nat) (h1 : E ⟨.timeout, none⟩)
    (h2 : ∀ b st, test b = .failed st → E ⟨st, none⟩) :
    BusOp c n (Machine.pollLoop l reg test n) (fun _ => True) E := by
  induction n with
  | zero => exact line (line (raise h1))
  | succ n ih =>
    refine line <| cost (step (k := n) (rdReg reg) fun b _ => pass ?_) (by omega)
    cases hb : test b with
    | done => exact cost (pure trivial) (by omega)
    | failed st => exact cost (raise (h2 b st hb)) (by omega)
    | again => exact cost (step (loadPoll n) fun _ _ => step waitPollDelay fun _ _ => ih) (by omega)

theorem pollReg (l : PollLines) (reg : Addr) (test : Byte → Verdict) (n : Nat) (h1 : E ⟨.timeout, none⟩)
    (h2 : ∀ b st, test b = .failed st → E ⟨st, none⟩) :
    BusOp c n (Machine.pollReg l reg test n) (fun _ => True) E :=
  cost (step (loadPoll n) fun _ _ => pollLoop l reg test n h1 h2) (by omega)

/-! ### The operations -/

theorem softReset : BusOp c (1 + c.softResetPollBound) Machine.softReset (fun _ => True)
    (fun e => e = ⟨.timeout, none⟩) :=
  enter <| ask <| step (wrReg _ _) fun _ _ => pollReg _ _ _ _ rfl fun b st h => by
    simp only [softResetVerdict] at h
    split at h <;> simp at h

theorem antennaOn : BusOp c 2 Machine.antennaOn (fun _ => True) E :=
  enter <| ask <| cost (step (rdReg _) fun _ _ => bind (latchV _) fun _ _ => line <|
    bind (ite (n := 1) (fun _ => cost (pure trivial) (by omega)) fun _ => line (wrReg _ _)) fun _ _ => done trivial)
    (by omega)

theorem antennaOff : BusOp c 2 Machine.antennaOff (fun _ => True) E :=
  enter <| ask <| step (clrBits _ _) fun _ _ => done trivial

theorem initChip : BusOp c 8 Machine.initChip (fun _ => True) E :=
  enter <| ask <| cost (step (wrReg _ _) fun _ _ => step (wrReg _ _) fun _ _ => step (wrReg _ _) fun _ _ =>
    step (wrReg _ _) fun _ _ => step (wrReg _ _) fun _ _ => step (wrReg _ _) fun _ _ => step antennaOn fun _ _ =>
    done trivial) (by omega)

/-- How CALCCRC fails. -/
def CrcError (c : Config) (len : Nat) (e : Raised) : Prop :=
  e = ⟨.timeout, none⟩ ∨ e = ⟨.noRoom, none⟩ ∧ c.fifoCapacity < len

theorem calcCrc (data : List Byte) (len : Nat) :
    BusOp c (8 + len + c.crcPollBound) (Machine.calcCrc data len) (fun _ => True) (CrcError c len) := by
  refine enter <| ask <| ite (fun h => cost (line (raise (.inr ⟨rfl, h⟩))) (by omega)) fun _ => ?_
  refine cost (step (wrReg _ _) fun _ _ => step (clrBits _ _) fun _ _ =>
    step (setBits _ _) fun _ _ => step (imp (wrBlk _ len _) (Nat.le_refl _) (fun _ _ => trivial) fun e h =>
      .inr h) fun _ _ => step (wrReg _ _) fun _ _ =>
    bind (pollReg _ _ _ c.crcPollBound (.inl rfl) fun b st h => ?_) fun _ _ =>
    step (rdReg _) fun _ _ => bind (latch _ fun _ => ⟨rfl, rfl, rfl, rfl⟩) fun _ _ => step (rdReg _) fun _ _ =>
    bind (latch _ fun _ => ⟨rfl, rfl, rfl, rfl⟩) fun _ _ => done trivial) (by omega)
  simp only [crcVerdict] at h
  split at h <;> simp at h

/-- How COMM fails: never OK or INVALID, and with a kept reply only under COLLISION, CRC_WRONG and TIMEOUT. -/
def CommError (e : Raised) : Prop :=
  e.status ≠ .ok ∧ e.status ≠ .invalid ∧
    (e.back ≠ none → e.status = .collision ∨ e.status = .crcWrong ∨ e.status = .timeout)

/-- The result of COMM: a reply no longer than the buffer, if there is one. -/
def CommOk (c : Config) (p : CommCall) (r : Option (List Byte)) : Prop :=
  match r with
  | none => p.hasBack = false
  | some back => p.hasBack = true ∧ back.length ≤ p.cap.toNat ∧ back.length ≤ c.fifoCapacity

/-- The frames COMM sends at most (70_reset_and_hazards.md R291). -/
def commCost (c : Config) (p : CommCall) : Nat :=
  11 + p.sendLen + c.commPollBound + (if p.hasBack then 2 else 0) +
    (if p.hasBack && p.chk then 70 + c.crcPollBound else 0)

theorem commPrepare (p : CommCall) : BusOp c (10 + p.sendLen) (Machine.commPrepare p) (fun _ => True) CommError :=
  ask <| cost (step (wrReg _ _) fun _ _ => step (setBits _ _) fun _ _ =>
    step (imp (wrBlk _ p.sendLen _) (Nat.le_refl _) (fun _ _ => trivial) fun e h => by
      rw [h.1]; exact ⟨by simp, by simp, fun h => absurd rfl h⟩) fun _ _ =>
    step (clrBits _ _) fun _ _ => step (setBits _ _) fun _ _ => step (wrReg _ _) fun _ _ => line <|
    ite (n := 2) (fun _ => setBits _ _) fun _ => cost (pure trivial) (by omega)) (by omega)

theorem noRoom_commError : CommError ⟨.noRoom, none⟩ := ⟨by simp, by simp, fun h => absurd rfl h⟩

theorem commReply (p : CommCall) :
    BusOp c (if p.hasBack then 2 else 0) (Machine.commReply p) (CommOk c p) CommError := by
  refine ask <| line <| line ?_
  by_cases hb : p.hasBack = true
  · simp only [hb, if_true]
    refine cost (step (rdReg _) fun n _ => bind (latch _ fun _ => ⟨rfl, rfl, rfl, rfl⟩) fun _ _ => line <|
      ite (n := 1) (fun _ => cost (raise noRoom_commError) (by omega)) fun hn =>
      cost (step (imp (rdBlk _ _ _) (Nat.le_refl _) (fun _ h => h) fun e h => h.1 ▸ noRoom_commError) fun back h =>
        done (Q := CommOk c p) ?_) (by omega)) (by omega)
    exact ⟨hb, by omega, by omega⟩
  · simp only [hb]
    exact pure (by simpa [CommOk] using hb)

theorem commCheck (p : CommCall) (back : Option (List Byte)) (hf : c.fifoCapacity ≤ 64) (h : CommOk c p back) :
    BusOp c (if p.hasBack && p.chk then 70 + c.crcPollBound else 0) (Machine.commCheck p back) (fun _ => True)
      CommError := by
  have wrong : ∀ x, CommError ⟨.crcWrong, x⟩ := fun _ => ⟨by simp, by simp, fun _ => .inr (.inl rfl)⟩
  refine line ?_
  cases back with
  | none =>
    have h : p.hasBack = false := h
    simp only [h]
    exact pure trivial
  | some back =>
    obtain ⟨h1, h2, h3⟩ := h
    simp only [h1, Bool.true_and]
    by_cases hk : p.chk = true
    · simp only [hk, if_true]
      refine line <| ite (n := 70 + c.crcPollBound) (fun _ => cost (raiseKeeping (wrong _)) (by omega)) fun _ =>
        cost (step (passOnKeeping (calcCrc _ _) fun e he => ?_) fun _ _ =>
          line <| ite (n := 0) (fun _ => pure trivial) fun _ => raiseKeeping (wrong _)) (by omega)
      rcases he with rfl | ⟨rfl, hn⟩
      · exact ⟨by simp, by simp, fun _ => .inr (.inr rfl)⟩
      · omega
    · simp only [hk]
      exact pure trivial

theorem commFinish (p : CommCall) (hf : c.fifoCapacity ≤ 64) :
    BusOp c (1 + (if p.hasBack then 2 else 0) + (if p.hasBack && p.chk then 70 + c.crcPollBound else 0))
      (Machine.commFinish p) (CommOk c p) CommError :=
  ask <| cost (step (rdReg _) fun _ _ =>
    bind (latch _ fun _ => ⟨rfl, rfl, rfl, rfl⟩) fun _ _ => line <|
    ite (n := (if p.hasBack then 2 else 0) + (if p.hasBack && p.chk then 70 + c.crcPollBound else 0))
      (fun _ => cost (raise ⟨by simp, by simp, fun h => absurd rfl h⟩) (by omega)) fun _ =>
    bind (commReply p) fun back hb => line <| cost (bind (peek _) fun _ _ =>
      ite (n := if p.hasBack && p.chk then 70 + c.crcPollBound else 0)
        (fun _ => cost (raiseKeeping ⟨by simp, by simp, fun _ => .inl rfl⟩) (by omega))
        fun _ => cost (bind (commCheck p back hf hb) fun _ _ => done (Q := CommOk c p) hb) (by omega)) (by omega))
    (by omega)

theorem communicate (p : CommCall) (hf : c.fifoCapacity ≤ 64) :
    BusOp c (commCost c p) (Machine.communicate p) (CommOk c p) CommError := by
  refine enter <| ask <| ite (fun _ => cost (line (raise noRoom_commError)) (by omega)) fun _ => ?_
  refine cost (bind (commPrepare p) fun _ _ =>
    bind (pollReg _ _ _ c.commPollBound ⟨by simp, by simp, fun h => absurd rfl h⟩ fun b st h => ?_) fun _ _ =>
    commFinish p hf) (by simp only [commCost]; omega)
  simp only [commVerdict] at h
  split at h
  · injection h with h
    subst h
    exact ⟨by simp, by simp, fun h => absurd rfl h⟩
  · split at h <;> simp at h

theorem setBitFraming (start : Bool) (align txLast : Bits3) :
    BusOp c 6 (Machine.setBitFraming start align txLast) (fun _ => True) E :=
  ask <| imp (bind (clrBits _ _) fun _ _ => bind (setBits _ _) fun _ _ =>
    ite (n := 2) (fun _ => setBits _ _) fun _ => imp (pure trivial) (by omega) (fun _ h => h) fun _ h => h) (by omega)
    (fun _ h => h) fun _ h => h

end BusOp

end Sys2Proof.Machine
end

