-- ==== Sys2Proof/Laws/Protocol.lean ====
section
/-! SUPPORT. The protocol operations as triples: what each does to `UID`, `NRST` and `FATAL`, how it can fail, and how
many frames it sends at most. -/

namespace Sys2Proof.Machine

variable {α β : Type} {c : Config} {n k : Nat} {P : View → Prop} {Q : α → View → Prop} {R : β → View → Prop}
  {E : Raised → View → Prop}

/-- What is known of an attempted call's result. -/
def Tried (Q : α → View → Prop) (E : Raised → View → Prop) : Except Raised α → View → Prop
  | .ok a => Q a
  | .error e => E e

namespace Triple

theorem lift {m : Op α} {q : α → Prop} {e : Raised → Prop} (h : BusOp c n m q e) :
    Triple c n P m (fun a v => P v ∧ q a) (fun x v => P v ∧ e x) := by
  intro s hc hp
  obtain ⟨h1, h2, h3⟩ := h s hc
  refine ⟨(cfg_of_view h1).trans hc, h2, ?_⟩
  rw [h1]
  cases hr : (runOp m s).1 with
  | ok a => rw [hr] at h3; exact ⟨hp, h3⟩
  | error e => rw [hr] at h3; exact ⟨hp, h3⟩

theorem bind {m : Op α} {f : α → Op β} (hm : Triple c n P m Q E) (hf : ∀ a, Triple c k (Q a) (f a) R E) :
    Triple c (n + k) P (m >>= f) R E := by
  intro s hc hp
  obtain ⟨h1, h2, h3⟩ := hm s hc hp
  rw [runOp_bind]
  rcases hs : runOp m s with ⟨r, t⟩
  simp only [hs] at h1 h2 h3
  cases r with
  | ok a =>
    obtain ⟨k1, k2, k3⟩ := hf a t h1 h3
    exact ⟨k1, by simp only [andThen_ok]; omega, k3⟩
  | error e => exact ⟨h1, by simp only [andThen_error]; omega, h3⟩

theorem imp {m : Op α} {P' : View → Prop} {Q' : α → View → Prop} {E' : Raised → View → Prop} (hm : Triple c n P m Q E)
    (hn : n ≤ k) (hp : ∀ v, P' v → P v) (hq : ∀ a v, Q a v → Q' a v) (he : ∀ e v, E e v → E' e v) :
    Triple c k P' m Q' E' := by
  intro s hc h
  obtain ⟨h1, h2, h3⟩ := hm s hc (hp _ h)
  refine ⟨h1, by omega, ?_⟩
  cases hr : (runOp m s).1 with
  | ok a => rw [hr] at h3; exact hq a _ h3
  | error e => rw [hr] at h3; exact he e _ h3

/-- The same bound and conditions, a smaller cost. -/
theorem cost {m : Op α} (hm : Triple c n P m Q E) (hn : n ≤ k) : Triple c k P m Q E :=
  imp hm hn (fun _ h => h) (fun _ _ h => h) fun _ _ h => h

theorem ask {f : Config → Op α} (h : Triple c n P (f c) Q E) : Triple c n P (Machine.askCfg >>= f) Q E := by
  intro s hc hp
  have := h s hc hp
  rw [runOp_bind]
  simpa [hc] using this

theorem pure {a : α} (h : ∀ v, P v → Q a v) : Triple c 0 P (Pure.pure a : Op α) Q E := fun _ hc hp =>
  ⟨hc, by simp, h _ hp⟩

theorem raise {st : Status} (h : ∀ v, P v → E ⟨st, none⟩ v) : Triple c 0 P (Machine.raise st : Op α) Q E :=
  fun _ hc hp => ⟨hc, by simp, h _ hp⟩

theorem ite {p : Prop} [Decidable p] {m m' : Op α} (h : p → Triple c n P m Q E) (h' : ¬ p → Triple c n P m' Q E) :
    Triple c n P (if p then m else m') Q E := by
  split
  · exact h ‹_›
  · exact h' ‹_›

theorem enter {op : OpName} {m : Op α} (hm : Triple c n P m Q E) : Triple c n P (Machine.enter op m) Q E :=
  fun s hc hp => by
    obtain ⟨h1, h2, h3⟩ := hm (s.setSeq (⟨op, 1⟩ :: s.seq)) hc hp
    rw [runOp_enter]
    exact ⟨h1, h2, h3⟩

theorem attempt {m : Op α} (hm : Triple c n P m Q E) :
    Triple c n P (Machine.attempt m) (Tried Q E) R' := fun s hc hp => by
  obtain ⟨h1, h2, h3⟩ := hm s hc hp
  rw [runOp_attempt]
  refine ⟨h1, h2, ?_⟩
  cases hr : (runOp m s).1 with
  | ok a => rw [hr] at h3; exact h3
  | error e => rw [hr] at h3; exact h3

theorem line {x : Nat} {m : Op α} (hm : Triple c n P m Q E) : Triple c n P (Machine.line x m) Q E := fun s hc hp => by
  obtain ⟨h1, h2, h3⟩ := hm (s.setSeq (seqAt x s.seq)) hc hp
  rw [runOp_line]
  exact ⟨h1, h2, h3⟩

/-- A statement, and what follows it. -/
theorem step {x : Nat} {m : Op α} {f : α → Op β} (hm : Triple c n P m Q E) (hf : ∀ a, Triple c k (Q a) (f a) R E) :
    Triple c (n + k) P (Machine.line x m >>= f) R E := bind (line hm) hf

/-- The statement that returns a value. -/
theorem done {x : Nat} {a : α} (h : ∀ v, P v → Q a v) : Triple c 0 P (Machine.line x (Pure.pure a : Op α)) Q E :=
  line (pure h)

theorem passOn {check : Status → List Nat} {m : Op α} (hm : Triple c n P m Q E) (he : ∀ e v, E e v → E ⟨e.status, none⟩ v) :
    Triple c n P (Machine.passOn check m) Q E := fun s hc hp => by
  obtain ⟨h1, h2, h3⟩ := hm s hc hp
  rw [runOp_passOn]
  refine ⟨h1, h2, ?_⟩
  cases hr : (runOp m s).1 with
  | ok a => rw [hr] at h3; exact h3
  | error e => rw [hr] at h3; exact he e _ h3

theorem waitUnits (x : Nat) : Triple c 0 P (Machine.waitUnits x) (fun _ => P) E := fun _ hc hp =>
  ⟨hc, by simp [frameCount], hp⟩

/-- A change of the scratch, as the view sees it. -/
theorem latch {f : Scratch → Scratch} {P' : View → Prop}
    (h : ∀ (v : View) (x : Scratch), v.sb = x.sb → v.rb = x.rb → v.kb = x.kb → v.ab = x.ab → P v →
      P' { v with sb := (f x).sb, rb := (f x).rb, kb := (f x).kb, ab := (f x).ab }) :
    Triple c 0 P (Machine.latch f) (fun _ => P') E := fun s hc hp =>
  ⟨hc, by simp, h (view s) s.scratch rfl rfl rfl rfl hp⟩

theorem peekScratch {f : Scratch → α} :
    Triple c 0 P (Machine.peek fun s => f s.scratch)
      (fun a v => P v ∧ ∃ x : Scratch, v.sb = x.sb ∧ v.rb = x.rb ∧ v.kb = x.kb ∧ v.ab = x.ab ∧ a = f x) E :=
  fun s hc hp => ⟨hc, by simp, hp, s.scratch, rfl, rfl, rfl, rfl, rfl⟩

theorem peekUid {f : Uid → α} : Triple c 0 P (Machine.peek fun s => f s.uid) (fun a v => P v ∧ a = f v.uid) E :=
  fun _ hc hp => ⟨hc, by simp, hp, rfl⟩

theorem updateUid {f : Uid → Uid} {P' : View → Prop} (h : ∀ v, P v → P' { v with uid := f v.uid }) :
    Triple c 0 P (Machine.update fun s => s.setUid (f s.uid)) (fun _ => P') E := fun s hc hp =>
  ⟨hc, by simp, h (view s) hp⟩

theorem setFatal {P' : View → Prop} (h : ∀ v, P v → P' { v with fatal := true }) :
    Triple c 0 P (Machine.update fun s => s.setFatal true) (fun _ => P') E := fun s hc hp =>
  ⟨hc, by simp, h (view s) hp⟩

theorem driveNrst {b : Bool} {P' : View → Prop} (h : ∀ v, P v → P' { v with nrst := b }) :
    Triple c 0 P (Machine.driveNrst b) (fun _ => P') E := fun s hc hp =>
  ⟨hc, by simp [frameCount], h (view s) hp⟩

theorem discovered (u : UidOut) : Triple c 0 P (Machine.update fun s => s.emit (.cardDiscovered u)) (fun _ => P) E :=
  fun _ hc hp => ⟨hc, by simp [frameCount], hp⟩

end Triple

/-- The persistent state and the host's list, the buffers left open. -/
def Lines (u : Uid) (r f : Bool) (h : List Packet) (v : View) : Prop :=
  v.uid = u ∧ v.nrst = r ∧ v.fatal = f ∧ v.host = h

/-- How the protocol operations fail: not with OK, and nothing is kept. -/
def ProtocolError (e : Raised) : Prop := e.status ≠ .ok ∧ e.back = none

namespace Triple

variable {u : Uid} {r f : Bool} {h : List Packet}

/-- A PICC exchange with a buffer: a reply no longer than it. -/
theorem piccExchange (hf : c.fifoCapacity ≤ 64) (check : Status → List Nat) (send : List Byte) (txLast : Bits3)
    (cap : BitVec 7) :
    Triple c (13 + send.length + c.commPollBound) P (Machine.piccExchange check send txLast (some cap))
      (fun a v => P v ∧ a.length ≤ cap.toNat) (fun e v => P v ∧ ProtocolError e) := by
  refine ask <| cost (n := BusOp.commCost c (exchangeCall c send txLast (some cap)) + 0) (bind
    (Q := fun b v => P v ∧ BusOp.CommOk c (exchangeCall c send txLast (some cap)) b) ?_ fun b => ?_)
    (by simp only [BusOp.commCost, exchangeCall]; simp; omega)
  · intro s hc hp
    obtain ⟨h1, h2, h3⟩ := lift (P := P) (BusOp.communicate (exchangeCall c send txLast (some cap)) hf) s hc hp
    rw [runOp_passOn]
    refine ⟨h1, h2, ?_⟩
    cases hr : (runOp (communicate (exchangeCall c send txLast (some cap))) s).1 with
    | ok a => rw [hr] at h3; exact h3
    | error e => rw [hr] at h3; exact ⟨h3.1, h3.2.1, rfl⟩
  · refine pure fun v ⟨hp, hb⟩ => ⟨hp, ?_⟩
    cases b with
    | none => exact absurd hb (by simp [BusOp.CommOk, exchangeCall])
    | some back => exact hb.2.1

/-- The chip's CRC of a frame. -/
theorem frameCrc (check : Status → List Nat) (data : List Byte) :
    Triple c (8 + data.length + c.crcPollBound) P (Machine.passOn check (Machine.calcCrc data data.length))
      (fun _ v => P v) (fun e v => P v ∧ ProtocolError e) := by
  refine imp (lift (BusOp.passOn (E := BusOp.CrcError c data.length) (BusOp.calcCrc data data.length) ?_)) (Nat.le_refl _)
    (fun _ h => h) (fun _ _ h => h.1) fun e v h => ⟨h.1, ?_⟩
  · rintro e (rfl | ⟨rfl, x⟩)
    · exact .inl rfl
    · exact .inr ⟨rfl, x⟩
  · rcases h.2 with rfl | ⟨rfl, -⟩ <;> exact ⟨by simp, rfl⟩

/-- A buffer is filled and read back. -/
theorem via {x : Nat} {g : Scratch → List Byte} {w : Scratch → Scratch} {m : List Byte → Op β} {P' : List Byte → View → Prop}
    (hw : ∀ (v : View) (x : Scratch), v.sb = x.sb → v.rb = x.rb → v.kb = x.kb → v.ab = x.ab → P v →
      P' (g (w x)) { v with sb := (w x).sb, rb := (w x).rb, kb := (w x).kb, ab := (w x).ab })
    (hm : ∀ a, Triple c n (P' a) (m a) R E) :
    Triple c n P (Machine.line x (Machine.latch w) >>= fun _ => Machine.peek (fun s => g s.scratch) >>= m) R E :=
  fun s hc hp => by
    simp only [runOp_bind, runOp_line, runOp_latch, andThen_ok, runOp_peek, State.setScratch_scratch]
    exact hm (g (w s.scratch)) ((s.setSeq (seqAt x s.seq)).setScratch (w s.scratch)) hc
      (hw (view s) s.scratch rfl rfl rfl rfl hp)

theorem takeAtqa : Triple c 0 P Machine.takeAtqa (fun _ => P) (fun e v => P v ∧ ProtocolError e) := by
  refine ask <| cost (bind peekScratch fun ab => line <| ite
    (fun _ => raise fun v p => ⟨p.1, by simp, rfl⟩) fun _ => done fun v p => p.1) (by omega)

theorem reqOrWup (hf : c.fifoCapacity ≤ 64) (b : Byte) :
    Triple c (14 + c.commPollBound) (Lines u r f h) (Machine.reqOrWup b) (fun _ => Lines u r f h)
      (fun e v => Lines u r f h v ∧ ProtocolError e) := by
  refine ask <| via (P' := fun sb v => Lines u r f h v ∧ sb.length = 1) (fun _ _ _ _ _ _ p => ⟨p, rfl⟩) fun sb => ?_
  by_cases hs : sb.length = 1
  · refine imp (step (piccExchange (P := Lines u r f h) hf _ sb _ _) fun ab =>
      bind (latch (P' := Lines u r f h) fun _ _ _ _ _ _ p => p.1) fun _ => takeAtqa) (by omega) (fun _ p => p.1)
      (fun _ _ p => p) fun _ _ p => p
  · exact fun _ _ p => absurd p.2 hs

theorem requestA (hf : c.fifoCapacity ≤ 64) :
    Triple c (14 + c.commPollBound) (Lines u r f h) Machine.requestA (fun _ => Lines u r f h)
      (fun e v => Lines u r f h v ∧ ProtocolError e) := enter <| ask <| reqOrWup hf _

theorem wakeupA (hf : c.fifoCapacity ≤ 64) :
    Triple c (14 + c.commPollBound) (Lines u r f h) Machine.wakeupA (fun _ => Lines u r f h)
      (fun e v => Lines u r f h v ∧ ProtocolError e) := enter <| ask <| reqOrWup hf _

theorem isNewCardPresent (hf : c.fifoCapacity ≤ 64) :
    Triple c (14 + c.commPollBound) (Lines u r f h) Machine.isNewCardPresent (fun _ => Lines u r f h)
      (fun _ _ => False) := by
  refine enter <| cost (step (attempt (requestA hf)) fun x => done fun v p => ?_) (by omega)
  cases x with
  | ok _ => exact p
  | error _ => exact p.1

/-! ### SELECT -/

/-- The state of `UID` while SELECT runs, before and after the copy (44_anticollision_select.md R201). -/
def Unconfirmed (u : Uid) (x : Uid) : Prop := ∃ b, b.length = 4 ∧ x = ⟨4, b, u.sak, false⟩

/-- `UID` and everything else after a SELECT that ended OK. -/
def Selected (r f : Bool) (h : List Packet) (a : UidOut) (v : View) : Prop :=
  ∃ b, b.length = 4 ∧ a.size = 4 ∧ a.bytes = b ∧ Lines ⟨4, b, a.sak, true⟩ r f h v

/-- The same after one that did not. -/
def NotSelected (u : Uid) (r f : Bool) (h : List Packet) (e : Raised) (v : View) : Prop :=
  ProtocolError e ∧ ∃ x, (x = u ∨ Unconfirmed u x) ∧ Lines x r f h v

theorem anticollExchange (hf : c.fifoCapacity ≤ 64) :
    Triple c (15 + c.commPollBound) (Lines u r f h) Machine.anticollExchange (fun _ => Lines u r f h)
      (NotSelected u r f h) := by
  refine ask <| via (P' := fun sb v => Lines u r f h v ∧ sb.length = 2) (fun _ _ _ _ _ _ p => ⟨p, rfl⟩) fun sb => ?_
  by_cases hs : sb.length = 2
  · exact imp (step (piccExchange (P := Lines u r f h) hf _ sb _ _) fun rb => latch fun _ _ _ _ _ _ p => p.1)
      (by omega) (fun _ p => p.1) (fun _ _ p => p) fun e v p => ⟨p.2, u, .inl rfl, p.1⟩
  · exact fun _ _ p => absurd p.2 hs

/-- A reply that is long enough has the UID bytes and the BCC. -/
theorem checkReplyLength (rb : List Byte) :
    Triple c 0 P (Machine.checkReplyLength rb) (fun _ v => P v ∧ 5 ≤ rb.length) (fun e v => P v ∧ ProtocolError e) :=
  ask <| line <| ite (fun _ => raise fun v p => ⟨p, by simp, rfl⟩) fun hl => pure fun v p => ⟨p, by omega⟩

theorem checkBcc (hb : c.bccFailStatus ≠ .ok) (rb : List Byte) :
    Triple c 0 P (Machine.checkBcc rb) (fun _ => P) (fun e v => P v ∧ ProtocolError e) :=
  ask <| line <| ite (fun _ => pure fun _ p => p) fun _ => raise fun _ p => ⟨p, hb, rfl⟩

theorem copyUid {rb : List Byte} (hl : 5 ≤ rb.length) {P' : View → Prop} (hp : ∀ v, P v → Lines u r f h v ∧ P' v)
    (hk : ∀ v x, P' v → P' { v with uid := x }) :
    Triple c 0 P (Machine.copyUid rb) (fun _ v => (∃ x, Unconfirmed u x ∧ Lines x r f h v) ∧ P' v) E := by
  refine cost (n := 0 + 0) (step (updateUid (f := Uid.unconfirmed)
    (P' := fun v => Lines (Uid.unconfirmed u) r f h v ∧ P' v) fun v p => ?_) fun _ => line <| line <|
    updateUid (f := fun x => Uid.copied x (rb.take 4)) fun v p => ?_) (by omega)
  · obtain ⟨⟨rfl, p2, p3, p4⟩, q⟩ := hp v p
    exact ⟨⟨rfl, p2, p3, p4⟩, hk v _ q⟩
  · obtain ⟨⟨p1, p2, p3, p4⟩, q⟩ := p
    have four : (rb.take 4).length = 4 := by simp; omega
    exact ⟨⟨_, ⟨rb.take 4, four, by simp [Uid.copied, Uid.unconfirmed, p1, four]⟩, rfl, p2, p3, p4⟩, hk v _ q⟩

theorem takeAnticoll (hb : c.bccFailStatus ≠ .ok) :
    Triple c 0 (Lines u r f h) Machine.takeAnticoll
      (fun _ v => (∃ x, Unconfirmed u x ∧ Lines x r f h v) ∧ 5 ≤ v.rb.length) (NotSelected u r f h) := by
  refine cost (n := 0 + (0 + (0 + 0))) (bind peekScratch fun rb => bind (imp (checkReplyLength rb) (Nat.le_refl _)
    (fun _ p => p) (fun _ _ p => p) fun e v p => ⟨p.2, u, .inl rfl, p.1.1⟩) fun _ => ?_) (by omega)
  by_cases hl : 5 ≤ rb.length
  · refine bind (copyUid hl (P' := fun v => v.rb = rb) (fun v p => ?_) fun _ _ p => p) fun _ =>
      imp (checkBcc hb rb) (Nat.le_refl _) (fun _ p => p) (fun _ v p => ⟨p.1, p.2 ▸ hl⟩)
        fun e v ⟨⟨⟨x, p1, p2⟩, _⟩, q⟩ => ⟨q, x, .inr p1, p2⟩
    obtain ⟨⟨p, x, -, h2, -, -, rfl⟩, -⟩ := p
    exact ⟨p, h2⟩
  · exact fun _ _ p => absurd p.2 hl

theorem selectExchange (hf : c.fifoCapacity ≤ 64) {x : Uid} :
    Triple c (15 + c.crcPollBound + (22 + c.commPollBound)) (fun v => Lines x r f h v ∧ 5 ≤ v.rb.length)
      Machine.selectExchange (fun _ => Lines x r f h) (fun e v => ProtocolError e ∧ Lines x r f h v) := by
  refine ask <| via (P' := fun sb v => Lines x r f h v ∧ v.sb = sb ∧ sb.length = 7)
    (fun v y _ h2 _ _ p => ⟨p.1, rfl, by
      have := p.2
      rw [h2] at this
      simp; omega⟩) fun sb => ?_
  by_cases hs : sb.length = 7
  · refine cost (n := 8 + sb.length + c.crcPollBound + (22 + c.commPollBound))
      (step (P := fun v => Lines x r f h v ∧ v.sb = sb ∧ sb.length = 7) (imp (frameCrc _ sb) (Nat.le_refl _)
        (fun _ p => p) (fun _ _ p => p) fun e v p => ⟨p.2, p.1.1⟩) fun crc => ?_) (by omega)
    refine via (P' := fun sb' v => Lines x r f h v ∧ sb'.length = 9)
      (fun v y h1 _ _ _ p => ⟨p.1, by simp [← h1, p.2.1, p.2.2]⟩) fun sb' => ?_
    by_cases hs' : sb'.length = 9
    · exact imp (step (piccExchange (P := Lines x r f h) hf _ sb' _ _) fun kb =>
        latch fun _ _ _ _ _ _ p => p.1) (by omega) (fun _ p => p.1) (fun _ _ p => p) fun e v p => ⟨p.2, p.1⟩
    · exact fun _ _ p => absurd p.2 hs'
  · exact fun _ _ p => absurd p.2.2 hs

theorem sakOf (kb : List Byte) :
    Triple c 0 P (Machine.sakOf kb) (fun _ => P) (fun e v => P v ∧ ProtocolError e) := by
  refine line ?_
  cases kb with
  | nil => exact raise fun v p => ⟨p, by simp, rfl⟩
  | cons sak rest => exact pure fun v p => p

theorem confirmUid {x : Uid} (hx : Unconfirmed u x) (sak : Byte) :
    Triple c 0 (Lines x r f h) (Machine.confirmUid sak) (Selected r f h) (NotSelected u r f h) := by
  obtain ⟨b, hb, rfl⟩ := hx
  refine cost (n := 0 + (0 + 0)) (step (updateUid (f := fun y => Uid.stored y sak)
    (P' := Lines ⟨4, b, sak, false⟩ r f h) fun v ⟨p1, p2, p3, p4⟩ => ⟨by simp [Uid.stored, p1], p2, p3, p4⟩) fun _ =>
    step (updateUid (f := Uid.confirmed) (P' := Lines ⟨4, b, sak, true⟩ r f h)
      fun v ⟨p1, p2, p3, p4⟩ => ⟨by simp [Uid.confirmed, p1], p2, p3, p4⟩) fun _ => line <|
    imp (peekUid (E := NotSelected u r f h)) (Nat.le_refl _) (fun _ p => p) (fun a v p => ?_) fun _ _ p => p) (by omega)
  obtain ⟨p, rfl⟩ := p
  refine ⟨b, hb, ?_⟩
  simp [Uid.out, p.1]
  exact p

theorem takeSak {x : Uid} (hx : Unconfirmed u x) :
    Triple c 0 (Lines x r f h) Machine.takeSak (Selected r f h) (NotSelected u r f h) :=
  cost (n := 0 + (0 + 0)) (bind peekScratch fun kb => bind (imp (sakOf kb) (Nat.le_refl _) (fun _ p => p.1)
    (fun _ _ p => p) fun _ _ p => ⟨p.2, x, .inr hx, p.1⟩) fun sak => confirmUid hx sak) (by omega)

theorem selectCard (hf : c.fifoCapacity ≤ 64) (hb : c.bccFailStatus ≠ .ok) :
    Triple c ((15 + c.commPollBound) + (15 + c.crcPollBound) + (22 + c.commPollBound)) (Lines u r f h)
      Machine.selectCard (Selected r f h) (NotSelected u r f h) := by
  refine enter <| cost (n := (15 + c.commPollBound) + (0 + ((15 + c.crcPollBound + (22 + c.commPollBound)) + 0)))
    (bind (anticollExchange hf) fun _ => bind (takeAnticoll hb) fun _ => ?_) (by omega)
  intro s hc ⟨⟨x, p2, p3⟩, p1⟩
  exact bind (imp (selectExchange hf) (Nat.le_refl _) (fun _ p => p) (fun _ _ p => p) fun e v p =>
    ⟨p.1, x, .inr p2, p.2⟩) (fun _ => takeSak p2) s hc ⟨p3, p1⟩

/-! ### HLTA, INITIALIZE, POLL -/

theorem haltA (hf : c.fifoCapacity ≤ 64) :
    Triple c ((10 + c.crcPollBound) + (15 + c.commPollBound)) (Lines u r f h) Machine.haltA (fun _ => Lines u r f h)
      (fun e v => Lines u r f h v ∧ ProtocolError e) := by
  refine enter <| ask <| via (P' := fun sb v => Lines u r f h v ∧ v.sb = sb ∧ sb.length = 2)
    (fun v y _ _ _ _ p => ⟨p, rfl, rfl⟩) fun sb => ?_
  by_cases hs : sb.length = 2
  · refine cost (n := 8 + sb.length + c.crcPollBound + (15 + c.commPollBound))
      (step (P := fun v => Lines u r f h v ∧ v.sb = sb ∧ sb.length = 2) (imp (frameCrc _ sb) (Nat.le_refl _)
        (fun _ p => p) (fun _ _ p => p) fun e v p => ⟨p.1.1, p.2⟩) fun crc => ?_) (by omega)
    refine via (P' := fun sb' v => Lines u r f h v ∧ sb'.length = 4)
      (fun v y h1 _ _ _ p => ⟨p.1, by simp [← h1, p.2.1, p.2.2]⟩) fun sb' => ?_
    by_cases hs' : sb'.length = 4
    · refine imp (step (attempt (R' := fun e v => Lines u r f h v ∧ ProtocolError e) (lift (P := Lines u r f h)
        (BusOp.communicate (exchangeCall c sb' 0 none) hf))) fun x => line ?_)
        (n := BusOp.commCost c (exchangeCall c sb' 0 none) + 0)
        (by simp only [BusOp.commCost, exchangeCall]; simp; omega) (fun _ p => p.1) (fun _ _ p => p) fun _ _ p => p
      have both : ∀ v, Tried (fun a v => Lines u r f h v ∧ BusOp.CommOk c (exchangeCall c sb' 0 none) a)
          (fun e v => Lines u r f h v ∧ BusOp.CommError e) x v → Lines u r f h v := by
        intro v p
        cases x with
        | ok _ => exact p.1
        | error _ => exact p.1
      cases hx : haltStatus (statusOf x) with
      | ok => exact pure both
      | _ => exact line (raise fun v p => ⟨both v p, by simp, rfl⟩)
    · exact fun _ _ p => absurd p.2 hs'
  · exact fun _ _ p => absurd p.2.2 hs

theorem hardReset : Triple c 0 (Lines u r f h) Machine.hardReset (fun _ => Lines u true f h) E :=
  enter <| ask <| cost (step (driveNrst (P' := Lines u false f h) fun _ p => ⟨p.1, rfl, p.2.2⟩) fun _ =>
    step (waitUnits _) fun _ => step (driveNrst (P' := Lines u true f h) fun _ p => ⟨p.1, rfl, p.2.2⟩) fun _ =>
    step (waitUnits _) fun _ => done fun _ p => p) (by omega)

theorem initializeOp (busOk : Bool) :
    Triple c 8 (Lines u r f h) (Machine.initializeOp busOk) (fun _ v => busOk = true ∧ Lines u true f h v)
      (fun e v => busOk = false ∧ e = ⟨.error, none⟩ ∧ Lines u r true h v) := by
  refine enter <| ite (fun hb => ?_) fun hb => ?_
  · exact imp (step hardReset fun _ => step (lift (e := fun _ => False) BusOp.initChip) fun _ => done
      (Q := fun _ => Lines u true f h) fun _ p => p.1) (by omega) (fun _ p => p) (fun _ _ p => ⟨hb, p⟩)
      fun _ _ p => p.2.elim
  · exact cost (step (setFatal (P' := Lines u r true h) fun _ p => ⟨p.1, p.2.1, rfl, p.2.2.2⟩) fun _ =>
      line <| raise fun v p => ⟨by simpa using hb, rfl, p⟩) (by omega)

theorem pollForCard (hf : c.fifoCapacity ≤ 64) (hb : c.bccFailStatus ≠ .ok) :
    Triple c ((14 + c.commPollBound) + ((15 + c.commPollBound) + (15 + c.crcPollBound) + (22 + c.commPollBound)) +
        ((10 + c.crcPollBound) + (15 + c.commPollBound)))
      (Lines u r f h) Machine.pollForCard
      (fun a v => match a with
        | some o => Selected r f h o v
        | none => ∃ x, (x = u ∨ Unconfirmed u x) ∧ Lines x r f h v)
      (fun _ _ => False) := by
  refine enter <| cost (n := (14 + c.commPollBound) + (((15 + c.commPollBound) + (15 + c.crcPollBound) +
    (22 + c.commPollBound)) + ((10 + c.crcPollBound) + (15 + c.commPollBound)))) (step (imp (isNewCardPresent hf)
    (Nat.le_refl _) (fun _ p => p) (fun _ _ p => p) fun _ _ p => p.elim) fun p => line <| ite (fun _ => ?_) fun _ =>
    cost (pure fun v hv => ⟨u, .inl rfl, hv⟩) (by omega)) (by omega)
  refine step (Q := fun found v => if found then ∃ a, Selected r f h a v
    else ∃ x, (x = u ∨ Unconfirmed u x) ∧ Lines x r f h v) ?_ fun found => line ?_
  · refine cost (n := _ + 0) (bind (attempt (selectCard hf hb)) fun x => pure fun v hv => ?_) (by omega)
    cases x with
    | ok a => exact ⟨a, hv⟩
    | error e =>
      obtain ⟨⟨e1, -⟩, hx⟩ := hv
      simpa [statusOf, e1] using hx
  · cases found with
    | false => exact cost (pure fun v hv => hv) (by omega)
    | true =>
      intro s hc hp
      obtain ⟨a, b, hb, h1, h2, h3⟩ := hp
      have go : Triple c ((10 + c.crcPollBound) + (15 + c.commPollBound)) (Lines ⟨4, b, a.sak, true⟩ r f h)
          (Machine.reportCard >>= fun u => Machine.line 8 (Pure.pure (some u))) (fun a v => match a with
            | some o => Selected r f h o v
            | none => ∃ x, (x = u ∨ Unconfirmed u x) ∧ Lines x r f h v) (fun _ _ => False) := by
        refine cost (n := ((10 + c.crcPollBound) + (15 + c.commPollBound)) + 0) (bind (Q := Selected r f h) (ask <|
          cost (n := 0 + (0 + ((10 + c.crcPollBound) + (15 + c.commPollBound)))) (bind peekUid fun o =>
          step (discovered o) fun _ => line <| ite (fun _ => ?_) fun _ => ?_) (by omega)) fun o => done fun v p => p)
          (by omega)
        · have out : ∀ v, (Lines ⟨4, b, a.sak, true⟩ r f h v ∧ o = Uid.out v.uid) → Selected r f h o v := by
            rintro v ⟨p, rfl⟩
            exact ⟨b, hb, by simp [Uid.out, p.1], by simp [Uid.out, p.1], by simpa [Uid.out, p.1] using p⟩
          by_cases ho : o = ⟨4, b, a.sak⟩
          · subst ho
            refine cost (n := _ + 0) (step (imp (attempt (haltA (u := ⟨4, b, a.sak, true⟩) hf)) (Nat.le_refl _)
              (fun _ p => p.1) (fun _ _ p => p) fun _ _ p => p) fun x => pure fun v p => ?_) (by omega)
            have p : Lines ⟨4, b, a.sak, true⟩ r f h v := by
              cases x with
              | ok _ => exact p
              | error _ => exact p.1
            exact ⟨b, hb, rfl, rfl, p⟩
          · exact fun _ _ p => absurd (by rw [p.2, p.1.1]; rfl) ho
        · exact cost (pure fun v ⟨p, e⟩ => ⟨b, hb, by simp [e, Uid.out, p.1], by simp [e, Uid.out, p.1], by
            simpa [e, Uid.out, p.1] using p⟩) (by omega)
      exact go s hc h3

end Triple

end Sys2Proof.Machine
end

