-- ==== Sys2Proof/Laws/Calls.lean ====
section
/-! SUPPORT. The protocol operations as what they make of the calls of COMM and CALCCRC inside them. -/

namespace Sys2Proof.Machine

variable {α β : Type} {G H K : Type} {g : Scratch → G} {b : G} {h : Scratch → H} {d : H} {k : Scratch → K} {l : K}
  {s t u : State}

/-- From every state that agrees with `s` and shows `b` in `g`, the sequence answers `r` and ends in a state that agrees
with `t`, and that shows `d` in `h` if it ended normally. -/
def Goes (g : Scratch → G) (b : G) (m : Op α) (s : State) (r : Except Raised α) (t : State) (h : Scratch → H) (d : H) :
    Prop :=
  ∀ s', Agree s' s → g s'.scratch = b →
    (runOp m s').1 = r ∧ Agree (runOp m s').2 t ∧ ∀ a, r = .ok a → h (runOp m s').2.scratch = d

/-- Nothing known of the scratch. -/
abbrev Blank : Scratch → Unit := fun _ => ()

namespace Goes

theorem ofEnds {m : Op α} {r : Except Raised α} (e : Ends g b m s r t) : Goes g b m s r t g b := fun s' a x => by
  obtain ⟨h1, h2, h3⟩ := e s' a x
  exact ⟨h1, h2, fun _ _ => h3⟩

theorem bind {m : Op α} {f : α → Op β} {a : α} {r : Except Raised β} (hm : Goes g b m s (.ok a) t h d)
    (hf : Goes h d (f a) t r u k l) : Goes g b (m >>= f) s r u k l := by
  intro s' x y
  obtain ⟨h1, h2, h3⟩ := hm s' x y
  rw [runOp_bind]
  rcases hs : runOp m s' with ⟨p, q⟩
  simp only [hs] at h1 h2 h3
  subst h1
  exact hf q h2 (h3 a rfl)

theorem bindError {m : Op α} {f : α → Op β} {e : Raised} (hm : Goes g b m s (.error e) t h d) :
    Goes g b (m >>= f) s (.error e) t k l := by
  intro s' x y
  obtain ⟨h1, h2, -⟩ := hm s' x y
  rw [runOp_bind]
  rcases hs : runOp m s' with ⟨p, q⟩
  simp only [hs] at h1 h2
  subst h1
  exact ⟨rfl, h2, fun a e => by simp at e⟩

theorem ask {f : Config → Op α} {r : Except Raised α} (hf : Goes g b (f s.cfg) s r t h d) :
    Goes g b (Machine.askCfg >>= f) s r t h d := bind (ofEnds Ends.askCfg) hf

theorem enter {op : OpName} {m : Op α} {r : Except Raised α} (hm : Goes g b m s r t h d) :
    Goes g b (Machine.enter op m) s r t h d := fun s' x y => by
  obtain ⟨h1, h2, h3⟩ := hm (s'.setSeq (⟨op, 1⟩ :: s'.seq)) ((agree_setSeq _ _).trans x) y
  rw [runOp_enter]
  exact ⟨h1, (agree_setSeq _ _).trans h2, h3⟩

theorem attempt {m : Op α} {r : Except Raised α} (hm : Goes g b m s r t h d) :
    Goes g b (Machine.attempt m) s (.ok r) t Blank () := fun s' x y => by
  obtain ⟨h1, h2, -⟩ := hm s' x y
  rw [runOp_attempt]
  exact ⟨by rw [h1], h2, fun _ _ => rfl⟩

theorem result (a : α) : Goes g b (Pure.pure a : Op α) s (.ok a) s g b := ofEnds (Ends.pure a)

theorem raise (st : Status) : Goes g b (Machine.raise st : Op α) s (.error ⟨st, none⟩) s h d := fun _ x _ =>
  ⟨rfl, x, fun a e => by simp at e⟩

theorem line {n : Nat} {m : Op α} {r : Except Raised α} (hm : Goes g b m s r t h d) :
    Goes g b (Machine.line n m) s r t h d := fun s' x y => by
  rw [runOp_line]
  exact hm _ ((agree_setSeq _ _).trans x) y

/-- A statement, and what follows it. -/
theorem step {n : Nat} {m : Op α} {f : α → Op β} {a : α} {r : Except Raised β} (hm : Goes g b m s (.ok a) t h d)
    (hf : Goes h d (f a) t r u k l) : Goes g b (Machine.line n m >>= f) s r u k l := bind (line hm) hf

/-- The statement that returns a value. -/
theorem done {n : Nat} (a : α) : Goes g b (Machine.line n (Pure.pure a : Op α)) s (.ok a) s g b := line (result a)

theorem latch {w : Scratch → Scratch} (e : ∀ x, g x = b → h (w x) = d) :
    Goes g b (Machine.latch w) s (.ok ()) s h d := fun s' x y =>
  ⟨rfl, (agree_setScratch _ _).trans x, fun _ _ => e s'.scratch y⟩

theorem peekScratch {w : Scratch → α} {a : α} (e : ∀ x, g x = b → w x = a) :
    Goes g b (Machine.peek fun s => w s.scratch) s (.ok a) s g b := fun s' x y =>
  ⟨by simp [e s'.scratch y], x, fun _ _ => y⟩

theorem peekUid {f : Uid → α} : Goes g b (Machine.peek fun s => f s.uid) s (.ok (f s.uid)) s g b := fun s' x y =>
  ⟨by simp [x.uid], x, fun _ _ => y⟩

theorem updateUid {f : Uid → Uid} :
    Goes g b (Machine.update fun s => s.setUid (f s.uid)) s (.ok ()) (s.setUid (f s.uid)) g b := fun s' x y =>
  ⟨rfl, by simp only [runOp_update, x.uid]; exact x.setUid _, fun _ _ => y⟩

theorem discovered (o : UidOut) :
    Goes g b (Machine.update fun s => s.emit (.cardDiscovered o)) s (.ok ()) (s.emit (.cardDiscovered o)) g b :=
  fun _ x y => ⟨rfl, x.emit _, fun _ _ => y⟩

theorem weaken {m : Op α} {r : Except Raised α} (hm : Goes g b m s r t h d) : Goes g b m s r t Blank () :=
  fun s' x y => ⟨(hm s' x y).1, (hm s' x y).2.1, fun _ _ => rfl⟩

/-- A view that sees the frame and reply buffers at most. -/
def Frames (g : Scratch → G) : Prop :=
  ∀ x y : Scratch, x.sb = y.sb → x.rb = y.rb → x.kb = y.kb → x.ab = y.ab → g x = g y

/-- A call, as the run it is. -/
theorem call {m : Op α} (hb : Blind (fun _ => ()) (fun _ => ()) m) (hv : Keeps (fun s t => view t = view s) m)
    (hg : Frames g) : Goes g b m s (runOp m s).1 (runOp m s).2 g b := fun s' x y => by
  obtain ⟨h1, h2⟩ := hb.run x
  refine ⟨h1, h2, fun _ _ => ?_⟩
  have v := hv s'
  rw [← y]
  exact hg _ _ (congrArg View.sb v) (congrArg View.rb v) (congrArg View.kb v) (congrArg View.ab v)

/-! ### The two calls -/

theorem comm (p : CommCall) (hg : Frames g) :
    Goes g b (communicate p) s (runOp (communicate p) s).1 (runOp (communicate p) s).2 g b :=
  call (Blind.communicate (fun _ _ _ _ _ => rfl) (fun _ _ => rfl) p) (Keeps.communicate busFrame_view p) hg

theorem crc (data : List Byte) (len : Nat) (hg : Frames g) :
    Goes g b (calcCrc data len) s (runOp (calcCrc data len) s).1 (runOp (calcCrc data len) s).2 g b :=
  call (Blind.calcCrc (fun _ _ _ _ _ => rfl) data len) (Keeps.calcCrc busFrame_view data len) hg

/-- A failure passed on, or the result. -/
theorem passOn {check : Status → List Nat} {m : Op α} {r : Except Raised α} (hm : Goes g b m s r t g b) :
    Goes g b (Machine.passOn check m) s (stripped r) t g b := fun s' x y => by
  obtain ⟨h1, h2, h3⟩ := hm s' x y
  rw [runOp_passOn]
  refine ⟨by rw [h1], (agree_setSeq _ _).trans h2, fun a ha => ?_⟩
  cases r with
  | ok c => exact h3 c rfl
  | error e => simp at ha

theorem exchange {check : Status → List Nat} {send : List Byte} {txLast : Bits3} {cap : Option (BitVec 7)} (hg : Frames g) :
    Goes g b (piccExchange check send txLast cap) s
      ((stripped (runOp (communicate (exchangeCall s.cfg send txLast cap)) s).1).map replyBytes)
      (runOp (communicate (exchangeCall s.cfg send txLast cap)) s).2 g b := by
  refine ask ?_
  have := passOn (check := check) (comm (g := g) (b := b) (s := s) (exchangeCall s.cfg send txLast cap) hg)
  cases hr : (runOp (communicate (exchangeCall s.cfg send txLast cap)) s).1 with
  | ok back => rw [hr] at this; exact bind this (result _)
  | error e => rw [hr] at this; exact bindError this

theorem exchange_ok {check : Status → List Nat} {send : List Byte} {txLast : Bits3} {cap : Option (BitVec 7)} {back : List Byte} (hg : Frames g)
    (hr : runOp (communicate (exchangeCall s.cfg send txLast cap)) s = (.ok (some back), t)) :
    Goes g b (piccExchange check send txLast cap) s (.ok back) t g b := by
  have := exchange (check := check) (g := g) (b := b) (s := s) (send := send) (txLast := txLast) (cap := cap) hg
  rw [hr] at this
  exact this

theorem exchange_error {check : Status → List Nat} {send : List Byte} {txLast : Bits3} {cap : Option (BitVec 7)} {e : Raised} (hg : Frames g)
    (hr : runOp (communicate (exchangeCall s.cfg send txLast cap)) s = (.error e, t)) :
    Goes g b (piccExchange check send txLast cap) s (.error ⟨e.status, none⟩) t g b := by
  have := exchange (check := check) (g := g) (b := b) (s := s) (send := send) (txLast := txLast) (cap := cap) hg
  rw [hr] at this
  exact this

end Goes

/-- A whole operation, from how its body goes. -/
theorem Goes.answers {m : Op α} {f : α → Results} {a : α} (e : Goes Blank () m s (.ok a) t h d) :
    Machine.operation (m >>= fun x => Pure.pure (f x)) s = endedOk (f a) t := by
  obtain ⟨h1, h2, -⟩ := e (s.setBusy true) (agree_setBusy s true) rfl
  rw [operation_eq, runOp_bind]
  rcases hs : runOp m (s.setBusy true) with ⟨r, x⟩
  simp only [hs] at h1 h2
  subst h1
  exact h2.respond _

theorem Goes.stops {m : Op α} {f : α → Op Results} {x : Raised} (e : Goes Blank () m s (.error x) t h d) :
    Machine.operation (m >>= f) s = respond (.error x) t := by
  obtain ⟨h1, h2, -⟩ := e (s.setBusy true) (agree_setBusy s true) rfl
  rw [operation_eq, runOp_bind]
  rcases hs : runOp m (s.setBusy true) with ⟨r, y⟩
  simp only [hs] at h1 h2
  subst h1
  exact h2.respond _

/-- The call an exchange makes is the one COMM makes of its operands. -/
theorem call_exchangeOperands (c : Config) (send : List Byte) (txLast : Bits3) (cap : Option (BitVec 7))
    (hl : send.length < 256) : CommOperands.call (exchangeOperands c send txLast cap) = exchangeCall c send txLast cap := by
  simp [CommOperands.call, exchangeOperands, exchangeCall]
  omega

theorem Config.fifo_le (c : Config) (hw : c.wf = true) : c.fifoCapacity ≤ 64 := by
  simp [Config.wf] at hw
  omega

/-- COMM run alone, and the call inside an operation whose state agrees: the same reply or failure, and states that
agree. -/
theorem comm_alone (o : CommOperands) (hw : t.cfg.wf = true) (a : Agree s t) :
    ∃ u q, exec (.comm o) s = .next u ∧ u.response = some q ∧
      ∃ r v, runOp (communicate (CommOperands.call o)) t = (r, v) ∧ Agree (unanswered u) v ∧ v.cfg = t.cfg ∧
        ((∃ back, r = .ok back ∧ q.status = .ok ∧ q.results = backResult back ∧
            BusOp.CommOk t.cfg (CommOperands.call o) back) ∨
          ∃ e, r = .error e ∧ q.status = e.status ∧ e.status ≠ .ok) := by
  obtain ⟨h1, h2⟩ :=
    (Blind.communicate (fun _ _ _ _ _ => rfl) (fun _ _ => rfl) (CommOperands.call o)).alone backResult a
  obtain ⟨h4, -, h3⟩ := BusOp.communicate (CommOperands.call o) (Config.fifo_le t.cfg hw) t rfl
  rcases hs : runOp (communicate (CommOperands.call o)) t with ⟨r, v⟩
  rw [hs] at h1 h2 h3 h4
  refine ⟨_, _, rfl, h2, r, v, rfl, h1, cfg_of_view h4, ?_⟩
  cases r with
  | ok x => exact .inl ⟨x, rfl, rfl, rfl, h3⟩
  | error e => exact .inr ⟨e, rfl, rfl, h3.1⟩

/-- The same of CALCCRC. -/
theorem crc_alone (len : Byte) (data : List Byte) (a : Agree s t) :
    ∃ u q, exec (.calccrc len data) s = .next u ∧ u.response = some q ∧
      ∃ r v, runOp (calcCrc data len.toNat) t = (r, v) ∧ Agree (unanswered u) v ∧ v.cfg = t.cfg ∧ v.uid = t.uid ∧
        ((∃ x, r = .ok x ∧ q.status = .ok ∧ q.results = { crc := some x }) ∨
          ∃ e, r = .error e ∧ q.status = e.status ∧ e.status ≠ .ok) := by
  obtain ⟨h1, h2⟩ := (Blind.calcCrc (fun _ _ _ _ _ => rfl) data len.toNat).alone
    (fun x => { noResult with crc := some x }) a
  obtain ⟨h4, -, h3⟩ := BusOp.calcCrc data len.toNat t rfl
  rcases hs : runOp (calcCrc data len.toNat) t with ⟨r, v⟩
  rw [hs] at h1 h2 h3 h4
  refine ⟨_, _, rfl, h2, r, v, rfl, h1, cfg_of_view h4, congrArg View.uid h4, ?_⟩
  cases r with
  | ok x => exact .inl ⟨x, rfl, rfl, rfl⟩
  | error e => exact .inr ⟨e, rfl, rfl, by rcases h3 with rfl | ⟨rfl, -⟩ <;> simp⟩

end Sys2Proof.Machine
end

