-- ==== Sys2Proof/Laws/Decode.lean ====
section
/-! SUPPORT. Each reader of the decoder takes back what the encoder wrote, and what a reader answers is in its
operand's domain. -/

namespace Sys2Proof

/-! ### Readers after writers -/

@[simp] theorem readByte_cons (b : Byte) (rest : List Byte) : readByte (b :: rest) = .ok (b, rest) := rfl

theorem setWidth_setWidth_of_lt {n : Nat} (h : n ≤ 8) (a : BitVec n) : (a.setWidth 8).setWidth n = a := by
  simp [BitVec.setWidth_setWidth_of_le, h]

@[simp] theorem readAddr_cons (a : Addr) (rest : List Byte) : readAddr (a.setWidth 8 :: rest) = .ok (a, rest) := by
  have : a.toNat < 64 := a.isLt
  rw [readAddr, if_pos (by rw [BitVec.toNat_setWidth]; omega), setWidth_setWidth_of_lt (by omega)]

@[simp] theorem readBits3_cons (field : OperandField) (x : Bits3) (rest : List Byte) :
    readBits3 field (x.setWidth 8 :: rest) = .ok (x, rest) := by
  have : x.toNat < 8 := x.isLt
  rw [readBits3, if_pos (by rw [BitVec.toNat_setWidth]; omega), setWidth_setWidth_of_lt (by omega)]

@[simp] theorem readBit_cons (field : OperandField) (b : Bool) (rest : List Byte) :
    readBit field (bitByte b :: rest) = .ok (b, rest) := by
  cases b <;> rfl

theorem readCap_cons (c : BitVec 7) (rest : List Byte) (h : c.toNat ≤ 64) :
    readCap (c.setWidth 8 :: rest) = .ok (c, rest) := by
  rw [readCap, if_pos (by rw [BitVec.toNat_setWidth]; omega), setWidth_setWidth_of_lt (by omega)]

theorem dataFits_length {len : Byte} {data : List Byte} (h : dataFits len data = true) :
    data.length = min len.toNat 64 := by simpa [dataFits] using h

theorem readData_append (len : Byte) (data rest : List Byte) (h : dataFits len data = true) :
    readData len (data ++ rest) = .ok (data, rest) := by
  rw [readData, ← dataFits_length h, if_pos (by simp)]
  simp

/-! ### The address byte -/

@[simp] theorem addressByte_bit0 (r : Bool) (a : Addr) : (addressByte r a)[0] = false := by
  revert r a; decide +kernel

@[simp] theorem addressByte_isRead (r : Bool) (a : Addr) : byteIsRead (addressByte r a) = r := by
  revert r a; decide +kernel

@[simp] theorem addressByte_addr (r : Bool) (a : Addr) : byteAddr (addressByte r a) = a := by
  revert r a; decide +kernel

/-! ### Domains of what is read -/

theorem readData_domain {len : Byte} {bytes data rest : List Byte} (h : readData len bytes = .ok (data, rest)) :
    dataFits len data = true := by
  rw [readData] at h
  split at h
  · injection h with h
    injection h with h1 h2
    subst h1
    simp [dataFits]
    omega
  · cases h

theorem readCap_domain {bytes rest : List Byte} {c : BitVec 7} (h : readCap bytes = .ok (c, rest)) : c.toNat ≤ 64 := by
  cases bytes with
  | nil => cases h
  | cons b bytes =>
    rw [readCap] at h
    split at h
    · injection h with h
      injection h with h1 h2
      subst h1
      rw [BitVec.toNat_setWidth]
      omega
    · cases h

/-- A sequence of write frames to one address, and its bytes. -/
theorem sequenceData_frames (b : Byte) (data : List Byte) :
    sequenceData b (data.flatMap fun v => [b, v]) = some data := by
  induction data with
  | nil => rfl
  | cons v rest ih => simp [sequenceData, ih]

/-- What `sequenceData` reads is a sequence of write frames. -/
theorem sequenceData_some {b : Byte} {data : List Byte} : ∀ {bytes : List Byte}, sequenceData b bytes = some data →
    bytes = data.flatMap fun v => [b, v]
  | [], h => by cases h; rfl
  | [_], h => by cases h
  | a :: v :: rest, h => by
    rw [sequenceData] at h
    split at h
    · next e =>
      obtain ⟨x, hx, rfl⟩ := Option.map_eq_some_iff.1 h
      rw [sequenceData_some hx, e]
      rfl
    · cases h

end Sys2Proof
end

