-- ==== Sys2Proof/Laws/Exec.lean ====
section
/-! SUPPORT. Every relation that the block's moves keep is kept by every instruction and every step. -/

namespace Sys2Proof.Machine

variable {R : State → State → Prop}

/-- A relation closed under everything an operation does: the moves on the bus, the changes of the persistent state,
the event, the acceptance of a request and the response. -/
structure MachineFrame (R : State → State → Prop) : Prop extends CallFrame R where
  uid : ∀ s u, R s (s.setUid u)
  nrst : ∀ s b, R s ((s.setNrst b).emit (.nrst b))
  fatal : ∀ s, R s (s.setFatal true)
  event : ∀ s u, R s (s.emit (.cardDiscovered u))
  busy : ∀ s b, R s (s.setBusy b)
  finish : ∀ r s, R s (respond r s)

namespace Keeps

theorem hardReset (F : MachineFrame R) : Keeps R Machine.hardReset :=
  have B := F.toBusFrame
  enter B <| bind B (askCfg B) fun _ => step B (fun s => F.nrst s false) fun _ => step B (waitUnits B _) fun _ =>
    step B (fun s => F.nrst s true) fun _ => step B (waitUnits B _) fun _ => done B ()

theorem copyUid (F : MachineFrame R) (rb : List Byte) : Keeps R (Machine.copyUid rb) :=
  have B := F.toBusFrame
  step B (fun s => F.uid s _) fun _ => line B <| line B fun s => F.uid s _

theorem takeAnticoll (F : MachineFrame R) : Keeps R Machine.takeAnticoll :=
  have B := F.toBusFrame
  bind B (peek B _) fun _ => bind B (checkReplyLength B _) fun _ => bind B (copyUid F _) fun _ => checkBcc B _

theorem takeSak (F : MachineFrame R) : Keeps R Machine.takeSak :=
  have B := F.toBusFrame
  bind B (peek B _) fun _ => bind B (sakOf B _) fun _ => step B (fun s => F.uid s _) fun _ =>
    step B (fun s => F.uid s _) fun _ => line B (peek B _)

theorem selectCard (F : MachineFrame R) : Keeps R Machine.selectCard :=
  have B := F.toBusFrame
  enter B <| bind B (anticollExchange F.toCallFrame) fun _ => bind B (takeAnticoll F) fun _ =>
    bind B (selectExchange F.toCallFrame) fun _ => takeSak F

theorem initializeOp (F : MachineFrame R) (b : Bool) : Keeps R (Machine.initializeOp b) :=
  have B := F.toBusFrame
  enter B <| ite (step B (hardReset F) fun _ => step B (initChip B) fun _ => done B ())
    (step B (fun s => F.fatal s) fun _ => line B (raise B _))

theorem reportCard (F : MachineFrame R) : Keeps R Machine.reportCard :=
  have B := F.toBusFrame
  bind B (askCfg B) fun _ => bind B (peek B _) fun _ => step B (fun s => F.event s _) fun _ => line B <|
    ite (step B (attempt (haltA F.toCallFrame)) fun _ => pure B _) (pure B _)

theorem pollForCard (F : MachineFrame R) : Keeps R Machine.pollForCard :=
  have B := F.toBusFrame
  enter B <| step B (isNewCardPresent F.toCallFrame) fun _ => line B <| ite
    (step B (bind B (attempt (selectCard F)) fun _ => pure B _) fun _ => line B <|
      ite (bind B (reportCard F) fun _ => done B _) (pure B _))
    (pure B _)

/-- One read frame, its answer used as one likes. -/
theorem readOnce {β : Type} (B : BusFrame R) (a : Addr) {f : List Byte → β} :
    Keeps R (Machine.askCfg >>= fun c => Machine.xfer (readFrame c a) >>= fun rx => Pure.pure (f rx)) :=
  fun s => B.exchange s _ (.inl ⟨a, rfl⟩)

/-- One write frame. -/
theorem writeOnce {β : Type} (B : BusFrame R) (a : Addr) (v : Byte) {b : β} :
    Keeps R (Machine.askCfg >>= fun c => Machine.xfer (writeFrame c a v) >>= fun _ => Pure.pure b) :=
  fun s => B.exchange s _ (.inr (.inl ⟨a, v, rfl⟩))

end Keeps

/-- A whole operation. -/
theorem operation_keeps (F : MachineFrame R) {m : Op Results} (h : Keeps R m) (s : State) : R s (operation m s) :=
  F.trans (F.trans (F.busy s true) (h _)) (F.finish _ _)

/-- Every instruction that answers a next state. -/
theorem exec_keeps (F : MachineFrame R) (i : Instr) (s t : State) (h : exec i s = .next t) : R s t := by
  have B := F.toBusFrame
  have C := F.toCallFrame
  have op : ∀ {m : Op Results}, Keeps R m → .next (operation m s) = Host.Outcome.next (φ := Fault) (ρ := Refusal) t →
      R s t := by
    intro m hm e
    injection e with e
    exact e ▸ operation_keeps F hm s
  cases i with
  | rdreg a => exact op (.bind B (.rdReg B a) fun _ => .pure B _) h
  | rdblk a len align => exact op (.bind B (.rdBlk B a _ _) fun _ => .pure B _) h
  | wrreg a v => exact op (.bind B (.wrReg B a v) fun _ => .pure B _) h
  | wrblk a len data => exact op (.bind B (.wrBlk B a _ _) fun _ => .pure B _) h
  | setbm a m => exact op (.bind B (.setBits B a m) fun _ => .pure B _) h
  | clrbm a m => exact op (.bind B (.clrBits B a m) fun _ => .pure B _) h
  | hreset => exact op (.bind B (.hardReset F) fun _ => .pure B _) h
  | sreset => exact op (.bind B (.softReset B) fun _ => .pure B _) h
  | init => exact op (.bind B (.initChip B) fun _ => .pure B _) h
  | anton => exact op (.bind B (.antennaOn B) fun _ => .pure B _) h
  | antoff => exact op (.bind B (.antennaOff B) fun _ => .pure B _) h
  | calccrc len data => exact op (.bind B (.calcCrc B _ _) fun _ => .pure B _) h
  | comm o => exact op (.bind B (.communicate B _) fun _ => .pure B _) h
  | select v =>
    simp only [exec, execSelect] at h
    split at h
    · exact op (.bind B (.selectCard F) fun _ => .pure B _) h
    · cases h
  | reqa => exact op (.bind B (.requestA C) fun _ => .pure B _) h
  | wupa => exact op (.bind B (.wakeupA C) fun _ => .pure B _) h
  | isnew => exact op (.bind B (.isNewCardPresent C) fun _ => .pure B _) h
  | hlta => exact op (.bind B (.haltA C) fun _ => .pure B _) h
  | initialise b => exact op (.bind B (.initializeOp F b) fun _ => .pure B _) h
  | poll => exact op (.bind B (.pollForCard F) fun _ => .pure B _) h
  | unassigned o => exact op (.raise B _) h
  | xferAbyteRd a => exact op (.readOnce B a) h
  | xferAbyteWr a v => exact op (.writeOnce B a v) h
  | xferRd1 a => exact op (.readOnce B a) h
  | xferRdn a n align => exact op (.bind B (.rdBlk B a _ _) fun _ => .pure B _) h
  | xferWr1 a v => exact op (.writeOnce B a v) h
  | xferWrn a data => exact op (.bind B (.wrBlk B a _ _) fun _ => .pure B _) h
  | xferReserved b => cases h
  | cmdIdle => exact op (.issueCommand B _) h
  | cmdCalccrc => exact op (.issueCommand B _) h
  | cmdTransceive => exact op (.issueCommand B _) h
  | cmdSoftreset => exact op (.issueCommand B _) h
  | bitframingValue st al tl => exact op (.bind B (.setBitFraming B _ _ _) fun _ => .pure B _) h
  | piccReqa => exact op (.exchangeResult B _ _ _) h
  | piccWupa => exact op (.exchangeResult B _ _ _) h
  | piccAnticollCl1 => exact op (.exchangeResult B _ _ _) h
  | piccSelectCl1 u0 u1 u2 u3 bcc lo hi => exact op (.exchangeResult B _ _ _) h
  | piccHlta lo hi => exact op (.exchangeResult B _ _ _) h
  | piccReplyAtqa a0 a1 => exact op (.bind B (.buffers C _) fun _ => .bind B (.takeAtqa B) fun _ => .pure B _) h
  | piccReplyAnticoll u0 u1 u2 u3 bcc =>
    exact op (.bind B (.buffers C _) fun _ => .bind B (.peek B _) fun _ => .bind B (.checkReplyLength B _) fun _ =>
      .bind B (.checkBcc B _) fun _ => .pure B _) h
  | piccReplySak sak extra =>
    exact op (.bind B (.buffers C _) fun _ => .bind B (.peek B _) fun _ => .bind B (.sakOf B _) fun _ => .pure B _) h
  | statusOk => exact op (.pure B _) h
  | statusError => exact op (.raise B _) h
  | statusCollision => exact op (.raise B _) h
  | statusTimeout => exact op (.raise B _) h
  | statusNoRoom => exact op (.raise B _) h
  | statusInvalid => exact op (.raise B _) h
  | statusCrcWrong => exact op (.raise B _) h

/-- Every instruction but the reserved address byte and a SELECT with VBITS not 0 answers a next state, whatever the
state and the chip. -/
theorem exec_completes (i : Instr) (s : State) (h1 : ∀ b, i ≠ .xferReserved b) (h2 : ∀ v, v ≠ 0 → i ≠ .select v) :
    ∃ t, exec i s = .next t := by
  cases i
  case xferReserved b => exact absurd rfl (h1 b)
  case select v =>
    by_cases hv : v = 0
    · exact ⟨_, by simp only [exec, execSelect, hv, if_true]; rfl⟩
    · exact absurd rfl (h2 v hv)
  all_goals exact ⟨_, rfl⟩

/-- What one step that answers a next state can be: nothing presented; a request ignored; or the instruction the
presented bytes decode to, its operands in their domains, run. -/
theorem step_cases (s t : State) (h : step s = .next t) :
    (s.host = [] ∧ t = s) ∨
    ∃ p rest, s.host = p :: rest ∧ s.cfg.wf = true ∧
      ((s.fatal = true ∨ s.busy = true) ∧ t = s.setHost rest ∨
        s.fatal = false ∧ s.busy = false ∧ ∃ i, decode p = .ok i ∧ operandsInDomain s.cfg i = true ∧
          exec i (s.setHost rest) = .next t) := by
  unfold step at h
  split at h
  · next e => exact .inl ⟨e, by injection h with h; exact h.symm⟩
  · next p rest e =>
    split at h
    · next w =>
      refine .inr ⟨p, rest, e, w, ?_⟩
      simp only [present, State.setHost_fatal, State.setHost_busy] at h
      by_cases hf : s.fatal = true
      · simp only [hf, if_true] at h
        injection h with h
        exact .inl ⟨.inl hf, h.symm⟩
      · by_cases hb : s.busy = true
        · simp only [hf, hb, if_true] at h
          injection h with h
          exact .inl ⟨.inr hb, h.symm⟩
        · simp only [hf, hb] at h
          refine .inr ⟨by simpa using hf, by simpa using hb, ?_⟩
          cases hd : decode p with
          | ok i =>
            by_cases ho : operandsInDomain s.cfg i = true
            · exact ⟨i, rfl, ho, by simpa [runPacket, hd, ho] using h⟩
            · simp [runPacket, hd, ho] at h
          | error e => simp [runPacket, hd] at h
    · cases h

end Sys2Proof.Machine
end

