-- ==== Sys2Proof/Laws/Memory.lean ====
section
/-! SUPPORT. The register array of SimpleRegChip: read after write, and that every operation on it keeps the canonical
form. -/

namespace Sys2Proof.Machine

/-- Below every listed address nothing is listed. -/
theorem memRead_low {r : Memory} {k y : Nat} (hr : ∀ c ∈ r, k < c.1) (hy : y ≤ k) : memRead r y = 0 := by
  induction r with
  | nil => rfl
  | cons d r ih =>
    have hd : k < d.1 := hr d (by simp)
    simp only [memRead]
    rw [if_neg (by omega)]
    exact ih fun c hc => hr c (by simp [hc])

/-- A read after a write: the byte written at its address, what was there before at every other. -/
theorem memRead_memWrite (m : Memory) (a x : Nat) (v : Byte) (h : Memory.wf m) :
    memRead (memWrite m a v) x = if x = a then v else memRead m x := by
  obtain ⟨hp, -⟩ := h
  induction m with
  | nil =>
    simp only [memWrite]
    split <;> simp only [memRead, eq_comm] <;> split <;> simp_all
  | cons c rest ih =>
    obtain ⟨k, w⟩ := c
    rw [List.pairwise_cons] at hp
    obtain ⟨hk, hrest⟩ := hp
    have above : ∀ y, y ≤ k → memRead rest y = 0 := fun y hy => memRead_low hk hy
    simp only [memWrite]
    split
    · next h1 =>
      split
      · next hv =>
        split
        · next hx =>
          subst hx hv
          simp only [memRead]
          rw [if_neg (by omega), above _ (by omega)]
        · rfl
      · simp only [memRead, eq_comm]
    · split
      · next h2 =>
        subst h2
        split
        · next hv =>
          split
          · next hx => rw [hx, above _ (Nat.le_refl _), hv]
          · next hx => simp only [memRead]; rw [if_neg (Ne.symm hx)]
        · split
          · next hx => simp only [memRead]; rw [if_pos hx.symm]
          · next hx => simp only [memRead]; rw [if_neg (Ne.symm hx), if_neg (Ne.symm hx)]
      · next h1 h2 =>
        simp only [memRead, ih hrest]
        by_cases hx : k = x
        · rw [if_pos hx, if_pos hx, if_neg (by omega)]
        · rw [if_neg hx, if_neg hx]

/-- A write lists no address but its own and those listed before. -/
theorem mem_memWrite {m : Memory} {a : Nat} {v : Byte} {c : Host.Cell} (h : c ∈ memWrite m a v) :
    c = (a, v) ∧ v ≠ 0 ∨ c ∈ m := by
  induction m with
  | nil =>
    by_cases hv : v = 0 <;> simp_all [memWrite]
  | cons d rest ih =>
    obtain ⟨k, w⟩ := d
    simp only [memWrite] at h
    split at h
    · split at h
      · exact .inr h
      · rcases List.mem_cons.mp h with h | h
        · exact .inl ⟨h, by assumption⟩
        · exact .inr h
    · split at h
      · split at h
        · exact .inr (List.mem_cons_of_mem _ h)
        · rcases List.mem_cons.mp h with h | h
          · exact .inl ⟨h, by assumption⟩
          · exact .inr (List.mem_cons_of_mem _ h)
      · rcases List.mem_cons.mp h with h | h
        · exact .inr (h ▸ List.mem_cons_self)
        · exact (ih h).imp_right (List.mem_cons_of_mem _)

/-- A write keeps the canonical form. -/
theorem memWrite_wf (m : Memory) (a : Nat) (v : Byte) (h : Memory.wf m) (ha : a < 64) : Memory.wf (memWrite m a v) := by
  obtain ⟨hp, hm⟩ := h
  refine ⟨?_, fun c hc => ?_⟩
  · induction m with
    | nil =>
      simp only [memWrite]
      split <;> simp
    | cons d rest ih =>
      obtain ⟨k, w⟩ := d
      rw [List.pairwise_cons] at hp
      obtain ⟨hk, hrest⟩ := hp
      simp only [memWrite]
      split
      · split
        · exact List.pairwise_cons.mpr ⟨hk, hrest⟩
        · refine List.pairwise_cons.mpr ⟨fun c hc => ?_, List.pairwise_cons.mpr ⟨hk, hrest⟩⟩
          rcases List.mem_cons.mp hc with hc | hc
          · subst hc; assumption
          · have := hk c hc
            simp only at this ⊢
            omega
      · split
        · next h2 =>
          split
          · exact hrest
          · exact List.pairwise_cons.mpr ⟨fun c hc => by have := hk c hc; simp only at this ⊢; omega, hrest⟩
        · refine List.pairwise_cons.mpr ⟨fun c hc => ?_, ih hrest fun c hc => hm c (List.mem_cons_of_mem _ hc)⟩
          rcases mem_memWrite hc with ⟨rfl, -⟩ | hc
          · simp only; omega
          · exact hk c hc
  · rcases mem_memWrite hc with ⟨rfl, hv⟩ | hc
    · exact ⟨hv, ha⟩
    · exact hm c hc

/-- Equal contents, equal data: the canonical form is unique. -/
theorem Memory.ext_of_wf {m n : Memory} (hm : Memory.wf m) (hn : Memory.wf n) (h : ∀ x, memRead m x = memRead n x) :
    m = n := by
  obtain ⟨hp, hz⟩ := hm
  obtain ⟨hp', hz'⟩ := hn
  induction m generalizing n with
  | nil =>
    cases n with
    | nil => rfl
    | cons d r => exact absurd (by simpa [memRead] using (h d.1).symm) (hz' d (by simp)).1
  | cons c r ih =>
    cases n with
    | nil => exact absurd (by simpa [memRead] using h c.1) (hz c (by simp)).1
    | cons d r' =>
      obtain ⟨k, w⟩ := c
      obtain ⟨k', w'⟩ := d
      rw [List.pairwise_cons] at hp hp'
      have hk : k = k' := by
        rcases Nat.lt_trichotomy k k' with lt | eq | lt
        · have := h k
          have l := memRead_low (r := (k', w') :: r') (k := k) (y := k) (fun c hc => by
            rcases List.mem_cons.mp hc with e | e
            · subst e; exact lt
            · have := hp'.1 c e; simp only at this; omega) le_rfl
          rw [l] at this
          exact absurd (by simpa [memRead] using this) (hz (k, w) (by simp)).1
        · exact eq
        · have := h k'
          have l := memRead_low (r := (k, w) :: r) (k := k') (y := k') (fun c hc => by
            rcases List.mem_cons.mp hc with e | e
            · subst e; exact lt
            · have := hp.1 c e; simp only at this; omega) le_rfl
          rw [l] at this
          exact absurd (by simpa [memRead] using this.symm) (hz' (k', w') (by simp)).1
      subst hk
      have hw : w = w' := by simpa [memRead] using h k
      subst hw
      congr 1
      refine ih (fun x => ?_) hp.2 (fun c hc => hz c (by simp [hc])) hp'.2 fun c hc => hz' c (by simp [hc])
      by_cases hx : x ≤ k
      · rw [memRead_low hp.1 hx, memRead_low hp'.1 hx]
      · have := h x
        simpa [memRead, show ¬ k = x by omega] using this

/-- No exchange spoils the fixture's canonical form. -/
theorem chipAfter_ok (c : Chip) (tx : List Byte) (h : ChipOk c) : ChipOk (chipAfter c tx) := by
  cases c with
  | oracle answers => trivial
  | simpleRegs m =>
    have h : Memory.wf m := h
    simp only [chipAfter]
    split
    · split
      · exact h
      · exact memWrite_wf _ _ _ h (byteAddr _).isLt
    · exact h

theorem reset_chipOk : ChipOk State.reset.chip := trivial

end Sys2Proof.Machine
end

