-- ==== Sys2Proof/Laws/PerInstr.lean ====
section
/-! SUPPORT. What is said of every instruction as syntax, one lemma a constructor. -/

namespace Sys2Proof.Laws.EncodedLength

open Sys2Proof

/-- The bytes of a well-formed instruction are at least one and at most 128: a sequence of 64 write frames of two bytes
is the longest (30_encoding.md R86). -/
def Statement (i : Instr) : Prop := i.wf = true → 1 ≤ (encode i).bytes.length ∧ (encode i).bytes.length ≤ 128

theorem data_le {len : Byte} {data : List Byte} (h : dataFits len data = true) : data.length ≤ 64 := by
  simp [dataFits] at h
  omega

theorem rdreg (addr : Addr) : Statement (Instr.rdreg addr) := fun _ => ⟨by simp [encode], by simp [encode]⟩
theorem rdblk (addr : Addr) (len : Byte) (align : Bits3) : Statement (Instr.rdblk addr len align) := fun _ => ⟨by simp [encode], by simp [encode]⟩
theorem wrreg (addr : Addr) (val : Byte) : Statement (Instr.wrreg addr val) := fun _ => ⟨by simp [encode], by simp [encode]⟩
theorem wrblk (addr : Addr) (len : Byte) (data : List Byte) : Statement (Instr.wrblk addr len data) := fun h => by
  have := data_le (show dataFits len data = true from h)
  simp [encode]
  omega
theorem setbm (addr : Addr) (mask : Byte) : Statement (Instr.setbm addr mask) := fun _ => ⟨by simp [encode], by simp [encode]⟩
theorem clrbm (addr : Addr) (mask : Byte) : Statement (Instr.clrbm addr mask) := fun _ => ⟨by simp [encode], by simp [encode]⟩
theorem hreset : Statement (Instr.hreset) := fun _ => ⟨by simp [encode], by simp [encode]⟩
theorem sreset : Statement (Instr.sreset) := fun _ => ⟨by simp [encode], by simp [encode]⟩
theorem init : Statement (Instr.init) := fun _ => ⟨by simp [encode], by simp [encode]⟩
theorem anton : Statement (Instr.anton) := fun _ => ⟨by simp [encode], by simp [encode]⟩
theorem antoff : Statement (Instr.antoff) := fun _ => ⟨by simp [encode], by simp [encode]⟩
theorem calccrc (len : Byte) (data : List Byte) : Statement (Instr.calccrc len data) := fun h => by
  have := data_le (show dataFits len data = true from h)
  simp [encode]
  omega
theorem comm (args : CommOperands) : Statement (Instr.comm args) := fun h => by
  have := data_le (Bool.and_eq_true_iff.1 h).1
  simp [encode, encodeComm]
  omega
theorem select (vbits : Byte) : Statement (Instr.select vbits) := fun _ => ⟨by simp [encode], by simp [encode]⟩
theorem reqa : Statement (Instr.reqa) := fun _ => ⟨by simp [encode], by simp [encode]⟩
theorem wupa : Statement (Instr.wupa) := fun _ => ⟨by simp [encode], by simp [encode]⟩
theorem isnew : Statement (Instr.isnew) := fun _ => ⟨by simp [encode], by simp [encode]⟩
theorem hlta : Statement (Instr.hlta) := fun _ => ⟨by simp [encode], by simp [encode]⟩
theorem initialise (busOk : Bool) : Statement (Instr.initialise busOk) := fun _ => ⟨by simp [encode], by simp [encode]⟩
theorem poll : Statement (Instr.poll) := fun _ => ⟨by simp [encode], by simp [encode]⟩
theorem unassigned (op : Byte) : Statement (Instr.unassigned op) := fun _ => ⟨by simp [encode], by simp [encode]⟩
theorem xferAbyteRd (addr : Addr) : Statement (Instr.xferAbyteRd addr) := fun _ => ⟨by simp [encode], by simp [encode]⟩
theorem xferAbyteWr (addr : Addr) (val : Byte) : Statement (Instr.xferAbyteWr addr val) := fun _ => ⟨by simp [encode], by simp [encode]⟩
theorem xferRd1 (addr : Addr) : Statement (Instr.xferRd1 addr) := fun _ => ⟨by simp [encode], by simp [encode]⟩
theorem xferRdn (addr : Addr) (count : BitVec 7) (align : Bits3) : Statement (Instr.xferRdn addr count align) := fun h => by
  simp [Instr.wf] at h
  simp [encode]
  omega
theorem xferWr1 (addr : Addr) (val : Byte) : Statement (Instr.xferWr1 addr val) := fun _ => ⟨by simp [encode], by simp [encode]⟩
theorem xferWrn (addr : Addr) (data : List Byte) : Statement (Instr.xferWrn addr data) := fun h => by
  simp [Instr.wf] at h
  simp [encode, List.length_flatMap]
  omega
theorem xferReserved (byte0 : Byte) : Statement (Instr.xferReserved byte0) := fun _ => ⟨by simp [encode], by simp [encode]⟩
theorem cmdIdle : Statement (Instr.cmdIdle) := fun _ => ⟨by simp [encode], by simp [encode]⟩
theorem cmdCalccrc : Statement (Instr.cmdCalccrc) := fun _ => ⟨by simp [encode], by simp [encode]⟩
theorem cmdTransceive : Statement (Instr.cmdTransceive) := fun _ => ⟨by simp [encode], by simp [encode]⟩
theorem cmdSoftreset : Statement (Instr.cmdSoftreset) := fun _ => ⟨by simp [encode], by simp [encode]⟩
theorem bitframingValue (start : Bool) (align txLast : Bits3) : Statement (Instr.bitframingValue start align txLast) := fun _ => ⟨by simp [encode], by simp [encode]⟩
theorem piccReqa : Statement (Instr.piccReqa) := fun _ => ⟨by simp [encode], by simp [encode]⟩
theorem piccWupa : Statement (Instr.piccWupa) := fun _ => ⟨by simp [encode], by simp [encode]⟩
theorem piccAnticollCl1 : Statement (Instr.piccAnticollCl1) := fun _ => ⟨by simp [encode], by simp [encode]⟩
theorem piccSelectCl1 (u0 u1 u2 u3 bcc crcLo crcHi : Byte) : Statement (Instr.piccSelectCl1 u0 u1 u2 u3 bcc crcLo crcHi) := fun _ => ⟨by simp [encode], by simp [encode]⟩
theorem piccHlta (crcLo crcHi : Byte) : Statement (Instr.piccHlta crcLo crcHi) := fun _ => ⟨by simp [encode], by simp [encode]⟩
theorem piccReplyAtqa (a0 a1 : Byte) : Statement (Instr.piccReplyAtqa a0 a1) := fun _ => ⟨by simp [encode], by simp [encode]⟩
theorem piccReplyAnticoll (u0 u1 u2 u3 bcc : Byte) : Statement (Instr.piccReplyAnticoll u0 u1 u2 u3 bcc) := fun _ => ⟨by simp [encode], by simp [encode]⟩
theorem piccReplySak (sak : Byte) (extra : List Byte) : Statement (Instr.piccReplySak sak extra) := fun h => by
  simp [Instr.wf] at h
  simp [encode]
  omega
theorem statusOk : Statement (Instr.statusOk) := fun _ => ⟨by simp [encode], by simp [encode]⟩
theorem statusError : Statement (Instr.statusError) := fun _ => ⟨by simp [encode], by simp [encode]⟩
theorem statusCollision : Statement (Instr.statusCollision) := fun _ => ⟨by simp [encode], by simp [encode]⟩
theorem statusTimeout : Statement (Instr.statusTimeout) := fun _ => ⟨by simp [encode], by simp [encode]⟩
theorem statusNoRoom : Statement (Instr.statusNoRoom) := fun _ => ⟨by simp [encode], by simp [encode]⟩
theorem statusInvalid : Statement (Instr.statusInvalid) := fun _ => ⟨by simp [encode], by simp [encode]⟩
theorem statusCrcWrong : Statement (Instr.statusCrcWrong) := fun _ => ⟨by simp [encode], by simp [encode]⟩

end Sys2Proof.Laws.EncodedLength
end

