-- ==== Sys2Proof/Tests/Slice0.lean ====
section
/-! SUPPORT. The model against the spec's own vectors (95_test_vectors.md), words written out from its encodings, an
ill-formed term for every check of WellFormed, and a witness for the hypotheses of every obligation that has some. -/

namespace Sys2Proof.Tests

set_option Elab.async false

open Sys2Proof.Machine

/-! ### A small state and what is seen of a run -/

/-- The configuration the vectors assume (95_test_vectors.md), the three open parameters chosen. -/
def cfg : Config := { Config.default with softResetPollBound := 3, haltAfterRead := true, timeUnit := 1 }

/-- After the block's reset, the chip with these answers laid up. -/
def start (answers : List Byte) : State := { State.reset with cfg := cfg, nrst := true, chip := .oracle answers }

/-- The same with other poll bounds. -/
def bounded (crc comm : Nat) (answers : List Byte) : State :=
  { start answers with cfg := { cfg with crcPollBound := crc, commPollBound := comm } }

/-- The frames of a trace, oldest first, what was sent only. -/
def frames (trace : List Event) : List (List Byte) :=
  trace.reverse.filterMap fun e => match e with
    | .xfer tx _ => some tx
    | _ => none

/-- The state after, if there is one. -/
def after (i : Instr) (s : State) : Option State :=
  match exec i s with
  | .next t => some t
  | _ => none

/-- The status, the results, and the frames. -/
def seen (i : Instr) (s : State) : Option (Status × Results × List (List Byte)) :=
  (after i s).bind fun t => t.response.map fun r => (r.status, r.results, frames t.trace)

/-- The status and the number of frames. -/
def counted (i : Instr) (s : State) : Option (Status × Nat) :=
  (seen i s).map fun x => (x.1, x.2.2.length)

/-- The status and the results. -/
def answered (i : Instr) (s : State) : Option (Status × Results) := (seen i s).map fun x => (x.1, x.2.1)

/-! ### Register access: V1.2 to V1.9 -/

theorem test_rdreg : seen (.rdreg 0x06) (start [0x13]) = some (.ok, { rval := some 0x13 }, [[0x8C, 0x00]]) := by
  decide +kernel

theorem test_rdblk_masks_first : seen (.rdblk 0x09 3 4) (start [0xAB, 0xCD, 0xEF]) =
    some (.ok, { rlen := some 3, rdata := some [0xA0, 0xCD, 0xEF] }, [[0x92, 0x92, 0x92, 0x00]]) := by decide +kernel

theorem test_rdblk_lengths : seen (.rdblk 0x09 0 0) (start []) = some (.ok, { rlen := some 0, rdata := some [] }, []) ∧
    counted (.rdblk 0x09 65 0) (start []) = some (.noRoom, 0) := by decide +kernel

theorem test_wrreg : seen (.wrreg 0x01 0x0C) (start []) = some (.ok, {}, [[0x02, 0x0C]]) := by decide +kernel

theorem test_wrblk : seen (.wrblk 0x09 2 [0x93, 0x20]) (start []) = some (.ok, {}, [[0x12, 0x93], [0x12, 0x20]]) := by
  decide +kernel

theorem test_wrblk_lengths : counted (.wrblk 0x09 0 []) (start []) = some (.ok, 0) ∧
    counted (.wrblk 0x09 65 (List.replicate 64 0)) (start []) = some (.noRoom, 0) := by decide +kernel

theorem test_setbm : seen (.setbm 0x0A 0x80) (start [0x05]) = some (.ok, {}, [[0x94, 0x00], [0x14, 0x85]]) := by
  decide +kernel

theorem test_clrbm : seen (.clrbm 0x05 0x04) (start [0xFF]) = some (.ok, {}, [[0x8A, 0x00], [0x0A, 0xFB]]) ∧
    seen (.clrbm 0x05 0xFF) (start [0x5A]) = some (.ok, {}, [[0x8A, 0x00], [0x0A, 0x00]]) := by decide +kernel

theorem test_unassigned : [0x07, 0x00, 0x15, 0x44, 0x62, 0xFF].all (fun op =>
    counted (.unassigned op) (start []) == some (.invalid, 0)) = true := by decide +kernel

/-! ### Lifecycle: V2.1 to V2.5 -/

theorem test_hreset : (after .hreset (start [])).map (fun t => (t.nrst, t.trace.tail)) =
    some (true, [.wait 50, .nrst true, .wait 50, .nrst false]) := by decide +kernel

theorem test_sreset : seen .sreset (start [0x10, 0x00]) =
      some (.ok, {}, [[0x02, 0x0F], [0x82, 0x00], [0x82, 0x00]]) ∧
    counted .sreset (start [0xEF]) = some (.ok, 2) ∧
    counted .sreset (start [0x10, 0x10, 0x10]) = some (.timeout, 4) := by decide +kernel

theorem test_anton : [((0x00 : Byte), some (0x03 : Byte)), (0x01, some 0x03), (0x02, some 0x03), (0x03, none),
      (0x80, some 0x83), (0x83, none), (0xFC, some 0xFF), (0xFF, none)].all (fun p =>
    seen .anton (start [p.1]) == some (.ok, {}, [0xA8, 0x00] :: (p.2.map fun v => [0x28, v]).toList)) = true := by
  decide +kernel

theorem test_antoff : seen .antoff (start [0x83]) = some (.ok, {}, [[0xA8, 0x00], [0x28, 0x80]]) ∧
    seen .antoff (start [0x00]) = some (.ok, {}, [[0xA8, 0x00], [0x28, 0x00]]) := by decide +kernel

theorem test_init : seen .init (start [0x80]) = some (.ok, {}, [[0x54, 0x80], [0x56, 0xA9], [0x58, 0x03], [0x5A, 0xE8],
      [0x2A, 0x40], [0x22, 0x3D], [0xA8, 0x00], [0x28, 0x83]]) ∧
    counted .init (start [0x83]) = some (.ok, 7) := by decide +kernel

/-! ### The CRC coprocessor: V8, V3.1 to V3.4 -/

theorem test_calccrc : seen (.calccrc 2 [0x50, 0x00]) (start [0x00, 0x00, 0x04, 0x57, 0xCD]) =
    some (.ok, { crc := some (0x57, 0xCD) }, [[0x02, 0x00], [0x8A, 0x00], [0x0A, 0x00], [0x94, 0x00], [0x14, 0x80],
      [0x12, 0x50], [0x12, 0x00], [0x02, 0x03], [0x8A, 0x00], [0xC4, 0x00], [0xC2, 0x00]]) := by decide +kernel

theorem test_calccrc_ends : counted (.calccrc 2 [0x50, 0x00]) (bounded 2 2 [0, 0, 0, 0]) = some (.timeout, 10) ∧
    counted (.calccrc 65 (List.replicate 64 0)) (start []) = some (.noRoom, 0) := by decide +kernel

theorem test_crcA : crcA 0x6363 [] = (0x63, 0x63) ∧ crcA 0x6363 [0x00, 0x00] = (0xA0, 0x1E) ∧
    crcA 0x6363 [0x12, 0x34] = (0x26, 0xCF) ∧ crcA 0x6363 [0x50, 0x00] = (0x57, 0xCD) ∧
    crcA 0x6363 [0x93, 0x70, 0x12, 0x34, 0x56, 0x78, 0x08] = (0x3C, 0xA2) := by decide +kernel

/-! ### COMM: V4.0 to V4.12 -/

/-- The call of V4.0. -/
def reqaCall : CommOperands := ⟨0x0C, 0x30, 1, [0x26], 0, 7, false, true, 2⟩

/-- The call of V4.12. -/
def checkedCall : CommOperands := ⟨0x0C, 0x30, 1, [0x93], 0, 0, true, true, 3⟩

/-- A call without an output buffer. -/
def silentCall : CommOperands := ⟨0x0C, 0x30, 1, [0x26], 0, 7, false, false, 0⟩

/-- The state whose chip answers the four read-modify-writes of COMM with 0, then with these bytes. -/
def tail (bytes : List Byte) : State := start ([0, 0, 0, 0] ++ bytes)

theorem test_comm : seen (.comm reqaCall) (start [0, 0, 0, 0x07, 0x30, 0, 2, 0x04, 0x00]) =
    some (.ok, { rlen := some 2, rdata := some [0x04, 0x00] }, [[0x08, 0x7F], [0x94, 0x00], [0x14, 0x80], [0x12, 0x26],
      [0x9A, 0x00], [0x1A, 0x00], [0x9A, 0x00], [0x1A, 0x07], [0x02, 0x0C], [0x9A, 0x00], [0x1A, 0x87], [0x88, 0x00],
      [0x8C, 0x00], [0x94, 0x00], [0x92, 0x92, 0x00]]) := by decide +kernel

theorem test_comm_ends : counted (.comm reqaCall) (tail [0x31]) = some (.timeout, 12) ∧
    counted (.comm reqaCall) (tail [0x20, 0x1B]) = some (.error, 13) ∧
    counted (.comm reqaCall) (tail [0x20, 0x08, 2, 4, 0]) = some (.collision, 15) ∧
    counted (.comm reqaCall) (tail [0x20, 0x08, 3]) = some (.noRoom, 14) ∧
    counted (.comm reqaCall) (tail [0x20, 0x00, 0]) = some (.ok, 14) ∧
    counted (.comm reqaCall) (bounded 2 3 [0, 0, 0, 0, 0, 0, 0]) = some (.timeout, 14) ∧
    counted (.comm { reqaCall with len := 65, data := List.replicate 64 0 }) (start []) = some (.noRoom, 0) ∧
    counted (.comm ⟨0x00, 0x10, 0, [], 0, 0, false, false, 0⟩) (start [0, 0, 0, 0x10, 0]) = some (.ok, 10) := by
  decide +kernel

theorem test_comm_framing : seen (.comm { reqaCall with align := 3, txLast := 0 }) (tail [0x20, 0, 2, 0xFF, 0xFF]) =
    some (.ok, { rlen := some 2, rdata := some [0xF8, 0xFF] }, [[0x08, 0x7F], [0x94, 0x00], [0x14, 0x80], [0x12, 0x26],
      [0x9A, 0x00], [0x1A, 0x00], [0x9A, 0x00], [0x1A, 0x30], [0x02, 0x0C], [0x9A, 0x00], [0x1A, 0x80], [0x88, 0x00],
      [0x8C, 0x00], [0x94, 0x00], [0x92, 0x92, 0x00]]) := by decide +kernel

theorem test_comm_check :
    counted (.comm checkedCall) (tail [0x20, 0, 3, 0x08, 0xB6, 0xDD, 0, 0, 4, 0xB6, 0xDD]) = some (.ok, 25) ∧
    counted (.comm checkedCall) (tail [0x20, 0, 3, 0x08, 0xB6, 0xDC, 0, 0, 4, 0xB6, 0xDD]) = some (.crcWrong, 25) ∧
    counted (.comm checkedCall) (tail [0x20, 0, 2, 0x08, 0xB6]) = some (.crcWrong, 15) ∧
    answered (.comm checkedCall) (bounded 2 3 [0, 0, 0, 0, 0x20, 0, 3, 0x08, 0xB6, 0xDD, 0, 0, 0, 0]) =
      some (.timeout, {}) := by decide +kernel

/-! ### Requests, SELECT, HLTA: V5.0 to V6.4, P2, P4 -/

theorem test_reqa : answered .reqa (tail [0x30, 0, 2, 0x04, 0x00]) = some (.ok, { atqa := some (0x04, 0x00) }) ∧
    answered .reqa (tail [0x30, 8, 2, 0x04, 0x00]) = some (.collision, {}) ∧
    answered .reqa (tail [0x01]) = some (.timeout, {}) ∧ answered .reqa (tail [0x30, 2]) = some (.error, {}) ∧
    answered .reqa (tail [0x30, 0, 3]) = some (.noRoom, {}) ∧
    answered .reqa (tail [0x30, 0, 1, 4]) = some (.invalid, {}) ∧
    answered .reqa (tail [0x30, 0, 0]) = some (.invalid, {}) := by decide +kernel

theorem test_wupa_sends : (seen .wupa (tail [0x01])).map (fun x => (x.1, x.2.2[3]?, x.2.2[7]?)) =
    some (.timeout, some [0x12, 0x52], some [0x1A, 0x07]) := by decide +kernel

theorem test_isnew : [([0x30, 0, 2, 0x04, 0x00], true), ([0x30, 8, 2, 0x04, 0x00], true), ([0x01], false),
      ([0x30, 2], false), ([0x30, 0, 3], false), ([0x30, 0, 1, 4], false), ([0x30, 0, 0], false)].all (fun p =>
    answered .isnew (tail p.1) == some (.ok, { present := some p.2 })) = true := by decide +kernel

/-- The answers of P2. -/
def p2 : List Byte := [0x00, 0x87, 0x00, 0x00, 0x04, 0x30, 0x00, 0x05, 0x12, 0x34, 0x56, 0x78, 0x08] ++
  [0x04, 0x00, 0x00, 0x04, 0x3C, 0xA2] ++ [0x00, 0x80, 0x00, 0x00, 0x30, 0x00, 0x01, 0x08]

theorem test_select : (after (.select 0) (start p2)).map (fun t => (t.uid, t.response.map (·.results), t.chip)) =
    some (⟨4, [0x12, 0x34, 0x56, 0x78], 0x08, true⟩,
      some { uidOut := some ⟨4, [0x12, 0x34, 0x56, 0x78], 0x08⟩ }, .oracle []) := by decide +kernel

theorem test_select_frames : (seen (.select 0) (start p2)).map (fun x => (x.2.2.length, x.2.2.drop 34 |>.take 12)) =
    some (57, [[0x08, 0x7F], [0x94, 0x00], [0x14, 0x80], [0x12, 0x93], [0x12, 0x70], [0x12, 0x12], [0x12, 0x34],
      [0x12, 0x56], [0x12, 0x78], [0x12, 0x08], [0x12, 0x3C], [0x12, 0xA2]]) := by decide +kernel

theorem test_select_fails : (after (.select 0) (tail [0x30, 0, 5, 0x12, 0x34, 0x56, 0x78, 0x09])).map
      (fun t => (t.uid, t.response.map (·.status))) = some (⟨4, [0x12, 0x34, 0x56, 0x78], 0, false⟩, some .error) ∧
    (after (.select 0) (tail [0x30, 0, 3, 0x12, 0x34, 0x56])).map (fun t => (t.uid, t.response.map (·.status))) =
      some (⟨0, [], 0, false⟩, some .invalid) ∧
    after (.select 1) (start []) = none := by decide +kernel

theorem test_hlta : counted .hlta (start [0, 0, 4, 0x57, 0xCD, 0, 0, 0, 0, 0x01]) = some (.ok, 26) ∧
    counted .hlta (start [0, 0, 4, 0x57, 0xCD, 0, 0, 0, 0, 0x30, 0x00]) = some (.error, 27) ∧
    counted .hlta (bounded 2 3 [0, 0, 0, 0]) = some (.timeout, 10) ∧
    counted .hlta (bounded 2 3 [0, 0, 4, 0x57, 0xCD, 0, 0, 0, 0, 0, 0, 0]) = some (.ok, 28) := by decide +kernel

/-! ### The host surface: P1, V7.1, V7.3, P3 -/

theorem test_initialise : (after (.initialise true) (start [0x80])).map
      (fun t => (t.nrst, t.fatal, (frames t.trace).length)) = some (true, false, 8) ∧
    (after (.initialise false) (start [])).map (fun t => (t.fatal, t.response.map (·.status), frames t.trace)) =
      some (true, some .error, []) := by decide +kernel

/-- The answers of P3. -/
def p3 : List Byte := [0x00, 0x00, 0x00, 0x07, 0x30, 0x00, 0x02, 0x04, 0x00] ++
  [0x00, 0x87, 0x00, 0x00, 0x30, 0x00, 0x05, 0x12, 0x34, 0x56, 0x78, 0x08] ++ [0x04, 0x00, 0x04, 0x3C, 0xA2] ++
  [0x00, 0x80, 0x00, 0x00, 0x30, 0x00, 0x03, 0x08, 0xB6, 0xDD] ++ [0x04, 0x00, 0x04, 0x57, 0xCD] ++
  [0x00, 0x80, 0x00, 0x00, 0x00, 0x01]

theorem test_poll : (seen .poll (start p3)).map (fun x => (x.1, x.2.1, x.2.2.length)) =
      some (.ok, { uidOut := some ⟨4, [0x12, 0x34, 0x56, 0x78], 0x08⟩, someTag := some true }, 97) ∧
    (seen .poll (tail [0x01])).map (fun x => (x.1, x.2.1, x.2.2.length)) =
      some (.ok, { someTag := some false }, 12) := by decide +kernel

theorem test_poll_event : (after .poll (start p3)).map (fun t => (t.trace.filter fun e => match e with
      | .cardDiscovered _ => true
      | _ => false)) = some [.cardDiscovered ⟨4, [0x12, 0x34, 0x56, 0x78], 0x08⟩] := by decide +kernel

/-! ### The sequencer, the kept reply, other reply lengths -/

/-- The marks of SELECT and of COMM at the lines where they stand (44_anticollision_select.md R194, 43_communicate.md
R160), and K4 (42_crc.md R150). -/
theorem test_marks : [1, 2, 3, 4, 5, 6, 16, 17].map (fun k => (SeqEntry.mark ⟨.select, k⟩)) =
      [some .l1, some .l2, some .l3, some .l3, some .l4, some .l5, some .l5, some .l6] ∧
    [1, 2, 4, 5, 6, 7, 8, 12, 23, 24, 29, 30].map (fun k => SeqEntry.mark ⟨.comm, k⟩) =
      [none, some .s0, some .s1, some .s2, some .s2b, some .s3, some .s3b, some .s4, some .s6, some .s6b, some .s6c,
        some .s7] ∧
    [6, 10, 13, 15, 16].map (fun k => SeqEntry.mark ⟨.calccrc, k⟩) =
      [some .k1, some .k2, some .k3, some .k2, some .k4] := by decide +kernel

/-- SEQ where a body ends: a CRC poll at its bound is in K4, a first exchange of SELECT that fails in L3, a collision there
at the statement of its own (10_state.md R28). Tests that let the operation go on are passed on the way (43_communicate.md
R160, 44_anticollision_select.md R194). -/
theorem test_sequencer :
    (runOp (pollReg crcLines 0x05 (crcVerdict cfg) 2) ((start [0, 0]).setSeq [⟨.calccrc, 6⟩])).2.seq.map SeqEntry.mark =
      [some .k4] ∧
    (runOp anticollExchange ((tail [0x01]).setSeq [⟨.select, 1⟩])).2.seq = [⟨.select, 4⟩] ∧
    (runOp anticollExchange ((tail [0x30, 0x08, 2, 1, 2]).setSeq [⟨.select, 1⟩])).2.seq = [⟨.select, 3⟩] ∧
    [commVerdict cfg 0x30 0x01, commVerdict cfg 0x30 0x20, commVerdict cfg 0x30 0x00].map commLines.verdict =
      [[12], [12, 13], [12, 13]] ∧
    [Status.collision, .timeout, .ok].map selectCheckLines = [[3], [3, 4], [3, 4]] := by
  decide +kernel

/-- The status and the kept reply of an instruction's response, if it has no result. -/
def keptBy (i : Instr) (s : State) : Option (Status × Option (List Byte)) :=
  ((after i s).bind (·.response)).bind fun r => if r.results = {} then some (r.status, r.kept) else none

/-- V4.5: under COLLISION the response carries no RDATA; the reply is kept for an extension (10_state.md R27). -/
theorem test_comm_kept : keptBy (.comm reqaCall) (tail [0x20, 0x08, 2, 4, 0]) = some (.collision, some [4, 0]) := by
  decide +kernel

/-- The reply is kept too when the CALCCRC of the response check ends TIMEOUT (43_communicate.md R172: "in every outcome
of this step"). -/
theorem test_comm_kept_nested :
    keptBy (.comm checkedCall) (bounded 2 3 [0, 0, 0, 0, 0x20, 0, 3, 0x08, 0xB6, 0xDD, 0, 0, 0, 0]) =
      some (.timeout, some [0x08, 0xB6, 0xDD]) := by decide +kernel

/-- Log 29 and log 30: an ATQA of no byte is INVALID whatever ATQA_LEN; of a longer anti-collision reply four bytes are
the UID. -/
theorem test_reply_lengths :
    answered .reqa { tail [0x30, 0, 0] with cfg := { cfg with card := { cfg.card with atqaLen := 0 } } } =
      some (.invalid, {}) ∧
    (after (.select 0) { tail ([0x30, 0, 12, 0x12, 0x34, 0x56, 0x78, 0x09] ++ List.replicate 7 0xFF) with
      cfg := { cfg with card := { cfg.card with anticollReplyLen := 12 } } }).map (·.uid) =
      some ⟨4, [0x12, 0x34, 0x56, 0x78], 0, false⟩ := by decide +kernel

/-! ### The rows that are no host operation (log 12 to log 18) -/

theorem test_single_reads : [Instr.xferAbyteRd 0x09, .xferRd1 0x09].all (fun i =>
    seen i (start [0x5A]) == some (.ok, { rval := some 0x5A }, [[0x92, 0]])) = true := by decide +kernel

theorem test_single_writes : [Instr.xferAbyteWr 0x2D 0x11, .xferWr1 0x2D 0x11].all (fun i =>
    seen i (start []) == some (.ok, {}, [[0x5A, 0x11]])) = true := by decide +kernel

theorem test_block_frames : seen (.xferRdn 0x09 2 3) (start [0xFF, 0xFF]) =
      some (.ok, { rlen := some 2, rdata := some [0xF8, 0xFF] }, [[0x92, 0x92, 0x00]]) ∧
    seen (.xferWrn 0x09 [1, 2]) (start []) = some (.ok, {}, [[0x12, 1], [0x12, 2]]) := by decide +kernel

theorem test_chip_commands : [Instr.cmdIdle, .cmdCalccrc, .cmdTransceive, .cmdSoftreset].map (fun i =>
      (seen i (start [])).map (·.2.2)) =
    [some [[0x02, 0x00]], some [[0x02, 0x03]], some [[0x02, 0x0C]], some [[0x02, 0x0F]]] := by decide +kernel

theorem test_bitframing : seen (.bitframingValue true 3 0) (start [0xFF, 0x08, 0x38]) = some (.ok, {},
    [[0x9A, 0x00], [0x1A, 0x08], [0x9A, 0x00], [0x1A, 0x38], [0x9A, 0x00], [0x1A, 0xB8]]) := by decide +kernel

theorem test_card_frames : answered .piccReqa (tail [0x30, 0, 2, 4, 0]) =
      some (.ok, { rlen := some 2, rdata := some [4, 0] }) ∧
    counted .piccWupa (tail [0x01]) = some (.timeout, 12) ∧
    counted .piccAnticollCl1 (tail [0x30, 0, 6]) = some (.noRoom, 15) ∧
    answered (.piccSelectCl1 1 2 3 4 4 5 6) (tail [0x30, 0, 1, 0x08]) =
      some (.ok, { rlen := some 1, rdata := some [0x08] }) ∧
    counted (.piccHlta 0x57 0xCD) (tail [0x01]) = some (.timeout, 15) := by decide +kernel

theorem test_card_replies : answered (.piccReplyAtqa 4 0) (start []) = some (.ok, { atqa := some (4, 0) }) ∧
    answered (.piccReplyAnticoll 0x12 0x34 0x56 0x78 0x08) (start []) =
      some (.ok, { rlen := some 4, rdata := some [0x12, 0x34, 0x56, 0x78] }) ∧
    answered (.piccReplyAnticoll 0x12 0x34 0x56 0x78 0x09) (start []) = some (.error, {}) ∧
    answered (.piccReplySak 0x08 [0xB6, 0xDD]) (start []) = some (.ok, { rlen := some 1, rdata := some [0x08] }) := by
  decide +kernel

theorem test_status_rows : [Instr.statusOk, .statusError, .statusCollision, .statusTimeout, .statusNoRoom,
      .statusInvalid, .statusCrcWrong].map (fun i => (after i (start [])).bind fun t => t.response.map (·.code)) =
    [some 0, some 1, some 2, some 3, some 4, some 5, some 6] := by decide +kernel

/-! ### WellFormed: an ill-formed term for each check, beside the boundary that passes -/

theorem test_wf_wrblk : (Instr.wrblk 0 2 [1]).wf = false ∧ (Instr.wrblk 0 2 [1, 2]).wf = true ∧
    (Instr.wrblk 0 200 (List.replicate 65 0)).wf = false ∧ (Instr.wrblk 0 200 (List.replicate 64 0)).wf = true := by
  decide +kernel

theorem test_wf_calccrc : (Instr.calccrc 0 [1]).wf = false ∧ (Instr.calccrc 0 []).wf = true := by decide

theorem test_wf_comm : (Instr.comm { reqaCall with data := [] }).wf = false ∧
    (Instr.comm { reqaCall with cap := 65 }).wf = false ∧ (Instr.comm { reqaCall with cap := 64 }).wf = true := by decide

theorem test_wf_unassigned : assignedOps.all (fun op => !(Instr.unassigned op).wf) = true ∧
    (Instr.unassigned 0x07).wf = true := by decide

theorem test_wf_xferRdn : (Instr.xferRdn 0 0 0).wf = false ∧ (Instr.xferRdn 0 65 0).wf = false ∧
    (Instr.xferRdn 0 1 0).wf = true ∧ (Instr.xferRdn 0 64 0).wf = true := by decide

theorem test_wf_xferWrn : (Instr.xferWrn 0 []).wf = false ∧ (Instr.xferWrn 0 (List.replicate 65 0)).wf = false ∧
    (Instr.xferWrn 0 (List.replicate 64 0)).wf = true := by decide +kernel

theorem test_wf_xferReserved : (Instr.xferReserved 0x80).wf = false ∧ (Instr.xferReserved 0x01).wf = true := by decide

theorem test_wf_piccReplySak : (Instr.piccReplySak 8 [1, 2, 3]).wf = false ∧ (Instr.piccReplySak 8 [1, 2]).wf = true := by
  decide

/-! ### Decoding: words written out from the encodings of 30_encoding.md -/

/-- A packet decodes to an instruction. -/
def reads (f : Format) (bytes : List Byte) (i : Instr) : Bool := decide (decode ⟨f, bytes⟩ = .ok i)

theorem test_decode_register_access : reads .hostReq [0x01, 0x2D] (.rdreg 0x2D) ∧
    reads .hostReq [0x02, 0x09, 0x40, 0x07] (.rdblk 0x09 64 7) ∧ reads .hostReq [0x03, 0x3F, 0xA5] (.wrreg 0x3F 0xA5) ∧
    reads .hostReq [0x04, 0x09, 0x02, 0x93, 0x20] (.wrblk 0x09 2 [0x93, 0x20]) ∧
    reads .hostReq [0x05, 0x0A, 0x80] (.setbm 0x0A 0x80) ∧ reads .hostReq [0x06, 0x05, 0x04] (.clrbm 0x05 0x04) := by
  decide +kernel

theorem test_decode_lifecycle : reads .hostReq [0x10] .hreset ∧ reads .hostReq [0x11] .sreset ∧
    reads .hostReq [0x12] .init ∧ reads .hostReq [0x13] .anton ∧ reads .hostReq [0x14] .antoff := by decide +kernel

theorem test_decode_crc_comm : reads .hostReq [0x20, 0x02, 0x50, 0x00] (.calccrc 2 [0x50, 0x00]) ∧
    reads .hostReq [0x30, 0x0C, 0x30, 0x01, 0x26, 0x00, 0x07, 0x00, 0x01, 0x02] (.comm reqaCall) := by decide +kernel

theorem test_decode_protocol : reads .hostReq [0x40, 0x00] (.select 0) ∧ reads .hostReq [0x41] .reqa ∧
    reads .hostReq [0x42] .wupa ∧ reads .hostReq [0x43] .isnew ∧ reads .hostReq [0x50] .hlta ∧
    reads .hostReq [0x60, 0x01] (.initialise true) ∧ reads .hostReq [0x61] .poll ∧
    reads .hostReq [0x44] (.unassigned 0x44) := by decide +kernel

/-- 30_encoding.md R80 to R87: `1aaaaaa0`, `0aaaaaa0`, the frames, the reserved bit 0. -/
theorem test_decode_frames : reads .busByte0 [0b10010010, 0x00] (.xferAbyteRd 0x09) ∧
    reads .busByte0 [0b00010010, 0x93] (.xferAbyteWr 0x09 0x93) ∧ reads .busFrame2 [0b11111110, 0x00] (.xferRd1 0x3F) ∧
    reads .busFrame2 [0b01111110, 0xFF] (.xferWr1 0x3F 0xFF) ∧
    reads (.busFrameN 4) [0x92, 0x92, 0x92, 0x00] (.xferRdn 0x09 3 4) ∧
    reads .busSequence [0x12, 0x93, 0x12, 0x20] (.xferWrn 0x09 [0x93, 0x20]) ∧
    reads .busByte0 [0b10010011] (.xferReserved 0x93) := by decide +kernel

/-- 30_encoding.md R88, R89: the command codes; `sRRR0TTT`. -/
theorem test_decode_chip : reads .chipCmd [0x00] .cmdIdle ∧ reads .chipCmd [0x03] .cmdCalccrc ∧
    reads .chipCmd [0x0C] .cmdTransceive ∧ reads .chipCmd [0x0F] .cmdSoftreset ∧
    reads .chipReg [0b11000111] (.bitframingValue true 4 7) := by decide +kernel

/-- 30_encoding.md R90 to R94. -/
theorem test_decode_card : reads .cardShort [0x26] .piccReqa ∧ reads .cardShort [0x52] .piccWupa ∧
    reads .card2 [0x93, 0x20] .piccAnticollCl1 ∧
    reads .card9 [0x93, 0x70, 0x12, 0x34, 0x56, 0x78, 0x08, 0x3C, 0xA2]
      (.piccSelectCl1 0x12 0x34 0x56 0x78 0x08 0x3C 0xA2) ∧
    reads .card4 [0x50, 0x00, 0x57, 0xCD] (.piccHlta 0x57 0xCD) ∧ reads .reply2 [0x04, 0x00] (.piccReplyAtqa 4 0) ∧
    reads .reply5 [0x12, 0x34, 0x56, 0x78, 0x08] (.piccReplyAnticoll 0x12 0x34 0x56 0x78 0x08) ∧
    reads .reply1to3 [0x08, 0xB6, 0xDD] (.piccReplySak 0x08 [0xB6, 0xDD]) := by decide +kernel

/-- 30_encoding.md R97. -/
theorem test_decode_status : reads .status [0] .statusOk ∧ reads .status [1] .statusError ∧
    reads .status [2] .statusCollision ∧ reads .status [3] .statusTimeout ∧ reads .status [4] .statusNoRoom ∧
    reads .status [5] .statusInvalid ∧ reads .status [6] .statusCrcWrong := by decide +kernel

/-- What no row encodes is refused by name: an operand outside its domain, a frame never emitted (30_encoding.md R87),
the status value 7 (R97). -/
theorem test_decode_refuses : decode ⟨.hostReq, [0x01, 0x40]⟩ = .error (.operandDomain .addr) ∧
    decode ⟨.hostReq, [0x01]⟩ = .error .truncated ∧ decode ⟨.busFrame2, [0x92, 0x01]⟩ = .error .neverEmitted ∧
    decode ⟨.busFrameN 0, [0x92, 0x94, 0x00]⟩ = .error .neverEmitted ∧
    decode ⟨.status, [7]⟩ = .error .noPattern := by decide +kernel

theorem test_table_words : decodeTableWord 8 0x41 = some .reqa ∧ decodeTableWord 16 0x8C00 = some (.xferRd1 0x06) ∧
    decodeTableWord 32 0x500057CD = some (.piccHlta 0x57 0xCD) := by decide +kernel

/-! ### Witnesses: states and operands that meet the hypotheses of each obligation, each clause -/

/-- The fixture with one register written. -/
def fixture : State := { start [] with chip := .simpleRegs [(0x2C, 0xA5)] }

/-- For MaskIdempotent, RegisterRoundTrip and FixtureRegisters. -/
theorem witness_fixture : FixtureWith fixture [(0x2C, 0xA5)] ∧ fixture.cfg.fifoCapacity = 64 ∧
    (64 : Byte).toNat ≤ fixture.cfg.fifoCapacity ∧ dataFits 64 (List.replicate 63 0 ++ [0xA5]) = true := by
  unfold FixtureWith Memory.wf
  decide +kernel

/-- V1.7 and V1.8 on the fixture. -/
theorem test_fixture : (after (.wrreg 0x0A 0x05) fixture).map (fun t => fixtureRead t 0x0A) = some 0x05 ∧
    (after (.setbm 0x2C 0x02) fixture).map (fun t => fixtureRead t 0x2C) = some 0xA7 ∧
    (after (.wrreg 0x2C 0) fixture).map (·.chip) = some (.simpleRegs []) := by decide +kernel

/-- For RdblkResult and WrblkResult: each clause, at its boundary. -/
theorem witness_block_lengths : (start []).cfg.fifoCapacity < (65 : Byte).toNat ∧
    (64 : Byte).toNat ≤ (start []).cfg.fifoCapacity ∧ (64 : Byte) ≠ 0 ∧
    dataFits 64 (List.replicate 64 0) = true := by decide +kernel

/-- For SresetResult: the bit read 0 at the last poll, and never. -/
theorem witness_sreset :
    (let s := start [0x10, 0x10, 0x00]
     let t := writeDone s s.cfg.reg.command s.cfg.cmd.softReset
     2 < s.cfg.softResetPollBound ∧
      (∀ j < 2, pollByte t s.cfg.reg.command j &&& s.cfg.mask.cmdPowerDown ≠ 0) ∧
      pollByte t s.cfg.reg.command 2 &&& s.cfg.mask.cmdPowerDown = 0) ∧
    (let s := start [0x10, 0x10, 0x10]
     let t := writeDone s s.cfg.reg.command s.cfg.cmd.softReset
     ∀ j < s.cfg.softResetPollBound, pollByte t s.cfg.reg.command j &&& s.cfg.mask.cmdPowerDown ≠ 0) := by
  decide +kernel

/-- For AntonResult: both bits read 1, and not. -/
theorem witness_anton : readValue (start [0x83]) (start [0x83]).cfg.reg.txControl &&& (start []).cfg.mask.antMask = 0x03 ∧
    readValue (start [0x82]) (start [0x82]).cfg.reg.txControl &&& (start []).cfg.mask.antMask ≠ 0x03 := by decide +kernel

/-- For CalccrcResult: the flag seen at the last poll (V3.2). -/
theorem witness_calccrc :
    let s := bounded 2 2 [0xFF, 0x7F, 0xFB, 0xFF, 0x12, 0x34]
    let t := crcLoaded s [0xAA]
    (1 : Byte).toNat ≤ s.cfg.fifoCapacity ∧ 1 < s.cfg.crcPollBound ∧
      (∀ j < 1, pollByte t s.cfg.reg.divIrq j &&& s.cfg.mask.irqCrc = 0) ∧
      pollByte t s.cfg.reg.divIrq 1 &&& s.cfg.mask.irqCrc ≠ 0 := by decide +kernel

/-- For CalccrcStops: too long, and never done (V3.3, V3.4). -/
theorem witness_calccrc_stops :
    let s := bounded 2 2 [0, 0, 0, 0]
    s.cfg.fifoCapacity < (65 : Byte).toNat ∧ (2 : Byte).toNat ≤ s.cfg.fifoCapacity ∧
      ∀ j < s.cfg.crcPollBound, pollByte (crcLoaded s [0x50, 0x00]) s.cfg.reg.divIrq j &&& s.cfg.mask.irqCrc = 0 := by
  decide +kernel

/-- For CommSendTooLong. -/
theorem witness_comm_send : (start []).cfg.fifoCapacity < ({ reqaCall with len := 65 } : CommOperands).len.toNat := by
  decide

/-- For CommTimesOut: the timer bit at the last poll, beside a completion bit, and the bound (V4.1, V4.9). -/
theorem witness_comm_timeout :
    (let s := bounded 2 3 [0, 0, 0, 0, 0, 0, 0x31]
     let t := commLoaded s reqaCall
     2 < s.cfg.commPollBound ∧ reqaCall.len.toNat ≤ s.cfg.fifoCapacity ∧
      (∀ j < 2, pollByte t s.cfg.reg.comIrq j &&& s.cfg.mask.irqTimer = 0 ∧
        pollByte t s.cfg.reg.comIrq j &&& reqaCall.irqMask = 0) ∧
      pollByte t s.cfg.reg.comIrq 2 &&& s.cfg.mask.irqTimer ≠ 0) ∧
    (let s := bounded 2 3 [0, 0, 0, 0, 0, 0, 0]
     let t := commLoaded s reqaCall
     ∀ j < s.cfg.commPollBound, pollByte t s.cfg.reg.comIrq j &&& s.cfg.mask.irqTimer = 0 ∧
        pollByte t s.cfg.reg.comIrq j &&& reqaCall.irqMask = 0) := by decide +kernel

/-- The state COMM is in when its completion poll has ended at poll `k`. -/
def polledComm (o : CommOperands) (k : Nat) (s : State) : State := pollDone (commLoaded s o) s.cfg.reg.comIrq k

/-- The error byte read then. -/
def errorByte (o : CommOperands) (k : Nat) (s : State) : Byte := readValue (polledComm o k s) s.cfg.reg.error

/-- The FIFO level read after it. -/
def levelByte (o : CommOperands) (k : Nat) (s : State) : Byte :=
  readValue (readDone (polledComm o k s) s.cfg.reg.error) s.cfg.reg.fifoLevel

/-- For CommErrorBits, with and without a buffer: each fatal bit alone, after a poll that saw nothing (V4.3). -/
theorem witness_comm_error : ∀ o ∈ [reqaCall, silentCall], ∀ e ∈ [(0x01 : Byte), 0x02, 0x10],
    CompletedAt (commLoaded (tail [0x04, 0x20, e]) o) o 1 ∧
      FatalBits (tail [0x04, 0x20, e]).cfg (errorByte o 1 (tail [0x04, 0x20, e])) ∧
      o.len.toNat ≤ (tail [0x04, 0x20, e]).cfg.fifoCapacity := by
  unfold CompletedAt FatalBits
  decide +kernel

/-- For CommWithoutBuffer: the collision bit set, and clear beside a bit that means nothing (V4.8). -/
theorem witness_comm_without_buffer : silentCall.hasBack = false ∧
    (∀ e ∈ [(0x08 : Byte), 0x04], CompletedAt (commLoaded (tail [0x10, e]) silentCall) silentCall 0 ∧
      ¬ FatalBits (tail [0x10, e]).cfg (errorByte silentCall 0 (tail [0x10, e]))) ∧
    errorByte silentCall 0 (tail [0x10, 0x08]) &&& cfg.mask.errColl ≠ 0 ∧
    errorByte silentCall 0 (tail [0x10, 0x04]) &&& cfg.mask.errColl = 0 := by
  unfold CompletedAt FatalBits
  decide +kernel

/-- A state whose FIFO is smaller than the buffer, for the second clause of CommReplyTooLong. -/
def smallFifo : State :=
  { tail [0x20, 0x00, 5] with cfg := { cfg with fifoCapacity := 4 } }

/-- For CommReplyTooLong: a level above the buffer, beside the collision bit (V4.6); a level above the FIFO alone. -/
theorem witness_comm_too_long : reqaCall.hasBack = true ∧
    CompletedAt (commLoaded (tail [0x20, 0x08, 3]) reqaCall) reqaCall 0 ∧
    ¬ FatalBits cfg (errorByte reqaCall 0 (tail [0x20, 0x08, 3])) ∧
    reqaCall.cap.toNat < (levelByte reqaCall 0 (tail [0x20, 0x08, 3])).toNat ∧
    CompletedAt (commLoaded smallFifo { reqaCall with cap := 64 }) { reqaCall with cap := 64 } 0 ∧
    ¬ FatalBits smallFifo.cfg (errorByte { reqaCall with cap := 64 } 0 smallFifo) ∧
    smallFifo.cfg.fifoCapacity < (levelByte { reqaCall with cap := 64 } 0 smallFifo).toNat := by
  unfold CompletedAt FatalBits
  decide +kernel

/-- For CommReply: a reply that fills the buffer, with the collision bit and without (V4.5, V4.8). -/
theorem witness_comm_reply : reqaCall.chk = false ∧ reqaCall.hasBack = true ∧
    (∀ e ∈ [(0x08 : Byte), 0x04], CompletedAt (commLoaded (tail [0x20, e, 2, 4, 0]) reqaCall) reqaCall 0 ∧
      ¬ FatalBits cfg (errorByte reqaCall 0 (tail [0x20, e, 2, 4, 0])) ∧
      (levelByte reqaCall 0 (tail [0x20, e, 2, 4, 0])).toNat = reqaCall.cap.toNat) ∧
    errorByte reqaCall 0 (tail [0x20, 0x08, 2, 4, 0]) &&& cfg.mask.errColl ≠ 0 ∧
    errorByte reqaCall 0 (tail [0x20, 0x04, 2, 4, 0]) &&& cfg.mask.errColl = 0 := by
  unfold CompletedAt FatalBits
  decide +kernel

/-- For CommCheck: replies of 2 and of 3 bytes. -/
theorem witness_comm_check : checkedCall.chk = true ∧ checkedCall.hasBack = true ∧
    ∀ n ∈ [(2 : Byte), 3], CompletedAt (commLoaded (tail [0x20, 0, n, 0x08, 0xB6, 0xDD]) checkedCall) checkedCall 0 ∧
      ¬ FatalBits cfg (errorByte checkedCall 0 (tail [0x20, 0, n, 0x08, 0xB6, 0xDD])) ∧
      errorByte checkedCall 0 (tail [0x20, 0, n, 0x08, 0xB6, 0xDD]) &&& cfg.mask.errColl = 0 ∧
      levelByte checkedCall 0 (tail [0x20, 0, n, 0x08, 0xB6, 0xDD]) = n := by
  unfold CompletedAt FatalBits
  decide +kernel

/-- The nested CALCCRC of CommCheck ends OK with the reply's last two bytes, with others, and with TIMEOUT. -/
theorem witness_comm_check_nested :
    answered (.calccrc 1 [0x08]) (start [0, 0, 4, 0xB6, 0xDD]) = some (.ok, { crc := some (0xB6, 0xDD) }) ∧
    answered (.calccrc 1 [0x08]) (bounded 2 3 [0, 0, 0, 0]) = some (.timeout, {}) := by decide +kernel

/-- For RequestResult, IsnewResult, SelectFirstExchange, SelectUid, HltaResult and PollResult: a well-formed
configuration whose anti-collision reply has five bytes. -/
theorem witness_wf : (start []).cfg.wf = true ∧ (start []).cfg.card.anticollReplyLen = 5 ∧
    (start []).cfg.card.atqaLen = 2 := by decide +kernel

/-- The exchange inside a request ends OK with a short reply and with a whole one, and fails. -/
theorem witness_request :
    [[0x30, 0, 1, 4], [0x30, 0, 2, 4, 0], [0x01]].map (fun x => answered (.comm (exchangeOperands cfg [0x26] 7 (some 2)))
      (tail x)) =
    [some (.ok, { rlen := some 1, rdata := some [4] }), some (.ok, { rlen := some 2, rdata := some [4, 0] }),
      some (.timeout, {})] := by decide +kernel

/-- For SelectRefusesValidBits. -/
theorem witness_select_valid_bits : (0x01 : Byte) ≠ 0 ∧ exec (.select 0x01) (start []) = .refused .validBitsNotZero := by
  exact ⟨by decide, rfl⟩

/-- For SelectFirstExchange and SelectCompletes: replies of 4 and of 5 bytes, with the BCC right (0x08) and wrong. -/
theorem witness_select :
    [[4, 0x12, 0x34, 0x56, 0x78], [5, 0x12, 0x34, 0x56, 0x78, 0x08], [5, 0x12, 0x34, 0x56, 0x78, 0x09]].map (fun x =>
      answered (.comm (exchangeOperands cfg [0x93, 0x20] 0 (some 5))) (tail ([0x30, 0] ++ x))) =
    [some (.ok, { rlen := some 4, rdata := some [0x12, 0x34, 0x56, 0x78] }),
      some (.ok, { rlen := some 5, rdata := some [0x12, 0x34, 0x56, 0x78, 0x08] }),
      some (.ok, { rlen := some 5, rdata := some [0x12, 0x34, 0x56, 0x78, 0x09] })] ∧
    (0x12 : Byte) ^^^ 0x34 ^^^ 0x56 ^^^ 0x78 = 0x08 := by decide +kernel

/-- The second exchange of SelectCompletes: an empty reply, a SAK, a failure; and the CRC before it, done and not. -/
theorem witness_select_second :
    [[0x30, 0, 0], [0x30, 0, 1, 0x08], [0x01]].map (fun x => answered
      (.comm (exchangeOperands cfg [0x93, 0x70, 0x12, 0x34, 0x56, 0x78, 0x08, 0x3C, 0xA2] 0 (some 3))) (tail x)) =
    [some (.ok, { rlen := some 0, rdata := some [] }), some (.ok, { rlen := some 1, rdata := some [0x08] }),
      some (.timeout, {})] ∧
    answered (.calccrc 7 [0x93, 0x70, 0x12, 0x34, 0x56, 0x78, 0x08]) (start [0, 0, 4, 0x3C, 0xA2]) =
      some (.ok, { crc := some (0x3C, 0xA2) }) ∧
    answered (.calccrc 7 [0x93, 0x70, 0x12, 0x34, 0x56, 0x78, 0x08]) (bounded 2 3 [0, 0, 0, 0]) =
      some (.timeout, {}) := by decide +kernel

/-- For HltaResult: the exchange times out, and is answered. -/
theorem witness_hlta : [[0x01], [0x30, 0x00]].map (fun x => answered
      (.comm (exchangeOperands cfg [0x50, 0x00, 0x57, 0xCD] 0 none)) (tail x)) =
    [some (.timeout, {}), some (.ok, {})] := by decide +kernel

/-- For PollResult: with HALT_AFTER_READ and without, a card and none. -/
theorem witness_poll : cfg.haltAfterRead = true ∧
    (let s := { start p3 with cfg := { cfg with haltAfterRead := false } }
     s.cfg.wf = true ∧ s.cfg.haltAfterRead = false ∧ counted .poll s = some (.ok, 70)) ∧
    answered .isnew (tail [0x01]) = some (.ok, { present := some false }) ∧
    answered .isnew (start p3) = some (.ok, { present := some true }) := by decide +kernel

/-- For UnassignedResult. -/
theorem witness_unassigned : (0x07 : Byte) ∉ assignedOps ∧ (0x00 : Byte) ∉ assignedOps ∧ (0xFF : Byte) ∉ assignedOps := by
  decide

/-- For BlockFrames: each clause, at its boundary. -/
theorem witness_block_frames : (start []).cfg.fifoCapacity < (65 : BitVec 7).toNat ∧
    (64 : BitVec 7).toNat ≤ (start []).cfg.fifoCapacity ∧
    (start []).cfg.fifoCapacity < (List.replicate 65 (0 : Byte)).length ∧
    (List.replicate 64 (0 : Byte)).length ≤ (start []).cfg.fifoCapacity := by decide +kernel

/-- For CardReplies: a BCC that is right and one that is wrong. -/
theorem witness_card_replies : (start []).cfg.card.atqaLen = 2 ∧ (start []).cfg.card.anticollReplyLen = 5 ∧
    (0x12 : Byte) ^^^ 0x34 ^^^ 0x56 ^^^ 0x78 = 0x08 ∧ (0x12 : Byte) ^^^ 0x34 ^^^ 0x56 ^^^ 0x78 ≠ 0x09 := by
  decide +kernel

/-- For DecodeEncode and DecodeWellFormed. -/
theorem witness_encode : (Instr.wrblk 0x3F 64 (List.replicate 64 0xFF)).wf = true ∧
    (Instr.comm { reqaCall with len := 255, data := List.replicate 64 0, cap := 64 }).wf = true ∧
    (decode ⟨.hostReq, [0x41]⟩ = .ok .reqa) := by decide +kernel

/-- For EmittedFrames: a write, a single read and a block read. -/
theorem witness_emitted : decode ⟨.busFrame2, [0x12, 0x93]⟩ = .ok (.xferWr1 0x09 0x93) ∧
    decode ⟨.busFrame2, [0x92, 0x00]⟩ = .ok (.xferRd1 0x09) ∧
    decode ⟨.busFrameN 0, List.replicate 64 0x92 ++ [0x00]⟩ = .ok (.xferRdn 0x09 64 0) := by decide +kernel

/-- The host presents a REQA. -/
def presenting : State := (tail [0x01]).setHost [⟨.hostReq, [0x41]⟩]

/-- For StepRunsDecoded: a request presented to an idle block, and a word of the table. -/
theorem witness_step : presenting.host = [⟨.hostReq, [0x41]⟩] ∧ presenting.cfg.wf = true ∧ presenting.fatal = false ∧
    presenting.busy = false ∧ decode ⟨.hostReq, [0x41]⟩ = .ok .reqa ∧ decodeTableWord 8 0x41 = some .reqa ∧
    operandsInDomain presenting.cfg .reqa = true := by decide +kernel

/-- A configuration with addresses of five bits and alignments up to 3. -/
def narrow : Config := { cfg with addrBits := 5, rxAlignMax := 3 }

/-- For DefaultDomains, and the last clause of StepOtherwise: each domain at its boundary (00_scope.md R6, R12). -/
theorem witness_domains : 6 ≤ cfg.addrBits ∧ 7 ≤ cfg.rxAlignMax ∧
    operandsInDomain narrow (.wrreg 0x1F 0) = true ∧ operandsInDomain narrow (.wrreg 0x20 0) = false ∧
    operandsInDomain narrow (.rdblk 0x1F 1 3) = true ∧ operandsInDomain narrow (.rdblk 0x1F 1 4) = false ∧
    operandsInDomain narrow (.comm { reqaCall with align := 3 }) = true ∧
    operandsInDomain narrow (.comm { reqaCall with align := 4 }) = false ∧
    operandsInDomain narrow (.bitframingValue true 3 7) = true ∧ operandsInDomain narrow (.bitframingValue true 4 0) = false ∧
    narrow.wf = true ∧ (match step (({ start [] with cfg := narrow } : State).setHost [⟨.hostReq, [0x01, 0x20]⟩]) with
      | .refused r => decide (r = .operandOutsideDomain)
      | _ => false) = true := by decide +kernel

/-- For StepOtherwise: nothing presented; an ill-formed configuration; FATAL; BUSY; bytes that encode nothing. -/
theorem witness_step_otherwise : (start []).host = [] ∧
    ({ presenting with cfg := { cfg with crcPollBound := 0 } } : State).cfg.wf = false ∧
    (presenting.setFatal true).fatal = true ∧ (presenting.setBusy true).busy = true ∧
    decode ⟨.hostReq, [0x01, 0x40]⟩ = .error (.operandDomain .addr) := by decide +kernel

/-- A request presented while FATAL is gone, and nothing else has happened (10_state.md R24). -/
theorem test_fatal_ignores : (match step (presenting.setFatal true) with
    | .next t => decide (t = (presenting.setFatal true).setHost [])
    | _ => false) = true := by decide +kernel

/-- For InvKept: the invariant, and a step from there that answers a next state. -/
theorem witness_invariant : MachineInv (start []) ∧ step (start []) = .next (start []) := by
  refine ⟨⟨by decide +kernel, by decide +kernel, ⟨rfl, .inl rfl, by decide⟩, ⟨rfl, rfl, rfl, rfl⟩, ?_, ?_, trivial⟩, rfl⟩
  · intro tx rx h
    cases h
  · intro r h
    cases h

/-- A step answers a next state. -/
def goesOn (s : State) : Bool :=
  match step s with
  | .next _ => true
  | _ => false

/-- For InvKept with a request presented: the step runs it. -/
theorem witness_invariant_step : MachineInv presenting ∧ goesOn presenting = true := by
  refine ⟨⟨by decide +kernel, by decide +kernel, ⟨rfl, .inl rfl, by decide⟩, ⟨rfl, rfl, rfl, rfl⟩, ?_, ?_, trivial⟩,
    by decide +kernel⟩
  · intro tx rx h
    cases h
  · intro r h
    cases h

/-- For EveryInstructionCompletes: an instruction of each shape that is neither of the two exceptions. -/
theorem witness_completes : (Instr.select 0).wf = true ∧ (∀ b, Instr.select 0 ≠ .xferReserved b) ∧
    ∀ v, v ≠ 0 → Instr.select 0 ≠ .select v := by
  refine ⟨rfl, ?_, ?_⟩
  · intro b h
    cases h
  · intro v hv h
    injection h with h
    exact hv h.symm

/-- For PersistentFrame: each clause has an instruction that answers a next state. -/
theorem witness_frame : writesUid .hreset = false ∧ writesNrst .poll = false ∧ writesFatal .poll = false ∧
    writesNrst .hreset = true ∧ writesFatal (.initialise false) = true ∧
    ∀ i ∈ [Instr.poll, .hreset, .initialise false], ∃ t, exec i (start []) = .next t := by
  refine ⟨rfl, rfl, rfl, rfl, rfl, fun i h => ?_⟩
  simp only [List.mem_cons, List.not_mem_nil, or_false] at h
  rcases h with rfl | rfl | rfl <;> exact ⟨_, rfl⟩

/-- For FatalIsSticky and TraceGrows: a step from a fatal state that answers a next state. -/
theorem witness_fatal : (presenting.setFatal true).fatal = true ∧ goesOn (presenting.setFatal true) = true := by
  decide +kernel

/-- For FrameBounds: COMM with the check reaches 25 of its frames, within the bound. -/
theorem witness_frame_bound : (Instr.comm checkedCall).wf = true ∧ cfg.wf = true ∧
    (seen (.comm checkedCall) (tail [0x20, 0, 3, 0x08, 0xB6, 0xDD, 0, 0, 4, 0xB6, 0xDD])).map (fun x =>
      decide (x.2.2.length ≤ frameBound cfg (.comm checkedCall))) = some true := by decide +kernel

end Sys2Proof.Tests
end

/-! ## The scope (00_scope.md): the numbers of the parameters, the operand domains, what is decoded, what a step runs -/

namespace Sys2Proof

/-! ### What the decoder answers is well-formed -/

/-- Whatever instruction a decoder's result holds has its operands in their domains. -/
def YieldsWf (x : Except DecodeError Instr) : Prop := ∀ i, x = .ok i → i.wf = true

namespace YieldsWf

theorem ok {i : Instr} (h : i.wf = true) : YieldsWf (.ok i) := fun j e => by
  injection e with e
  exact e ▸ h

theorem error (e : DecodeError) : YieldsWf (.error e) := fun _ h => nomatch h

theorem ite {c : Prop} [Decidable c] {x y : Except DecodeError Instr} (hx : c → YieldsWf x) (hy : ¬ c → YieldsWf y) :
    YieldsWf (if c then x else y) := by
  split
  · next h => exact hx h
  · next h => exact hy h

theorem bind {α : Type} {x : Except DecodeError α} {f : α → Except DecodeError Instr}
    (h : ∀ a, x = .ok a → YieldsWf (f a)) : YieldsWf (x >>= f) := by
  cases x with
  | ok a => exact h a rfl
  | error e => exact error e

theorem map {α : Type} {x : Except DecodeError α} {f : α → Instr} (h : ∀ a, (f a).wf = true) : YieldsWf (x.map f) := by
  cases x with
  | ok a => exact ok (h a)
  | error e => exact error e

end YieldsWf

theorem decodeRdblk_yieldsWf (bytes : List Byte) : YieldsWf (decodeRdblk bytes) :=
  .bind fun _ _ => .bind fun _ _ => .bind fun _ _ => .ok rfl

theorem decodeAddrByte_yieldsWf {mk : Addr → Byte → Instr} (h : ∀ a v, (mk a v).wf = true) (bytes : List Byte) :
    YieldsWf (decodeAddrByte mk bytes) :=
  .bind fun _ _ => .bind fun _ _ => .ok (h _ _)

theorem decodeWrblk_yieldsWf (bytes : List Byte) : YieldsWf (decodeWrblk bytes) :=
  .bind fun _ _ => .bind fun _ _ => .bind fun _ hdata => .ok (readData_domain hdata)

theorem decodeCalccrc_yieldsWf (bytes : List Byte) : YieldsWf (decodeCalccrc bytes) :=
  .bind fun _ _ => .bind fun _ hdata => .ok (readData_domain hdata)

theorem CommOperands.wf_iff (o : CommOperands) : o.wf = true ↔ dataFits o.len o.data = true ∧ o.cap.toNat ≤ 64 := by
  simp [CommOperands.wf]

theorem decodeComm_yieldsWf (bytes : List Byte) : YieldsWf (decodeComm bytes) :=
  .bind fun _ _ => .bind fun _ _ => .bind fun _ _ => .bind fun _ hdata => .bind fun _ _ => .bind fun _ _ =>
    .bind fun _ _ => .bind fun _ _ => .bind fun _ hcap =>
      .ok ((CommOperands.wf_iff _).2 ⟨readData_domain hdata, readCap_domain hcap⟩)

/-- A code that is none of the twenty of 30_encoding.md R95 is left for the last arm. -/
theorem decodeOp_yieldsWf (op : Byte) (rest : List Byte) : YieldsWf (decodeOp op rest) :=
  .ite (fun _ => .map fun _ => rfl) fun _ => .ite (fun _ => decodeRdblk_yieldsWf _) fun _ =>
  .ite (fun _ => decodeAddrByte_yieldsWf (fun _ _ => rfl) _) fun _ => .ite (fun _ => decodeWrblk_yieldsWf _) fun _ =>
  .ite (fun _ => decodeAddrByte_yieldsWf (fun _ _ => rfl) _) fun _ =>
  .ite (fun _ => decodeAddrByte_yieldsWf (fun _ _ => rfl) _) fun _ =>
  .ite (fun _ => .ok rfl) fun _ => .ite (fun _ => .ok rfl) fun _ => .ite (fun _ => .ok rfl) fun _ =>
  .ite (fun _ => .ok rfl) fun _ => .ite (fun _ => .ok rfl) fun _ =>
  .ite (fun _ => decodeCalccrc_yieldsWf _) fun _ => .ite (fun _ => decodeComm_yieldsWf _) fun _ =>
  .ite (fun _ => .map fun _ => rfl) fun _ =>
  .ite (fun _ => .ok rfl) fun _ => .ite (fun _ => .ok rfl) fun _ => .ite (fun _ => .ok rfl) fun _ =>
  .ite (fun _ => .ok rfl) fun _ => .ite (fun _ => .map fun _ => rfl) fun _ => .ite (fun _ => .ok rfl) fun _ =>
  .ok (by simp_all [Instr.wf, assignedOps])

theorem decodeByte0_yieldsWf : ∀ bytes, YieldsWf (decodeByte0 bytes)
  | [] => .error _
  | _ :: _ => .ite (fun h => .ok h) fun _ => .ite (fun _ => .ok rfl) fun _ => .map fun _ => rfl

theorem decodeFrame2_yieldsWf : ∀ bytes, YieldsWf (decodeFrame2 bytes)
  | [_, _] => .ite (fun _ => .error _) fun _ =>
      .ite (fun _ => .ite (fun _ => .ok rfl) fun _ => .error _) fun _ => .ok rfl
  | [] | [_] | _ :: _ :: _ :: _ => .error _

/-- A count of 1 to 64 goes into the seven bits of `count` unchanged. -/
theorem xferRdn_wf (a : Addr) {n : Nat} (align : Bits3) (h1 : n ≠ 0) (h64 : n ≤ 64) :
    (Instr.xferRdn a (BitVec.ofNat 7 n) align).wf = true := by
  have hn : (BitVec.ofNat 7 n).toNat = n := by rw [BitVec.toNat_ofNat]; omega
  simp only [Instr.wf, hn, Bool.and_eq_true, Nat.ble_eq]
  omega

theorem decodeFrameN_yieldsWf (align : Bits3) : ∀ bytes, YieldsWf (decodeFrameN align bytes)
  | [] => .error _
  | _ :: _ => .ite (fun _ => .error _) fun h =>
      .ite (fun _ => .ok (xferRdn_wf _ align (by omega) (by omega))) fun _ => .error _

/-- A sequence that has a first byte holds at least one frame. -/
theorem sequenceData_ne_nil {b a : Byte} {rest data : List Byte} (h : sequenceData b (a :: rest) = some data) :
    data ≠ [] := by
  rintro rfl
  cases sequenceData_some h

theorem decodeSequence_yieldsWf : ∀ bytes, YieldsWf (decodeSequence bytes)
  | [] => .error _
  | b :: rest => .ite (fun _ => .error _) fun _ => by
      split
      · next data hdata =>
        have hpos := List.length_pos_iff.2 (sequenceData_ne_nil hdata)
        exact .ite (fun h64 => .ok (by simpa [Instr.wf] using ⟨hpos, h64⟩)) fun _ => .error _
      · exact .error _

theorem decodeChipCmd_yieldsWf : ∀ bytes, YieldsWf (decodeChipCmd bytes)
  | [_] => .ite (fun _ => .ok rfl) fun _ => .ite (fun _ => .ok rfl) fun _ => .ite (fun _ => .ok rfl) fun _ =>
      .ite (fun _ => .ok rfl) fun _ => .error _
  | [] | _ :: _ :: _ => .error _

theorem decodeChipReg_yieldsWf : ∀ bytes, YieldsWf (decodeChipReg bytes)
  | [_] => .ite (fun _ => .error _) fun _ => .ok rfl
  | [] | _ :: _ :: _ => .error _

theorem decodeCardShort_yieldsWf : ∀ bytes, YieldsWf (decodeCardShort bytes)
  | [_] => .ite (fun _ => .ok rfl) fun _ => .ite (fun _ => .ok rfl) fun _ => .error _
  | [] | _ :: _ :: _ => .error _

theorem decodeCard2_yieldsWf (bytes : List Byte) : YieldsWf (decodeCard2 bytes) :=
  .ite (fun _ => .ok rfl) fun _ => .error _

theorem decodeCard9_yieldsWf (bytes : List Byte) : YieldsWf (decodeCard9 bytes) := by
  unfold decodeCard9
  split
  · exact .ite (fun _ => .ok rfl) fun _ => .error _
  · exact .error _

theorem decodeCard4_yieldsWf (bytes : List Byte) : YieldsWf (decodeCard4 bytes) := by
  unfold decodeCard4
  split
  · exact .ite (fun _ => .ok rfl) fun _ => .error _
  · exact .error _

theorem decodeReply2_yieldsWf (bytes : List Byte) : YieldsWf (decodeReply2 bytes) := by
  unfold decodeReply2
  split
  · exact .ok rfl
  · exact .error _

theorem decodeReply5_yieldsWf (bytes : List Byte) : YieldsWf (decodeReply5 bytes) := by
  unfold decodeReply5
  split
  · exact .ok rfl
  · exact .error _

theorem decodeReplySak_yieldsWf : ∀ bytes, YieldsWf (decodeReplySak bytes)
  | [] => .error _
  | _ :: _ => .ite (fun h => .ok (Nat.ble_eq ▸ h)) fun _ => .error _

theorem decodeStatus_yieldsWf : ∀ bytes, YieldsWf (decodeStatus bytes)
  | [_] => .ite (fun _ => .ok rfl) fun _ => .ite (fun _ => .ok rfl) fun _ => .ite (fun _ => .ok rfl) fun _ =>
      .ite (fun _ => .ok rfl) fun _ => .ite (fun _ => .ok rfl) fun _ => .ite (fun _ => .ok rfl) fun _ =>
      .ite (fun _ => .ok rfl) fun _ => .error _
  | [] | _ :: _ :: _ => .error _

theorem decode_yieldsWf : ∀ p, YieldsWf (decode p)
  | ⟨.hostReq, []⟩ => .error _
  | ⟨.hostReq, op :: rest⟩ => decodeOp_yieldsWf op rest
  | ⟨.busByte0, bytes⟩ => decodeByte0_yieldsWf bytes
  | ⟨.busFrame2, bytes⟩ => decodeFrame2_yieldsWf bytes
  | ⟨.busFrameN align, bytes⟩ => decodeFrameN_yieldsWf align bytes
  | ⟨.busSequence, bytes⟩ => decodeSequence_yieldsWf bytes
  | ⟨.chipCmd, bytes⟩ => decodeChipCmd_yieldsWf bytes
  | ⟨.chipReg, bytes⟩ => decodeChipReg_yieldsWf bytes
  | ⟨.cardShort, bytes⟩ => decodeCardShort_yieldsWf bytes
  | ⟨.card2, bytes⟩ => decodeCard2_yieldsWf bytes
  | ⟨.card9, bytes⟩ => decodeCard9_yieldsWf bytes
  | ⟨.card4, bytes⟩ => decodeCard4_yieldsWf bytes
  | ⟨.reply2, bytes⟩ => decodeReply2_yieldsWf bytes
  | ⟨.reply5, bytes⟩ => decodeReply5_yieldsWf bytes
  | ⟨.reply1to3, bytes⟩ => decodeReplySak_yieldsWf bytes
  | ⟨.status, bytes⟩ => decodeStatus_yieldsWf bytes

/-- Settles O46, decoder by decoder. -/
theorem decodeWellFormed : Obligations.DecodeWellFormed := decode_yieldsWf

end Sys2Proof

namespace Sys2Proof.Machine

/-! ### The numbers of the parameters -/

/-- Settles O2: each number is read off `Config.default`. -/
theorem parameterDefaults : Obligations.ParameterDefaults := by
  unfold Obligations.ParameterDefaults
  decide

/-! ### What a step runs -/

theorem runPacket_of_decode {p : Packet} {i : Instr} {s : State} (hd : decode p = .ok i)
    (ho : operandsInDomain s.cfg i = true) : runPacket p s = exec i s := by
  simp only [runPacket, hd, ho, if_true]

theorem present_of_not_fatal_not_busy (p : Packet) {s : State} (hf : s.fatal = false) (hb : s.busy = false) :
    present p s = runPacket p s := by
  simp [present, hf, hb]

theorem step_of_host_cons {s : State} {p : Packet} {rest : List Packet} (hh : s.host = p :: rest)
    (hw : s.cfg.wf = true) : step s = present p (s.setHost rest) := by
  simp only [step, hh, hw, if_true]

theorem step_of_decode {s : State} {p : Packet} {rest : List Packet} {i : Instr} (hh : s.host = p :: rest)
    (hw : s.cfg.wf = true) (hf : s.fatal = false) (hb : s.busy = false) (hd : decode p = .ok i)
    (ho : operandsInDomain s.cfg i = true) : step s = exec i (s.setHost rest) :=
  calc step s = present p (s.setHost rest) := step_of_host_cons hh hw
    _ = runPacket p (s.setHost rest) := present_of_not_fatal_not_busy p hf hb
    _ = exec i (s.setHost rest) := runPacket_of_decode hd ho

theorem decodeTableWord_eq_some {nbits w : Nat} {i : Instr} (h : decodeTableWord nbits w = some i) :
    decode (tablePacket nbits w) = .ok i := by
  unfold decodeTableWord at h
  split at h
  · next e =>
    injection h with h
    exact h ▸ e
  · cases h

/-- Settles O50: a word placed with `withFetchWord` is a presented request, and taking it restores the state. -/
theorem stepRunsDecoded : Obligations.StepRunsDecoded :=
  ⟨fun _ _ _ _ hh hw hf hb hd ho => step_of_decode hh hw hf hb hd ho,
    fun s _ _ _ hw hf hb hd ho =>
      step_of_decode (s := s.withFetchWord _ _) rfl hw hf hb (decodeTableWord_eq_some hd) ho⟩

/-! ### The operand domains -/

theorem addrInDomain_iff (c : Config) (a : Addr) : addrInDomain c a = true ↔ a.toNat < 2 ^ c.addrBits := by
  simp [addrInDomain]

theorem alignInDomain_iff (c : Config) (align : Bits3) : alignInDomain c align = true ↔ align.toNat ≤ c.rxAlignMax :=
  iff_of_eq Nat.ble_eq

/-- Six bits are below any wider power of two. -/
theorem addrInDomain_of_six_le {c : Config} (h : 6 ≤ c.addrBits) (a : Addr) : addrInDomain c a = true :=
  (addrInDomain_iff c a).2 (a.isLt.trans_le (Nat.pow_le_pow_right (by decide) h))

/-- Three bits hold at most 7. -/
theorem alignInDomain_of_seven_le {c : Config} (h : 7 ≤ c.rxAlignMax) (align : Bits3) : alignInDomain c align = true :=
  (alignInDomain_iff c align).2 ((Nat.le_of_lt_succ align.isLt).trans h)

theorem addr_align_inDomain_iff (c : Config) (a : Addr) (align : Bits3) :
    (addrInDomain c a && alignInDomain c align) = true ↔ a.toNat < 2 ^ c.addrBits ∧ align.toNat ≤ c.rxAlignMax := by
  rw [Bool.and_eq_true, addrInDomain_iff, alignInDomain_iff]

/-- An instruction carries no operand that a configuration can shut out but addresses and alignments. -/
theorem operandsInDomain_of_all {c : Config} (ha : ∀ a, addrInDomain c a = true)
    (hx : ∀ align, alignInDomain c align = true) (i : Instr) : operandsInDomain c i = true := by
  cases i <;> simp only [operandsInDomain, ha, hx, Bool.and_self]

/-- Settles O52: each row of `operandsInDomain` is a conjunction of the two domain tests, or none of them. -/
theorem defaultDomains : Obligations.DefaultDomains := by
  refine ⟨?widest, ?addr, ?addrAlign, ?comm, ?bitframing, ?neither⟩
  case widest =>
    intro c i h6 h7
    exact operandsInDomain_of_all (addrInDomain_of_six_le h6) (alignInDomain_of_seven_le h7) i
  case addr =>
    intro c a len v data i hi
    fin_cases hi <;> exact addrInDomain_iff c a
  case addrAlign =>
    intro c a len n align i hi
    fin_cases hi <;> exact addr_align_inDomain_iff c a align
  case comm => exact fun c o => alignInDomain_iff c o.align
  case bitframing => exact fun c _ align _ => alignInDomain_iff c align
  case neither =>
    intro c len data op flag u0 u1 u2 u3 bcc lo hi i hmem
    fin_cases hmem <;> rfl

end Sys2Proof.Machine

/-! ## The state (10_state.md): the request record read back, the step, the invariant -/

namespace Sys2Proof

/-! ### Decoding what was encoded -/

/-- A reader that has read hands its operand and the bytes after it on. -/
theorem read_bind {α : Type} (a : α) (f : α → Except DecodeError Instr) : (Except.ok a >>= f) = f a := rfl

theorem readData_exact {len : Byte} {data : List Byte} (h : dataFits len data = true) :
    readData len data = .ok (data, []) := by simpa using readData_append len data [] h

theorem decodeRdblk_operands (a : Addr) (len : Byte) (align : Bits3) :
    decodeRdblk [a.setWidth 8, len, align.setWidth 8] = .ok (.rdblk a len align) := by
  simp only [decodeRdblk, readAddr_cons, readByte_cons, readBits3_cons, read_bind]
  rfl

theorem decodeAddrByte_operands (mk : Addr → Byte → Instr) (a : Addr) (v : Byte) :
    decodeAddrByte mk [a.setWidth 8, v] = .ok (mk a v) := by
  simp only [decodeAddrByte, readAddr_cons, readByte_cons, read_bind]
  rfl

theorem decodeWrblk_operands (a : Addr) {len : Byte} {data : List Byte} (h : dataFits len data = true) :
    decodeWrblk (a.setWidth 8 :: len :: data) = .ok (.wrblk a len data) := by
  simp only [decodeWrblk, readAddr_cons, readByte_cons, readData_exact h, read_bind]
  rfl

theorem decodeCalccrc_operands {len : Byte} {data : List Byte} (h : dataFits len data = true) :
    decodeCalccrc (len :: data) = .ok (.calccrc len data) := by
  simp only [decodeCalccrc, readByte_cons, readData_exact h, read_bind]
  rfl

theorem decodeComm_encodeComm (o : CommOperands) (h : o.wf = true) : decodeComm (encodeComm o) = .ok (.comm o) := by
  obtain ⟨hdata, hcap⟩ := (CommOperands.wf_iff o).1 h
  simp only [decodeComm, encodeComm, readByte_cons, readData_append _ _ _ hdata, readBits3_cons, readBit_cons,
    readCap_cons _ _ hcap, read_bind]
  rfl

/-- A code that is none of the twenty assigned ones falls through to the last arm (30_encoding.md R96). -/
theorem decodeOp_unassigned {op : Byte} (rest : List Byte) (h : (Instr.unassigned op).wf = true) :
    decodeOp op rest = .ok (.unassigned op) := by
  have hne : ∀ c ∈ assignedOps, op ≠ c := fun c hc e => by
    subst e
    simp [Instr.wf, hc] at h
  simp only [assignedOps, List.forall_mem_cons] at hne
  simp only [decodeOp, hne, if_false]

theorem decodeChipReg_bitframingByte (start : Bool) (align txLast : Bits3) :
    decodeChipReg [bitframingByte start align txLast] = .ok (.bitframingValue start align txLast) := by
  revert start align txLast
  decide +kernel

theorem decodeFrameN_burst (a : Addr) (align : Bits3) {count : BitVec 7} (h1 : 1 ≤ count.toNat)
    (h64 : count.toNat ≤ 64) :
    decodeFrameN align (List.replicate count.toNat (addressByte true a) ++ [0]) = .ok (.xferRdn a count align) := by
  obtain ⟨n, hn⟩ : ∃ n, count.toNat = n + 1 := Nat.exists_eq_add_of_le' h1
  have hcount : BitVec.ofNat 7 (n + 1) = count := by rw [← hn, BitVec.ofNat_toNat, BitVec.setWidth_eq]
  have hlen : ¬ 64 < n + 1 := by omega
  simp [hn, List.replicate_succ, decodeFrameN, hcount, hlen]

theorem decodeSequence_writeFrames (a : Addr) {data : List Byte} (h1 : 1 ≤ data.length) (h64 : data.length ≤ 64) :
    decodeSequence (data.flatMap fun v => [addressByte false a, v]) = .ok (.xferWrn a data) := by
  have hdata := sequenceData_frames (addressByte false a) data
  cases data with
  | nil => cases h1
  | cons v rest =>
    simp only [List.flatMap_cons, List.cons_append, List.nil_append] at hdata ⊢
    simp only [decodeSequence, hdata, h64, if_true]
    simp

theorem decode_encode (i : Instr) (h : i.wf = true) : decode (encode i) = .ok i := by
  cases i with
  | rdreg a => exact congrArg (Except.map _) (readAddr_cons a [])
  | rdblk a len align => exact decodeRdblk_operands a len align
  | wrreg a v => exact decodeAddrByte_operands .wrreg a v
  | wrblk a len data => exact decodeWrblk_operands a h
  | setbm a m => exact decodeAddrByte_operands .setbm a m
  | clrbm a m => exact decodeAddrByte_operands .clrbm a m
  | calccrc len data => exact decodeCalccrc_operands h
  | comm o => exact decodeComm_encodeComm o h
  | initialise b => exact congrArg (Except.map _) (readBit_cons .busOk b [])
  | unassigned op => exact decodeOp_unassigned [] h
  | xferAbyteRd a => simp [encode, decode, decodeByte0]
  | xferAbyteWr a v => simp [encode, decode, decodeByte0, Except.map]
  | xferRd1 a => simp [encode, decode, decodeFrame2]
  | xferRdn a count align =>
    simp only [Instr.wf, Bool.and_eq_true, Nat.ble_eq] at h
    exact decodeFrameN_burst a align h.1 h.2
  | xferWr1 a v => simp [encode, decode, decodeFrame2]
  | xferWrn a data =>
    simp only [Instr.wf, Bool.and_eq_true, Nat.ble_eq] at h
    exact decodeSequence_writeFrames a h.1 h.2
  | xferReserved b => exact if_pos h
  | bitframingValue start align txLast => exact decodeChipReg_bitframingByte start align txLast
  | piccReplySak sak extra => exact if_pos (Nat.ble_eq ▸ h)
  | hreset | sreset | init | anton | antoff | select _ | reqa | wupa | isnew | hlta | poll | cmdIdle | cmdCalccrc
  | cmdTransceive | cmdSoftreset | piccReqa | piccWupa | piccAnticollCl1 | piccSelectCl1 _ _ _ _ _ _ _ | piccHlta _ _
  | piccReplyAtqa _ _ | piccReplyAnticoll _ _ _ _ _ | statusOk | statusError | statusCollision | statusTimeout
  | statusNoRoom | statusInvalid | statusCrcWrong => rfl

/-- Settles O45, row by row: each reader takes back the operand the encoder wrote. -/
theorem decodeEncode : Obligations.DecodeEncode := decode_encode

end Sys2Proof

namespace Sys2Proof.Machine

variable {α : Type}

/-! ### Reset, and what a step does when it runs nothing -/

/-- Settles O1: each value is read off `State.reset`. -/
theorem resetState : Obligations.ResetState := ⟨rfl, rfl, rfl, rfl, rfl, rfl, rfl, rfl⟩

theorem step_idle {s : State} (hh : s.host = []) : step s = .next s := by simp only [step, hh]

theorem step_illFormed {s : State} {p : Packet} {rest : List Packet} (hh : s.host = p :: rest)
    (hw : s.cfg.wf = false) : step s = .refused .illFormedConfiguration := by
  simp [step, hh, hw]

theorem present_of_fatal_or_busy (p : Packet) {s : State} (h : s.fatal = true ∨ s.busy = true) :
    present p s = .next s := by
  rcases h with h | h <;> simp [present, h]

theorem runPacket_of_error {p : Packet} {e : DecodeError} {s : State} (hd : decode p = .error e) :
    runPacket p s = .refused (.undecodable e) := by
  simp only [runPacket, hd]

theorem runPacket_outsideDomain {p : Packet} {i : Instr} {s : State} (hd : decode p = .ok i)
    (ho : operandsInDomain s.cfg i = false) : runPacket p s = .refused .operandOutsideDomain := by
  simp [runPacket, hd, ho]

theorem step_of_not_fatal_not_busy {s : State} {p : Packet} {rest : List Packet} (hh : s.host = p :: rest)
    (hw : s.cfg.wf = true) (hf : s.fatal = false) (hb : s.busy = false) : step s = runPacket p (s.setHost rest) :=
  (step_of_host_cons hh hw).trans (present_of_not_fatal_not_busy p hf hb)

/-- Settles O51, branch by branch of `step`, `present` and `runPacket`. -/
theorem stepOtherwise : Obligations.StepOtherwise := by
  refine fun s => ⟨step_idle, fun p rest hh => ⟨step_illFormed hh, fun hw h => ?_, fun hw hf hb e hd => ?_,
    fun hw hf hb i hd ho => ?_⟩⟩
  · exact (step_of_host_cons hh hw).trans (present_of_fatal_or_busy p h)
  · exact (step_of_not_fatal_not_busy hh hw hf hb).trans (runPacket_of_error hd)
  · exact (step_of_not_fatal_not_busy hh hw hf hb).trans (runPacket_outsideDomain hd ho)

/-- Settles O58: of the cases of a step only the ignored request and the empty list are left when FATAL is set. -/
theorem fatalIsSticky : Obligations.FatalIsSticky := by
  intro s t h hf
  rcases step_cases s t h with ⟨-, rfl⟩ | ⟨p, rest, -, -, ⟨-, rfl⟩ | ⟨hn, -⟩⟩
  · exact ⟨rfl, hf⟩
  · exact ⟨rfl, hf⟩
  · rw [hf] at hn
    cases hn

/-! ### What no operation reads -/

theorem Blind.xfer {G : Type} {g : Scratch → G} (tx : List Byte) : Blind g g (Machine.xfer tx) := fun _ _ a =>
  ⟨congrArg Except.ok (a.1.rx tx), a.1.exchanged tx, fun _ _ => a.2⟩

/-- From states alike but for the scratch, the counter, the call stack, the last response and BUSY, an instruction does
the same (10_state.md R30). -/
theorem exec_of_agree (i : Instr) {s t : State} (a : Agree s t) : exec i s = exec i t := by
  have op : ∀ {m : Op Results}, Blind (fun _ => ()) (fun _ => ()) m →
      Host.Outcome.next (φ := Fault) (ρ := Refusal) (operation m s) = .next (operation m t) :=
    fun h => congrArg _ (h.operation a)
  have returned : ∀ {β : Type} {m : Op β} {f : β → Results}, Blind (fun _ => ()) (fun _ => ()) m →
      Host.Outcome.next (φ := Fault) (ρ := Refusal) (operation (m >>= fun x => pure (f x)) s) =
        .next (operation (m >>= fun x => pure (f x)) t) := fun h => op (h.bind fun _ => .pure _)
  have comm : ∀ p, Blind (fun _ => ()) (fun _ => ()) (communicate p) :=
    Blind.communicate Blind.buffers_unit fun _ _ => rfl
  cases i with
  | rdreg a => exact returned (.rdReg a)
  | rdblk a len align => exact returned (.rdBlk a _ align)
  | wrreg a v => exact returned (.wrReg a v)
  | wrblk a len data => exact returned (.wrBlk a _ data)
  | setbm a m => exact returned (.setBits Blind.buffers_unit a m)
  | clrbm a m => exact returned (.clrBits Blind.buffers_unit a m)
  | hreset => exact returned .hardReset
  | sreset => exact returned .softReset
  | init => exact returned (.initChip Blind.buffers_unit)
  | anton => exact returned (.antennaOn Blind.buffers_unit)
  | antoff => exact returned (.antennaOff Blind.buffers_unit)
  | calccrc len data => exact returned (.calcCrc Blind.buffers_unit data _)
  | comm o => exact returned (comm _)
  | select v =>
    by_cases hv : v = 0
    · simpa only [exec, execSelect, hv, if_true] using returned .selectCard
    · simp only [exec, execSelect, hv, if_false]
  | reqa => exact returned .requestA
  | wupa => exact returned .wakeupA
  | isnew => exact returned .isNewCardPresent
  | hlta => exact returned .haltA
  | initialise b => exact returned (.initializeOp b)
  | poll => exact returned .pollForCard
  | xferAbyteRd _ | xferRd1 _ | xferAbyteWr _ _ | xferWr1 _ _ =>
    exact op (.bind .askCfg fun _ => .bind (.xfer _) fun _ => .pure _)
  | xferRdn a n align => exact returned (.rdBlk a _ align)
  | xferWrn a data => exact returned (.wrBlk a _ data)
  | xferReserved b => rfl
  | cmdIdle | cmdCalccrc | cmdTransceive | cmdSoftreset =>
    exact op (.bind .askCfg fun _ => .bind (.wrReg _ _) fun _ => .pure _)
  | bitframingValue start align txLast => exact returned (.setBitFraming start align txLast)
  | piccReqa | piccWupa | piccAnticollCl1 | piccSelectCl1 _ _ _ _ _ _ _ | piccHlta _ _ =>
    exact op (.bind .askCfg fun _ => .bind (comm _) fun _ => .pure _)
  | piccReplyAtqa a0 a1 =>
    exact op (.bind (h := fun x => x.ab) (.latch _ (fun _ => [a0, a1]) fun _ => rfl) fun _ =>
      .bind .takeAtqa fun _ => .pure _)
  | piccReplyAnticoll u0 u1 u2 u3 bcc =>
    exact op (.bind (h := fun x => x.rb) (.latch _ (fun _ => [u0, u1, u2, u3, bcc]) fun _ => rfl) fun _ =>
      .bind (.peekScratch _ id fun _ => rfl) fun _ => .bind (.checkReplyLength _) fun _ => .bind (.checkBcc _) fun _ =>
      .none (.pure _))
  | piccReplySak sak extra =>
    exact op (.bind (h := fun x => x.kb) (.latch _ (fun _ => sak :: extra) fun _ => rfl) fun _ =>
      .bind (.peekScratch _ id fun _ => rfl) fun _ => .bind (.sakOf _) fun _ => .none (.pure _))
  | statusOk => exact op (.pure _)
  | unassigned _ | statusError | statusCollision | statusTimeout | statusNoRoom | statusInvalid | statusCrcWrong =>
    exact op (.raise _)

/-- Settles O59: the five fields replaced are those that `Agree` does not speak of. -/
theorem scratchUnread : Obligations.ScratchUnread := fun i s _ _ _ _ _ =>
  exec_of_agree i (t := s) ⟨rfl, rfl, rfl, rfl, rfl, rfl, rfl⟩

/-! ### What an instruction leaves of the persistent state -/

/-- The reset line and the fatal flag stay; so does `UID` where nothing is said to write it. -/
def SameLines (uidWritten : Bool) (s t : State) : Prop :=
  t.nrst = s.nrst ∧ t.fatal = s.fatal ∧ (uidWritten = false → t.uid = s.uid)

theorem SameLines.refl {x : Bool} (s : State) : SameLines x s s := ⟨rfl, rfl, fun _ => rfl⟩

theorem SameLines.trans {x : Bool} {s t u : State} (h : SameLines x s t) (k : SameLines x t u) : SameLines x s u :=
  ⟨k.1.trans h.1, k.2.1.trans h.2.1, fun e => (k.2.2 e).trans (h.2.2 e)⟩

theorem callFrame_sameLines (x : Bool) : CallFrame (SameLines x) where
  refl := .refl
  trans := .trans
  exchange s _ _ := .refl s
  wait s _ := .refl s
  poll s _ := .refl s
  seq s _ := .refl s
  latch s _ _ _ _ _ := .refl s
  buffers s _ := .refl s

/-- The configuration and the host's list go through everything an operation does. -/
theorem machineFrame_cfg_host : MachineFrame fun s t => t.cfg = s.cfg ∧ t.host = s.host where
  refl _ := ⟨rfl, rfl⟩
  trans h k := ⟨k.1.trans h.1, k.2.trans h.2⟩
  exchange _ _ _ := ⟨rfl, rfl⟩
  wait _ _ := ⟨rfl, rfl⟩
  poll _ _ := ⟨rfl, rfl⟩
  seq _ _ := ⟨rfl, rfl⟩
  latch _ _ _ _ _ _ := ⟨rfl, rfl⟩
  buffers _ _ := ⟨rfl, rfl⟩
  uid _ _ := ⟨rfl, rfl⟩
  nrst _ _ := ⟨rfl, rfl⟩
  fatal _ := ⟨rfl, rfl⟩
  event _ _ := ⟨rfl, rfl⟩
  busy _ _ := ⟨rfl, rfl⟩
  finish _ _ := ⟨rfl, rfl⟩

/-! SELECT and POLL write `UID` and neither line. -/

namespace SameLines

theorem updateUid (f : Uid → Uid) : Keeps (SameLines true) (Machine.update fun s => s.setUid (f s.uid)) := fun _ =>
  ⟨rfl, rfl, nofun⟩

theorem copyUid (rb : List Byte) : Keeps (SameLines true) (Machine.copyUid rb) :=
  have B := (callFrame_sameLines true).toBusFrame
  .step B (updateUid _) fun _ => .line B <| .line B (updateUid fun u => u.copied (rb.take 4))

theorem takeAnticoll : Keeps (SameLines true) Machine.takeAnticoll :=
  have B := (callFrame_sameLines true).toBusFrame
  .bind B (.peek B _) fun _ => .bind B (.checkReplyLength B _) fun _ => .bind B (copyUid _) fun _ => .checkBcc B _

theorem takeSak : Keeps (SameLines true) Machine.takeSak :=
  have B := (callFrame_sameLines true).toBusFrame
  .bind B (.peek B _) fun _ => .bind B (.sakOf B _) fun sak => .step B (updateUid fun u => u.stored sak) fun _ =>
    .step B (updateUid _) fun _ => .line B (.peek B _)

theorem selectCard : Keeps (SameLines true) Machine.selectCard :=
  have C := callFrame_sameLines true
  have B := C.toBusFrame
  .enter B <| .bind B (.anticollExchange C) fun _ => .bind B takeAnticoll fun _ => .bind B (.selectExchange C) fun _ =>
    takeSak

theorem reportCard : Keeps (SameLines true) Machine.reportCard :=
  have C := callFrame_sameLines true
  have B := C.toBusFrame
  .bind B (.askCfg B) fun _ => .bind B (.peek B _) fun _ => .step B (fun s => .refl s) fun _ => .line B <|
    .ite (.step B (.attempt (.haltA C)) fun _ => .pure B _) (.pure B _)

theorem pollForCard : Keeps (SameLines true) Machine.pollForCard :=
  have C := callFrame_sameLines true
  have B := C.toBusFrame
  .enter B <| .step B (.isNewCardPresent C) fun _ => .line B <| .ite
    (.step B (.bind B (.attempt selectCard) fun _ => .pure B _) fun _ => .line B <|
      .ite (.bind B reportCard fun _ => .done B _) (.pure B _))
    (.pure B _)

theorem operation {x : Bool} {m : Op Results} (h : Keeps (SameLines x) m) (s : State) :
    SameLines x s (Machine.operation m s) := h (s.setBusy true)

end SameLines

/-- An instruction that is said to write neither line keeps both, and `UID` if it is not said to write that. -/
theorem exec_sameLines (i : Instr) (s t : State) (hn : writesNrst i = false) (hf : writesFatal i = false)
    (h : exec i s = .next t) : SameLines (writesUid i) s t := by
  have C := callFrame_sameLines (writesUid i)
  have B := C.toBusFrame
  have op : ∀ {m : Op Results}, Keeps (SameLines (writesUid i)) m →
      .next (operation m s) = Host.Outcome.next (φ := Fault) (ρ := Refusal) t → SameLines (writesUid i) s t := by
    intro m hm e
    injection e with e
    exact e ▸ SameLines.operation hm s
  have returned : ∀ {β : Type} {m : Op β} {f : β → Results}, Keeps (SameLines (writesUid i)) m →
      .next (operation (m >>= fun x => pure (f x)) s) = Host.Outcome.next (φ := Fault) (ρ := Refusal) t →
      SameLines (writesUid i) s t := fun hm => op (.bind B hm fun _ => .pure B _)
  cases i with
  | rdreg a => exact returned (.rdReg B a) h
  | rdblk a len align => exact returned (.rdBlk B a _ align) h
  | wrreg a v => exact returned (.wrReg B a v) h
  | wrblk a len data => exact returned (.wrBlk B a _ data) h
  | setbm a m => exact returned (.setBits B a m) h
  | clrbm a m => exact returned (.clrBits B a m) h
  | hreset => cases hn
  | sreset => exact returned (.softReset B) h
  | init => exact returned (.initChip B) h
  | anton => exact returned (.antennaOn B) h
  | antoff => exact returned (.antennaOff B) h
  | calccrc len data => exact returned (.calcCrc B data _) h
  | comm o => exact returned (.communicate B _) h
  | select v =>
    simp only [exec, execSelect] at h
    split at h
    · exact returned SameLines.selectCard h
    · cases h
  | reqa => exact returned (.requestA C) h
  | wupa => exact returned (.wakeupA C) h
  | isnew => exact returned (.isNewCardPresent C) h
  | hlta => exact returned (.haltA C) h
  | initialise b =>
    cases b with
    | true => cases hn
    | false => cases hf
  | poll => exact returned SameLines.pollForCard h
  | xferAbyteRd a | xferRd1 a => exact op (.readOnce B a) h
  | xferAbyteWr a v | xferWr1 a v => exact op (.writeOnce B a v) h
  | xferRdn a n align => exact returned (.rdBlk B a _ align) h
  | xferWrn a data => exact returned (.wrBlk B a _ data) h
  | xferReserved b => cases h
  | cmdIdle | cmdCalccrc | cmdTransceive | cmdSoftreset => exact op (.issueCommand B _) h
  | bitframingValue start align txLast => exact returned (.setBitFraming B start align txLast) h
  | piccReqa | piccWupa | piccAnticollCl1 | piccSelectCl1 _ _ _ _ _ _ _ | piccHlta _ _ =>
    exact op (.exchangeResult B _ _ _) h
  | piccReplyAtqa a0 a1 => exact op (.bind B (.buffers C _) fun _ => .bind B (.takeAtqa B) fun _ => .pure B _) h
  | piccReplyAnticoll u0 u1 u2 u3 bcc =>
    exact op (.bind B (.buffers C _) fun _ => .bind B (.peek B _) fun _ => .bind B (.checkReplyLength B _) fun _ =>
      .bind B (.checkBcc B _) fun _ => .pure B _) h
  | piccReplySak sak extra =>
    exact op (.bind B (.buffers C _) fun _ => .bind B (.peek B _) fun _ => .bind B (.sakOf B _) fun _ => .pure B _) h
  | statusOk => exact op (.pure B _) h
  | unassigned _ | statusError | statusCollision | statusTimeout | statusNoRoom | statusInvalid | statusCrcWrong =>
    exact op (.raise B _) h

/-- An operation's body runs in the accepted state, whose view is the one before it. -/
theorem Triple.accepted {c : Config} {n : Nat} {P : View → Prop} {m : Op α} {Q : α → View → Prop}
    {E : Raised → View → Prop} (h : Triple c n P m Q E) {s : State} (hc : s.cfg = c) (hp : P (view s)) :
    frameCount (runOp m (s.setBusy true)).2.trace ≤ frameCount s.trace + n ∧
      Tried Q E (runOp m (s.setBusy true)).1 (view (runOp m (s.setBusy true)).2) := by
  obtain ⟨-, hn, hm⟩ := h (s.setBusy true) hc hp
  refine ⟨hn, ?_⟩
  cases hr : (runOp m (s.setBusy true)).1 with
  | ok a =>
    rw [hr] at hm
    exact hm
  | error e =>
    rw [hr] at hm
    exact hm

/-- `UID`, the reset line and the fatal flag are at the end of an operation what they were when its body ended. -/
theorem operation_lines {n : Nat} {m : Op Unit} {s : State} {u : Uid} {r f : Bool}
    (h : Triple s.cfg n (Lines s.uid s.nrst s.fatal s.host) m (fun _ => Lines u r f s.host)
      fun _ => Lines u r f s.host) :
    let t := operation (m >>= fun _ => pure noResult) s
    t.uid = u ∧ t.nrst = r ∧ t.fatal = f := by
  obtain ⟨-, hv⟩ := h.accepted rfl ⟨rfl, rfl, rfl, rfl⟩
  rw [operation_eq, runOp_bind]
  rcases hr : runOp m (s.setBusy true) with ⟨_ | _, t⟩ <;> rw [hr] at hv
  all_goals
    obtain ⟨hu, hn, hf, -⟩ := hv
    exact ⟨hu, hn, hf⟩

theorem exec_hreset_lines {s t : State} (h : exec .hreset s = .next t) :
    t.uid = s.uid ∧ t.nrst = true ∧ t.fatal = s.fatal := by
  injection h with h
  exact h ▸ operation_lines .hardReset

theorem exec_initialise_lines {b : Bool} {s t : State} (h : exec (.initialise b) s = .next t) :
    t.uid = s.uid ∧ t.nrst = (b || s.nrst) ∧ t.fatal = (!b || s.fatal) := by
  injection h with h
  refine h ▸ operation_lines (.imp (.initializeOp b) le_rfl (fun _ p => p) ?_ ?_)
  · rintro _ v ⟨rfl, hv⟩
    exact hv
  · rintro _ v ⟨rfl, -, hv⟩
    exact hv

/-- Settles O56: HRESET and INITIALIZE by what they do to the lines, every other instruction by its frame. -/
theorem persistentFrame : Obligations.PersistentFrame := by
  intro i s t h
  obtain ⟨hcfg, hhost⟩ := exec_keeps machineFrame_cfg_host i s t h
  refine ⟨hcfg, hhost, ?_⟩
  cases i with
  | hreset =>
    obtain ⟨hu, hn, hf⟩ := exec_hreset_lines h
    exact ⟨fun _ => hu, nofun, fun _ => hf, fun _ => hn, nofun⟩
  | initialise b =>
    obtain ⟨hu, hn, hf⟩ := exec_initialise_lines h
    cases b with
    | true => exact ⟨fun _ => hu, nofun, fun _ => hf, fun _ => hn, nofun⟩
    | false => exact ⟨fun _ => hu, fun _ => hn, nofun, nofun, fun _ => hf⟩
  | _ =>
    obtain ⟨hn, hf, hu⟩ := exec_sameLines _ s t rfl rfl h
    exact ⟨hu, fun _ => hn, fun _ => hf, nofun, nofun⟩

/-! ### The response record and `UID` after an instruction -/

/-- A failure keeps a reply under COLLISION, CRC_WRONG or TIMEOUT alone (10_state.md R27, 43_communicate.md R172). -/
def KeepsRightly (e : Raised) : Prop :=
  e.back ≠ none → e.status = .collision ∨ e.status = .crcWrong ∨ e.status = .timeout

theorem keepsRightly_of_none {e : Raised} (h : e.back = none) : KeepsRightly e := fun hb => absurd h hb

theorem ProtocolError.keepsRightly {e : Raised} (h : ProtocolError e) : KeepsRightly e := keepsRightly_of_none h.2

theorem BusOp.CommError.keepsRightly {e : Raised} (h : BusOp.CommError e) : KeepsRightly e := h.2.2

theorem BusOp.CrcError.keepsRightly {c : Config} {len : Nat} {e : Raised} (h : BusOp.CrcError c len e) :
    KeepsRightly e := by
  rcases h with rfl | ⟨rfl, -⟩ <;> exact keepsRightly_of_none rfl

theorem responseOk_ok (c : Config) (r : Results) : ResponseOk (responseOf c (.ok r)) := ⟨absurd rfl, absurd rfl⟩

theorem responseOk_error (c : Config) {e : Raised} (h : KeepsRightly e) : ResponseOk (responseOf c (.error e)) :=
  ⟨fun _ => rfl, h⟩

theorem uidOk_four {b : List Byte} (h : b.length = 4) (sak : Byte) (valid : Bool) : UidOk ⟨4, b, sak, valid⟩ :=
  ⟨h.symm, .inr rfl, fun _ => rfl⟩

theorem Triple.Selected.uidOk {r f : Bool} {l : List Packet} {a : UidOut} {v : View}
    (h : Triple.Selected r f l a v) : UidOk v.uid := by
  obtain ⟨b, hb, -, -, hu, -⟩ := h
  exact hu ▸ uidOk_four hb _ _

/-- Before the copy `UID` is the old one, after it four bytes that are not confirmed (44_anticollision_select.md
R201). -/
theorem uidOk_notSelected {u x : Uid} (hu : UidOk u) (h : x = u ∨ Triple.Unconfirmed u x) : UidOk x := by
  rcases h with rfl | ⟨b, hb, rfl⟩
  · exact hu
  · exact uidOk_four hb _ _

theorem Config.bccFailStatus_ne_ok {c : Config} (hw : c.wf = true) : c.bccFailStatus ≠ .ok := fun h => by
  simp [Config.wf, h] at hw

theorem commCost_exchangeCall_some (c : Config) (send : List Byte) (txLast : Bits3) (cap : BitVec 7) :
    BusOp.commCost c (exchangeCall c send txLast (some cap)) = 13 + send.length + c.commPollBound := by
  simp only [BusOp.commCost, exchangeCall, Option.isSome_some, Bool.and_false, if_true]
  simp
  omega

theorem commCost_exchangeCall_none (c : Config) (send : List Byte) (txLast : Bits3) :
    BusOp.commCost c (exchangeCall c send txLast none) = 11 + send.length + c.commPollBound := by
  simp [BusOp.commCost, exchangeCall]

theorem commCost_call_le (c : Config) (o : CommOperands) :
    BusOp.commCost c (CommOperands.call o) ≤ frameBound c (.comm o) := by
  obtain ⟨_, _, len, _, _, _, chk, hasBack, _⟩ := o
  cases chk <;> cases hasBack <;> simp [BusOp.commCost, frameBound, CommOperands.call] <;> omega

/-- Begun with the persistent state of `s`, a sequence sends at most `n` frames, leaves `UID` within its invariants if
it was, and keeps no reply it may not keep. -/
def Completes (s : State) (n : Nat) (m : Op α) : Prop :=
  Triple s.cfg n (Lines s.uid s.nrst s.fatal s.host) m (fun _ v => UidOk s.uid → UidOk v.uid)
    fun e v => (UidOk s.uid → UidOk v.uid) ∧ KeepsRightly e

/-- What an instruction leaves: at most `n` frames more (the bound of its row: 70_reset_and_hazards.md R291), a `UID`
within its invariants if it was, an idle block and a response that carries what it may. -/
structure Completed (n : Nat) (s t : State) : Prop where
  frames : frameCount t.trace ≤ frameCount s.trace + n
  uid : UidOk s.uid → UidOk t.uid
  idle : Idle t
  response : ∀ r, t.response = some r → ResponseOk r

namespace Completes

variable {β : Type} {s : State} {n k : Nat} {m : Op α}

theorem lines_uidOk {v : View} (h : Lines s.uid s.nrst s.fatal s.host v) (hu : UidOk s.uid) : UidOk v.uid := by
  rwa [h.1]

theorem bus {Q : α → Prop} {E : Raised → Prop} (h : BusOp s.cfg n m Q E) (he : ∀ {e}, E e → KeepsRightly e)
    (hn : n ≤ k) : Completes s k m :=
  .imp (.lift h) hn (fun _ p => p) (fun _ _ p => lines_uidOk p.1) fun _ _ p => ⟨lines_uidOk p.1, he p.2⟩

theorem access {Q : α → Prop} (h : BusOp s.cfg n m Q fun _ => False) : Completes s n m := bus h nofun le_rfl

theorem protocol {Q : α → View → Prop}
    (h : Triple s.cfg n (Lines s.uid s.nrst s.fatal s.host) m Q
      fun e v => Lines s.uid s.nrst s.fatal s.host v ∧ ProtocolError e)
    (hq : ∀ {a v}, Q a v → UidOk s.uid → UidOk v.uid) : Completes s n m :=
  .imp h le_rfl (fun _ p => p) (fun _ _ p => hq p) fun _ _ p => ⟨lines_uidOk p.1, p.2.keepsRightly⟩

theorem returns {f : α → β} (h : Completes s n m) : Completes s n (m >>= fun a => pure (f a)) :=
  Triple.bind h fun _ => .pure fun _ p => p

theorem raise (st : Status) : Completes s 0 (Machine.raise st : Op α) :=
  Triple.raise fun _ p => ⟨lines_uidOk p, keepsRightly_of_none rfl⟩

theorem afterLatch {f : Scratch → Scratch} {m' : Op α} (h : Completes s n m') :
    Completes s n (Machine.latch f >>= fun _ => m') :=
  .cost (Triple.bind (.latch fun _ _ _ _ _ _ p => p) fun _ => h) (by omega)

theorem afterPeek {g : State → β} {f : β → Op α} (h : ∀ b, Completes s n (f b)) :
    Completes s n (Machine.peek g >>= f) := fun t hc hp => by
  rw [runOp_bind]
  exact h (g t) t hc hp

theorem afterLengthCheck (rb : List Byte) {m' : Op α} (h : Completes s n m') :
    Completes s n (Machine.checkReplyLength rb >>= fun _ => m') :=
  .cost (Triple.bind (.imp (.checkReplyLength rb) le_rfl (fun _ p => p) (fun _ _ p => p.1) fun _ _ p =>
    ⟨lines_uidOk p.1, p.2.keepsRightly⟩) fun _ => h) (by omega)

theorem issueCommand (f : ChipCommands → Byte) : Completes s 1 (Machine.issueCommand f) :=
  Triple.ask (returns (access (.wrReg _ _)))

theorem frame {tx : Config → List Byte} {f : List Byte → β} :
    Completes s 1 (Machine.askCfg >>= fun c => Machine.xfer (tx c) >>= fun rx => pure (f rx)) := fun _ hc hp =>
  ⟨hc, le_rfl, lines_uidOk hp⟩

theorem communicate (hf : s.cfg.fifoCapacity ≤ 64) (p : CommCall) (hn : BusOp.commCost s.cfg p ≤ n) :
    Completes s n (Machine.communicate p) := bus (.communicate p hf) BusOp.CommError.keepsRightly hn

theorem exchangeResult (hf : s.cfg.fifoCapacity ≤ 64) {send : Config → List Byte} {txLast : Config → Bits3}
    {cap : Config → Option (BitVec 7)}
    (hn : BusOp.commCost s.cfg (exchangeCall s.cfg (send s.cfg) (txLast s.cfg) (cap s.cfg)) ≤ n) :
    Completes s n (Machine.exchangeResult send txLast cap) := Triple.ask (returns (communicate hf _ hn))

theorem selectCard (hf : s.cfg.fifoCapacity ≤ 64) (hb : s.cfg.bccFailStatus ≠ .ok) :
    Completes s (frameBound s.cfg (.select 0)) Machine.selectCard := by
  refine .imp (.selectCard hf hb) le_rfl (fun _ p => p) (fun _ _ p _ => p.uidOk) ?_
  rintro e v ⟨he, x, hx, rfl, -⟩
  exact ⟨fun hu => uidOk_notSelected hu hx, he.keepsRightly⟩

theorem pollForCard (hf : s.cfg.fifoCapacity ≤ 64) (hb : s.cfg.bccFailStatus ≠ .ok) :
    Completes s (frameBound s.cfg .poll) Machine.pollForCard := by
  refine .imp (.pollForCard hf hb) le_rfl (fun _ p => p) (fun a v p hu => ?_) fun _ _ p => p.elim
  cases a with
  | some o => exact Triple.Selected.uidOk p
  | none =>
    obtain ⟨x, hx, rfl, -⟩ := p
    exact uidOk_notSelected hu hx

/-- The end of an operation. -/
theorem operation {m : Op Results} (h : Completes s n m) : Completed n s (Machine.operation m s) := by
  obtain ⟨hn, hv⟩ := Triple.accepted h rfl ⟨rfl, rfl, rfl, rfl⟩
  rw [operation_eq]
  rcases hr : runOp m (s.setBusy true) with ⟨r, t⟩
  rw [hr] at hn hv
  refine ⟨hn, ?uid, ⟨rfl, rfl, rfl, rfl⟩, ?response⟩
  case uid =>
    cases r with
    | ok a => exact hv
    | error e => exact hv.1
  case response =>
    rintro _ ⟨⟩
    cases r with
    | ok a => exact responseOk_ok _ a
    | error e => exact responseOk_error _ hv.2

end Completes

/-- Under a well-formed configuration every instruction that answers a next state has completed, within the frames of
its row. -/
theorem exec_completed (i : Instr) (s t : State) (hw : s.cfg.wf = true) (h : exec i s = .next t) :
    Completed (frameBound s.cfg i) s t := by
  have hf := Config.fifo_le s.cfg hw
  have hb := Config.bccFailStatus_ne_ok hw
  have op : ∀ {m : Op Results}, Completes s (frameBound s.cfg i) m →
      .next (operation m s) = Host.Outcome.next (φ := Fault) (ρ := Refusal) t →
      Completed (frameBound s.cfg i) s t := by
    intro m hm e
    injection e with e
    exact e ▸ hm.operation
  have returned : ∀ {β : Type} {m : Op β} {f : β → Results}, Completes s (frameBound s.cfg i) m →
      .next (operation (m >>= fun x => pure (f x)) s) = Host.Outcome.next (φ := Fault) (ρ := Refusal) t →
      Completed (frameBound s.cfg i) s t := fun hm => op hm.returns
  cases i with
  | rdreg a => exact returned (.access (.rdReg a)) h
  | rdblk a len align => exact returned (.bus (.rdBlk a _ align) (fun e => e.1 ▸ keepsRightly_of_none rfl) le_rfl) h
  | wrreg a v => exact returned (.access (.wrReg a v)) h
  | wrblk a len data => exact returned (.bus (.wrBlk a _ data) (fun e => e.1 ▸ keepsRightly_of_none rfl) le_rfl) h
  | setbm a m => exact returned (.access (.setBits a m)) h
  | clrbm a m => exact returned (.access (.clrBits a m)) h
  | hreset => exact returned (.protocol .hardReset fun p hu => p.1 ▸ hu) h
  | sreset => exact returned (.bus .softReset (fun e => e ▸ keepsRightly_of_none rfl) le_rfl) h
  | init => exact returned (.access .initChip) h
  | anton => exact returned (.access .antennaOn) h
  | antoff => exact returned (.access .antennaOff) h
  | calccrc len data =>
    exact returned (.bus (.calcCrc data _) BusOp.CrcError.keepsRightly (by simp only [frameBound]; omega)) h
  | comm o => exact returned (.communicate hf _ (commCost_call_le s.cfg o)) h
  | select v =>
    simp only [exec, execSelect] at h
    split at h
    · exact returned (.selectCard hf hb) h
    · cases h
  | reqa => exact returned (.protocol (.requestA hf) Completes.lines_uidOk) h
  | wupa => exact returned (.protocol (.wakeupA hf) Completes.lines_uidOk) h
  | isnew =>
    exact returned (.imp (.isNewCardPresent hf) le_rfl (fun _ p => p) (fun _ _ => Completes.lines_uidOk) fun _ _ p =>
      p.elim) h
  | hlta => exact returned (.protocol (.haltA hf) Completes.lines_uidOk) h
  | initialise b =>
    exact returned (.imp (.initializeOp b) le_rfl (fun _ p => p) (fun _ _ p hu => p.2.1 ▸ hu) fun _ _ p =>
      ⟨fun hu => p.2.2.1 ▸ hu, p.2.1 ▸ keepsRightly_of_none rfl⟩) h
  | poll => exact returned (.pollForCard hf hb) h
  | xferAbyteRd _ | xferRd1 _ | xferAbyteWr _ _ | xferWr1 _ _ => exact op .frame h
  | xferRdn a n align => exact returned (.bus (.rdBlk a _ align) (fun e => e.1 ▸ keepsRightly_of_none rfl) le_rfl) h
  | xferWrn a data => exact returned (.bus (.wrBlk a _ data) (fun e => e.1 ▸ keepsRightly_of_none rfl) le_rfl) h
  | xferReserved b => cases h
  | cmdIdle | cmdCalccrc | cmdTransceive | cmdSoftreset => exact op (.issueCommand _) h
  | bitframingValue start align txLast => exact returned (.access (.setBitFraming start align txLast)) h
  | piccReqa | piccWupa | piccAnticollCl1 | piccSelectCl1 _ _ _ _ _ _ _ =>
    exact op (.exchangeResult hf (commCost_exchangeCall_some _ _ _ _).le) h
  | piccHlta _ _ => exact op (.exchangeResult hf (commCost_exchangeCall_none _ _ _).le) h
  | piccReplyAtqa a0 a1 =>
    exact op (.afterLatch (Completes.protocol .takeAtqa Completes.lines_uidOk).returns) h
  | piccReplyAnticoll u0 u1 u2 u3 bcc =>
    exact op (.afterLatch <| .afterPeek fun rb => .afterLengthCheck rb <| .returns <|
      .protocol (.checkBcc hb rb) Completes.lines_uidOk) h
  | piccReplySak sak extra =>
    exact op (.afterLatch <| .afterPeek fun kb => .returns (.protocol (.sakOf kb) Completes.lines_uidOk)) h
  | statusOk => exact op (Triple.pure fun _ => Completes.lines_uidOk) h
  | unassigned _ | statusError | statusCollision | statusTimeout | statusNoRoom | statusInvalid | statusCrcWrong =>
    exact op (.raise _) h

/-! ### The invariant: what goes over the bus -/

theorem standard_iff (c : Config) : c.standard = true ↔ c.readFlag = 0x80 ∧ c.addrShift = 1 := by
  simp [Config.standard]

theorem abyteWr_of_standard {c : Config} (h : c.standard = true) (a : Addr) : abyteWr c a = addressByte false a := by
  obtain ⟨-, hshift⟩ := (standard_iff c).1 h
  simp [abyteWr, addressByte, hshift]

theorem abyteRd_of_standard {c : Config} (h : c.standard = true) (a : Addr) : abyteRd c a = addressByte true a := by
  obtain ⟨hflag, hshift⟩ := (standard_iff c).1 h
  simp [abyteRd, abyteWr, addressByte, hflag, hshift]

theorem exchangeShape_burst {n : Nat} (h1 : 1 ≤ n) (h64 : n ≤ 64) (a : Addr) {rx : List Byte}
    (hr : rx.length = (List.replicate n (addressByte true a) ++ [0]).length) :
    exchangeShape (List.replicate n (addressByte true a) ++ [0]) rx := by
  obtain ⟨k, rfl⟩ := Nat.exists_eq_add_of_le' h1
  have hlen : k + 1 + 1 ≤ 65 := Nat.succ_le_succ h64
  exact ⟨by simp, by simpa using hlen, hr, addressByte true a, by simp [List.replicate_succ], by simp, by simp⟩

theorem exchangeShape_write (a : Addr) (v : Byte) {rx : List Byte} (hr : rx.length = 2) :
    exchangeShape [addressByte false a, v] rx :=
  ⟨by simp, by simp, hr, addressByte false a, by simp, by simp, by simp, by simp⟩

/-- A single read is a block read of one byte. -/
theorem FrameForm.exchangeShape {c : Config} {tx : List Byte} (h : FrameForm c tx) (hw : c.wf = true)
    (hs : c.standard = true) {rx : List Byte} (hr : rx.length = tx.length) : exchangeShape tx rx := by
  rcases h with ⟨a, rfl⟩ | ⟨a, v, rfl⟩ | ⟨a, n, h1, hn, rfl⟩
  · rw [readFrame, abyteRd_of_standard hs] at hr ⊢
    exact exchangeShape_burst le_rfl (by decide) a hr
  · rw [writeFrame, abyteWr_of_standard hs] at hr ⊢
    exact exchangeShape_write a v hr
  · rw [burstFrame, abyteRd_of_standard hs] at hr ⊢
    exact exchangeShape_burst h1 (hn.trans (Config.fifo_le c hw)) a hr

theorem traceShape_nil : TraceShape [] := fun _ _ => List.not_mem_nil.elim

theorem TraceShape.xfer {trace : List Event} (h : TraceShape trace) {tx rx : List Byte} (hx : exchangeShape tx rx) :
    TraceShape (.xfer tx rx :: trace) := fun tx' rx' hm => by
  rcases List.mem_cons.1 hm with e | hm
  · injection e with e1 e2
    exact e1 ▸ e2 ▸ hx
  · exact h tx' rx' hm

/-- An event that is no exchange. -/
theorem TraceShape.other {trace : List Event} (h : TraceShape trace) {e : Event} (he : ∀ tx rx, .xfer tx rx ≠ e) :
    TraceShape (e :: trace) := fun tx rx hm =>
  h tx rx ((List.mem_cons.1 hm).resolve_left (he tx rx))

/-- The part of the invariant that holds in the middle of an operation too. -/
structure BusInv (s : State) : Prop where
  wf : s.cfg.wf = true
  standard : s.cfg.standard = true
  trace : TraceShape s.trace
  chip : ChipOk s.chip

/-- It speaks of the configuration, the trace and the chip alone. -/
theorem BusInv.of_eq {s t : State} (h : BusInv s) (hcfg : t.cfg = s.cfg) (htrace : t.trace = s.trace)
    (hchip : t.chip = s.chip) : BusInv t :=
  ⟨hcfg ▸ h.wf, hcfg ▸ h.standard, htrace ▸ h.trace, hchip ▸ h.chip⟩

theorem BusInv.emit {s : State} (h : BusInv s) {e : Event} (he : ∀ tx rx, .xfer tx rx ≠ e) : BusInv (s.emit e) :=
  ⟨h.wf, h.standard, h.trace.other he, h.chip⟩

theorem BusInv.exchanged {s : State} (h : BusInv s) {tx : List Byte} (htx : FrameForm s.cfg tx) :
    BusInv (s.exchanged tx) :=
  ⟨h.wf, h.standard, h.trace.xfer (htx.exchangeShape h.wf h.standard (s.rx_length tx)),
    chipAfter_ok s.chip tx h.chip⟩

theorem machineFrame_busInv : MachineFrame fun s t => BusInv s → BusInv t where
  refl _ := id
  trans h k := k ∘ h
  exchange _ _ htx h := h.exchanged htx
  wait _ _ h := h.emit nofun
  poll _ _ h := h.of_eq rfl rfl rfl
  seq _ _ h := h.of_eq rfl rfl rfl
  latch _ _ _ _ _ _ h := h.of_eq rfl rfl rfl
  buffers _ _ h := h.of_eq rfl rfl rfl
  uid _ _ h := h.of_eq rfl rfl rfl
  nrst _ _ h := ⟨h.wf, h.standard, h.trace.other nofun, h.chip⟩
  fatal _ h := h.of_eq rfl rfl rfl
  event _ _ h := h.emit nofun
  busy _ _ h := h.of_eq rfl rfl rfl
  finish _ _ h := ⟨h.wf, h.standard, h.trace.other nofun, h.chip⟩

theorem exec_machineInv {i : Instr} {s t : State} (hs : MachineInv s) (h : exec i s = .next t) : MachineInv t := by
  obtain ⟨hwf, hstd, huid, -, htrace, -, hchip⟩ := hs
  have hbus := exec_keeps machineFrame_busInv i s t h ⟨hwf, hstd, htrace, hchip⟩
  have hend := exec_completed i s t hwf h
  exact ⟨hbus.wf, hbus.standard, hend.uid huid, hend.idle, hbus.trace, hend.response, hbus.chip⟩

/-- The invariant does not speak of what the host presents. -/
theorem MachineInv.setHost {s : State} (h : MachineInv s) (x : List Packet) : MachineInv (s.setHost x) := h

/-- Settles O54: a step changes nothing but the host's list, or it is an instruction. -/
theorem invKept : Obligations.InvKept := by
  intro s t hs h
  rcases step_cases s t h with ⟨-, rfl⟩ | ⟨p, rest, -, -, ⟨-, rfl⟩ | ⟨-, -, i, -, -, hi⟩⟩
  · exact hs
  · exact hs.setHost rest
  · exact exec_machineInv (hs.setHost rest) hi

/-! ### The invariant at reset -/

/-- SOFTRESET_POLL_BOUND is free but for being a successor (log 9). -/
theorem Config.default_wf : Config.default.wf = true := by
  simp [Config.wf, Config.default]
  decide

theorem State.reset_response_ne_some (r : Response) : State.reset.response ≠ some r := nofun

/-- Settles O53: `UID` is empty, and there is neither an exchange nor a response yet. -/
theorem invReset : Obligations.InvReset :=
  ⟨Config.default_wf, rfl, ⟨rfl, .inl rfl, nofun⟩, ⟨rfl, rfl, rfl, rfl⟩, traceShape_nil,
    fun r h => absurd h (State.reset_response_ne_some r), reset_chipOk⟩

end Sys2Proof.Machine

/-! ## The memory (20_memory.md): the fixture's registers, completion, the trace -/

namespace Sys2Proof.Machine

/-! ### What the fixture does with a frame -/

/-- A read frame stores nothing. -/
theorem chipAfter_burst (m : Memory) (a : Addr) (n : Nat) :
    chipAfter (.simpleRegs m) (List.replicate n (addressByte true a) ++ [0]) = .simpleRegs m := by
  match n with
  | 0 => rfl
  | 1 => simp [chipAfter]
  | n + 2 => simp [List.replicate_succ, chipAfter]

theorem chipAfter_write (m : Memory) (a : Addr) (v : Byte) :
    chipAfter (.simpleRegs m) [addressByte false a, v] = .simpleRegs (memWrite m a.toNat v) := by
  simp [chipAfter]

/-- Every slot of a read frame but the first answers with the register that the byte sent one slot before names
(20_memory.md R56). -/
theorem chipSlot_burst (m : Memory) (trace : List Event) (a : Addr) {n k : Nat} (hk : k < n) :
    chipSlot (.simpleRegs m) trace (List.replicate n (addressByte true a) ++ [0]) (k + 1) = memRead m a.toNat := by
  obtain ⟨j, rfl⟩ := Nat.exists_eq_add_of_lt hk
  have hread : frameIsRead (List.replicate (k + j + 1) (addressByte true a) ++ [0]) = true := addressByte_isRead true a
  have hsent : (List.replicate (k + j + 1) (addressByte true a) ++ [0]).getD k 0 = addressByte true a := by
    rw [List.getD_append _ _ _ _ (by simp), List.getD_replicate _ hk]
  simp only [chipSlot, hread, Nat.succ_ne_zero, Nat.add_sub_cancel, hsent, addressByte_addr, if_true, if_false]

theorem drop_rx_burst {s : State} {m : Memory} (h : s.chip = .simpleRegs m) (a : Addr) (n : Nat) :
    (s.rx (List.replicate n (addressByte true a) ++ [0])).drop 1 = List.replicate n (memRead m a.toNat) := by
  refine List.eq_replicate_iff.2 ⟨by simp, fun b hb => ?_⟩
  simp only [State.rx, h, List.length_append, List.length_replicate, List.length_singleton, List.range_succ_eq_map,
    List.map_cons, List.drop_one, List.tail_cons, List.map_map, List.mem_map, List.mem_range] at hb
  obtain ⟨k, hk, rfl⟩ := hb
  exact chipSlot_burst m s.trace a hk

/-! ### The accesses on the fixture -/

/-- `t` is the fixture with the registers `m`, but that the one at `a` holds `v`. -/
def Stores (t : State) (m : Memory) (a : Addr) (v : Byte) : Prop :=
  ∃ m', FixtureWith t m' ∧ ∀ x, memRead m' x = if x = a.toNat then v else memRead m x

namespace FixtureWith

variable {s : State} {m : Memory}

theorem chip (h : FixtureWith s m) : s.chip = .simpleRegs m := h.1

theorem wf (h : FixtureWith s m) : Memory.wf m := h.2.1

theorem standard (h : FixtureWith s m) : s.cfg.standard = true := (standard_iff s.cfg).2 h.2.2

/-- A single read is a block read of one byte (30_encoding.md R82, R83). -/
theorem readFrame_eq (h : FixtureWith s m) (a : Addr) :
    readFrame s.cfg a = List.replicate 1 (addressByte true a) ++ [0] := by
  rw [readFrame, abyteRd_of_standard h.standard]
  rfl

theorem burstFrame_eq (h : FixtureWith s m) (a : Addr) (n : Nat) :
    burstFrame s.cfg a n = List.replicate n (addressByte true a) ++ [0] := by
  rw [burstFrame, abyteRd_of_standard h.standard]

theorem writeFrame_eq (h : FixtureWith s m) (a : Addr) (v : Byte) :
    writeFrame s.cfg a v = [addressByte false a, v] := by
  rw [writeFrame, abyteWr_of_standard h.standard]

theorem readValue_eq (h : FixtureWith s m) (a : Addr) : readValue s a = memRead m a.toNat := by
  have hdrop := drop_rx_burst h.chip a 1
  calc readValue s a = ((s.rx (List.replicate 1 (addressByte true a) ++ [0])).drop 1).getD 0 0 := by
        simp [readValue, h.readFrame_eq]
    _ = memRead m a.toNat := by rw [hdrop]; rfl

theorem readDone_chip (h : FixtureWith s m) (a : Addr) : (readDone s a).chip = s.chip := by
  rw [Machine.readDone, State.exchanged_chip, h.readFrame_eq, h.chip, chipAfter_burst]

theorem readDone (h : FixtureWith s m) (a : Addr) : FixtureWith (readDone s a) m :=
  ⟨(h.readDone_chip a).trans h.chip, h.2⟩

theorem burstValue_eq (h : FixtureWith s m) (a : Addr) (n : Nat) (align : Bits3) :
    burstValue s a n align = maskFirst align (List.replicate n (memRead m a.toNat)) := by
  rw [burstValue, h.burstFrame_eq, drop_rx_burst h.chip]
  split
  · next hn => rw [hn]; rfl
  · rfl

theorem burstDone_chip (h : FixtureWith s m) (a : Addr) (n : Nat) : (burstDone s a n).chip = s.chip := by
  rw [burstDone]
  split
  · rfl
  · rw [State.exchanged_chip, h.burstFrame_eq, h.chip, chipAfter_burst]

theorem writeDone (h : FixtureWith s m) (a : Addr) (v : Byte) :
    FixtureWith (writeDone s a v) (memWrite m a.toNat v) := by
  refine ⟨?_, memWrite_wf m a.toNat v h.wf a.isLt, h.2.2⟩
  rw [Machine.writeDone, State.exchanged_chip, h.writeFrame_eq, h.chip, chipAfter_write]

theorem stores_writeDone (h : FixtureWith s m) (a : Addr) (v : Byte) : Stores (Machine.writeDone s a v) m a v :=
  ⟨_, h.writeDone a v, fun x => memRead_memWrite m a.toNat x v h.wf⟩

theorem stores_setDone (h : FixtureWith s m) (a : Addr) (k : Byte) :
    Stores (setDone s a k) m a (memRead m a.toNat ||| k) := by
  rw [setDone, h.readValue_eq]
  exact (h.readDone a).stores_writeDone a _

theorem stores_clrDone (h : FixtureWith s m) (a : Addr) (k : Byte) :
    Stores (clrDone s a k) m a (memRead m a.toNat &&& ~~~k) := by
  rw [clrDone, h.readValue_eq]
  exact (h.readDone a).stores_writeDone a _

/-- Of the bytes written to one address the last one stays. -/
theorem stores_writesDone (h : FixtureWith s m) (a : Addr) (data : List Byte) (b : Byte) :
    Stores (writesDone s a (data ++ [b])) m a b := by
  induction data generalizing s m with
  | nil => exact h.stores_writeDone a b
  | cons d rest ih =>
    obtain ⟨m', hm', hx⟩ := ih (h.writeDone a d)
    refine ⟨m', hm', fun x => ?_⟩
    rw [hx, memRead_memWrite m a.toNat x d h.wf]
    split <;> rfl

end FixtureWith

/-- What the operation's end leaves is the fixture its body left. -/
theorem Stores.answered {i : Instr} {s t : State} {r : Results} {m : Memory} {a : Addr} {v : Byte}
    (h : Stores t m a v) (hi : exec i s = .next (endedOk r t)) :
    ∃ t m', exec i s = .next t ∧ FixtureWith t m' ∧ ∀ x, memRead m' x = if x = a.toNat then v else memRead m x := by
  obtain ⟨m', hm', hx⟩ := h
  exact ⟨_, m', hi, hm', hx⟩

@[simp] theorem endedOk_chip (r : Results) (t : State) : (endedOk r t).chip = t.chip := rfl

theorem endedOk_responded (r : Results) (t : State) : Responded (endedOk r t) .ok r := rfl

/-! ### The six accesses as the operations they are -/

section accesses

variable (s : State) (a : Addr)

theorem exec_rdreg : exec (.rdreg a) s = .next (endedOk { rval := some (readValue s a) } (readDone s a)) :=
  congrArg Host.Outcome.next ((Ends.rdReg a).answers (f := fun v => { noResult with rval := some v }))

theorem exec_rdblk {len : Byte} (align : Bits3) (h : len.toNat ≤ s.cfg.fifoCapacity) :
    exec (.rdblk a len align) s =
      .next (endedOk (bytesResult (burstValue s a len.toNat align)) (burstDone s a len.toNat)) :=
  congrArg Host.Outcome.next ((Ends.rdBlk a align h).answers (f := bytesResult))

theorem exec_wrreg (v : Byte) : exec (.wrreg a v) s = .next (endedOk {} (writeDone s a v)) :=
  congrArg Host.Outcome.next ((Ends.wrReg a v).answers (f := fun _ => noResult))

theorem exec_setbm (k : Byte) : exec (.setbm a k) s = .next (endedOk {} (setDone s a k)) :=
  congrArg Host.Outcome.next ((Ends.setBits Blind.buffers_unit a k).answers (f := fun _ => noResult))

theorem exec_clrbm (k : Byte) : exec (.clrbm a k) s = .next (endedOk {} (clrDone s a k)) :=
  congrArg Host.Outcome.next ((Ends.clrBits Blind.buffers_unit a k).answers (f := fun _ => noResult))

theorem exec_wrblk {len : Byte} (data : List Byte) (h : len.toNat ≤ s.cfg.fifoCapacity) :
    exec (.wrblk a len data) s = .next (endedOk {} (writesDone s a (data.take len.toNat))) :=
  congrArg Host.Outcome.next ((Ends.wrBlk a data h).answers (f := fun _ => noResult))

end accesses

/-- The number of bytes returned is the number asked for. -/
theorem bytesResult_eq_replyResults {len : Byte} {back : List Byte} (h : back.length = len.toNat) :
    bytesResult back = replyResults len back := by
  simp [bytesResult, replyResults, h]

/-- Well-formed `DATA` is no longer than `LEN` says. -/
theorem take_of_dataFits {len : Byte} {data : List Byte} (h : dataFits len data = true) :
    data.take len.toNat = data := by
  have hlen : data.length = min len.toNat 64 := by simpa [dataFits] using h
  exact List.take_of_length_le (hlen.le.trans (min_le_left _ _))

/-- Settles O12: the reads leave the chip as it is, each write ends in a state that stores the byte written. -/
theorem fixtureRegisters : Obligations.FixtureRegisters := by
  intro s m h
  refine ⟨fun a => ?rdreg, fun a len align hlen => ?rdblk, fun a v => ?wrreg, fun a k => ?setbm, fun a k => ?clrbm,
    fun a len data b hlen hfits => ?wrblk⟩
  case rdreg =>
    rw [← h.readValue_eq a]
    exact ⟨_, exec_rdreg s a, (endedOk_chip _ _).trans (h.readDone_chip a), endedOk_responded _ _⟩
  case rdblk =>
    have hback : (burstValue s a len.toNat align).length = len.toNat := by
      rw [h.burstValue_eq, BusOp.maskFirst_length, List.length_replicate]
    rw [← h.burstValue_eq a, ← bytesResult_eq_replyResults hback]
    exact ⟨_, exec_rdblk s a align hlen, (endedOk_chip _ _).trans (h.burstDone_chip a _), endedOk_responded _ _⟩
  case wrreg => exact (h.stores_writeDone a v).answered (exec_wrreg s a v)
  case setbm => exact (h.stores_setDone a k).answered (exec_setbm s a k)
  case clrbm => exact (h.stores_clrDone a k).answered (exec_clrbm s a k)
  case wrblk =>
    refine (h.stores_writesDone a data b).answered (r := {}) ?_
    rw [exec_wrblk s a _ hlen, take_of_dataFits hfits]

/-! ### Completion -/

/-- Whatever instruction it is, a next state is the end of an operation. -/
theorem exec_next_eq_operation {i : Instr} {s t : State} (h : exec i s = .next t) : ∃ m, t = operation m s := by
  cases i
  case xferReserved => cases h
  case select v =>
    simp only [exec, execSelect] at h
    split at h
    · injection h with h
      exact ⟨_, h.symm⟩
    · cases h
  all_goals
    injection h with h
    exact ⟨_, h.symm⟩

theorem operation_idle (m : Op Results) (s : State) : Idle (operation m s) := ⟨rfl, rfl, rfl, rfl⟩

/-- The response handed over is the newest event. -/
theorem operation_response (m : Op Results) (s : State) :
    ∃ r rest, (operation m s).response = some r ∧ (operation m s).trace = .response r :: rest := ⟨_, _, rfl, rfl⟩

/-- Settles O55: the instruction answers a next state, which is the end of an operation. -/
theorem everyInstructionCompletes : Obligations.EveryInstructionCompletes := by
  intro i s _ hreserved hselect
  obtain ⟨t, ht⟩ := exec_completes i s hreserved hselect
  obtain ⟨hcfg, -⟩ := exec_keeps machineFrame_cfg_host i s t ht
  obtain ⟨m, rfl⟩ := exec_next_eq_operation ht
  exact ⟨_, ht, hcfg, operation_idle m s, operation_response m s⟩

/-! ### The trace -/

/-- The trace before is what is left of the trace after when its newest events are taken off. -/
theorem machineFrame_trace : MachineFrame fun s t => s.trace <:+ t.trace where
  refl _ := List.suffix_rfl
  trans h k := h.trans k
  exchange _ _ _ := List.suffix_cons _ _
  wait _ _ := List.suffix_cons _ _
  poll _ _ := List.suffix_rfl
  seq _ _ := List.suffix_rfl
  latch _ _ _ _ _ _ := List.suffix_rfl
  buffers _ _ := List.suffix_rfl
  uid _ _ := List.suffix_rfl
  nrst _ _ := List.suffix_cons _ _
  fatal _ := List.suffix_rfl
  event _ _ := List.suffix_cons _ _
  busy _ _ := List.suffix_rfl
  finish _ _ := List.suffix_cons _ _

theorem step_trace_suffix {s t : State} (h : step s = .next t) : s.trace <:+ t.trace := by
  rcases step_cases s t h with ⟨-, rfl⟩ | ⟨p, rest, -, -, ⟨-, rfl⟩ | ⟨-, -, i, -, -, hi⟩⟩
  · exact List.suffix_rfl
  · exact List.suffix_rfl
  · exact exec_keeps machineFrame_trace i (s.setHost rest) t hi

/-- Settles O57: the old trace is a suffix of the new one, and an idle step is no move at all. -/
theorem traceGrows : Obligations.TraceGrows := by
  intro s t h
  obtain ⟨new, hnew⟩ := step_trace_suffix h
  refine ⟨⟨new, hnew.symm⟩, fun hh => ?_⟩
  rw [step_idle hh] at h
  injection h with h
  rw [h]

end Sys2Proof.Machine

/-! ## The encoding (30_encoding.md): the frames the decoder reads, the bytes of the bus, the rows that are no host
operation run alone -/

namespace Sys2Proof

/-! ### The frames the decoder reads -/

/-- The shape of a frame the block emits, in the bits of its bytes (30_encoding.md R86, R87): bit 0 of the address byte
is 0; a write has two bytes; a read repeats the address byte 1 to 64 times and ends with 0x00. -/
def EmittedShape (bytes : List Byte) : Prop :=
  ∃ b rest, bytes = b :: rest ∧ b.getLsbD 0 = false ∧
    (b.getLsbD 7 = false → bytes.length = 2) ∧
    (b.getLsbD 7 = true → 1 ≤ rest.length ∧ rest.length ≤ 64 ∧ bytes = List.replicate rest.length b ++ [0])

theorem emittedShape_write {b : Byte} (v : Byte) (h0 : b.getLsbD 0 = false) (h7 : b.getLsbD 7 = false) :
    EmittedShape [b, v] :=
  ⟨b, [v], rfl, h0, fun _ => rfl, fun h => Bool.noConfusion (h7.symm.trans h)⟩

theorem emittedShape_read {b : Byte} {rest : List Byte} (h0 : b.getLsbD 0 = false) (h7 : b.getLsbD 7 = true)
    (h1 : 1 ≤ rest.length) (h64 : rest.length ≤ 64) (hb : b :: rest = List.replicate rest.length b ++ [0]) :
    EmittedShape (b :: rest) :=
  ⟨b, rest, rfl, h0, fun h => Bool.noConfusion (h.symm.trans h7), fun _ => ⟨h1, h64, hb⟩⟩

/-- A two-byte read frame is a block read of one byte. -/
theorem decodeFrame2_emittedShape {bytes : List Byte} {i : Instr} (h : decodeFrame2 bytes = .ok i) :
    EmittedShape bytes := by
  match bytes with
  | [] | [_] | _ :: _ :: _ :: _ => cases h
  | [b, v] =>
    rw [decodeFrame2] at h
    split at h
    · cases h
    · next h0 =>
      split at h
      · next h7 =>
        split at h
        · next hv =>
          subst hv
          exact emittedShape_read (Bool.eq_false_of_not_eq_true h0) h7 le_rfl (by decide) rfl
        · cases h
      · next h7 => exact emittedShape_write v (Bool.eq_false_of_not_eq_true h0) (Bool.eq_false_of_not_eq_true h7)

theorem decodeFrameN_emittedShape {align : Bits3} {bytes : List Byte} {i : Instr}
    (h : decodeFrameN align bytes = .ok i) : EmittedShape bytes := by
  cases bytes with
  | nil => cases h
  | cons b rest =>
    rw [decodeFrameN] at h
    split at h
    · cases h
    · next hlen =>
      split at h
      · next hb =>
        obtain ⟨hb, h7, h0⟩ := hb
        exact emittedShape_read (Bool.eq_false_of_not_eq_true h0) h7 (by omega) (by omega) hb
      · cases h

/-- Settles O47: the two formats' decoders let no other bytes through. -/
theorem emittedFrames : Obligations.EmittedFrames := fun _ _ _ h =>
  h.elim decodeFrame2_emittedShape decodeFrameN_emittedShape

end Sys2Proof

namespace Sys2Proof.Machine

/-! ### The bytes of the bus -/

theorem Config.default_standard : Config.default.standard = true := rfl

/-- Six address bits, shifted by one, are bits 6 to 1: the mask 0x7E takes nothing off them (30_encoding.md R81). -/
theorem addressByte_false_eq (a : Addr) : addressByte false a = a.setWidth 8 <<< 1 := by
  revert a
  decide

/-- The two fields of the default bit framing fill their masks (30_encoding.md R89; log 10). -/
theorem bf_default_eq (align txLast : Bits3) :
    bf .default align txLast = (align.setWidth 8 <<< 4) ||| txLast.setWidth 8 := by
  revert align txLast
  decide

theorem amask_getLsbD (align : Bits3) {j : Nat} (hj : j < 8) :
    (amask align).getLsbD j = decide (align.toNat ≤ j) := by
  revert align j
  decide

/-- Settles O49: the default address byte is the one the decoder reads. -/
theorem busBytes : Obligations.BusBytes := by
  refine ⟨fun a => ?_, bf_default_eq, fun align _ hj => amask_getLsbD align hj⟩
  have hrd := abyteRd_of_standard Config.default_standard a
  have hwr := abyteWr_of_standard Config.default_standard a
  refine ⟨rfl, hwr.trans (addressByte_false_eq a), ?_⟩
  rw [hrd, hwr]
  exact ⟨addressByte_isRead true a, addressByte_isRead false a, addressByte_addr true a, addressByte_addr false a⟩

/-! ### One frame, one write, the block frames -/

variable {α G H : Type} {g : Scratch → G} {b : G} {h : Scratch → H} {d : H} {s t : State}

theorem Ends.xfer (tx : List Byte) : Ends g b (Machine.xfer tx) s (.ok (s.rx tx)) (s.exchanged tx) := fun _ a e =>
  ⟨congrArg Except.ok (a.rx tx), a.exchanged tx, e⟩

theorem Ends.wrBlk_noRoom (a : Addr) {len : Nat} (bytes : List Byte) (h : s.cfg.fifoCapacity < len) :
    Ends g b (Machine.wrBlk a len bytes) s (.error ⟨.noRoom, none⟩) s := fun s' k e => by
  rw [wrBlk_run, if_pos (by rwa [k.cfg])]
  exact ⟨rfl, k, e⟩

/-- The single read frame run alone (30_encoding.md R82). -/
theorem operation_readFrame (f : List Byte → Results) (a : Addr) (s : State) :
    operation (do let c ← askCfg; let rx ← Machine.xfer (readFrame c a); return f rx) s =
      endedOk (f (s.rx (readFrame s.cfg a))) (readDone s a) :=
  (Ends.bind Ends.askCfg <| .bind (.xfer _) <| .pure (f _)).operation

/-- The single write frame run alone (30_encoding.md R84). -/
theorem operation_writeFrame (a : Addr) (v : Byte) (s : State) :
    operation (do let c ← askCfg; let _ ← Machine.xfer (writeFrame c a v); return noResult) s =
      endedOk {} (writeDone s a v) :=
  (Ends.bind Ends.askCfg <| .bind (.xfer _) <| .pure noResult).operation

/-- Settles O37: the first byte of a frame runs the shortest frame it begins. -/
theorem singleFrames : Obligations.SingleFrames := fun a v s =>
  have hread := congrArg Host.Outcome.next
    (operation_readFrame (fun rx => { noResult with rval := some (rx.getD 1 0) }) a s)
  have hwrite := congrArg Host.Outcome.next (operation_writeFrame a v s)
  ⟨hread, hread, hwrite, hwrite⟩

/-- A block read returns as many bytes as its count says. -/
theorem burstResult_eq (s : State) (a : Addr) (n : BitVec 7) (align : Bits3) :
    bytesResult (burstValue s a n.toNat align) = replyResults (n.setWidth 8) (burstValue s a n.toNat align) := by
  apply bytesResult_eq_replyResults
  rw [BusOp.burstValue_length, BitVec.toNat_setWidth]
  omega

/-- Settles O38: a block read and a block write of the transport, under the length check and past it. -/
theorem blockFrames : Obligations.BlockFrames := by
  intro a n align data s
  refine ⟨fun hn => ?rdnNoRoom, fun hn => ?rdn, fun hn => ?wrnNoRoom, fun hn => ?wrn⟩
  case rdnNoRoom => exact congrArg Host.Outcome.next (Ends.rdBlk_noRoom a align hn).stops
  case rdn =>
    rw [← burstResult_eq]
    exact congrArg Host.Outcome.next ((Ends.rdBlk a align hn).answers (f := bytesResult))
  case wrnNoRoom => exact congrArg Host.Outcome.next (Ends.wrBlk_noRoom a data hn).stops
  case wrn =>
    have hwrn := (Ends.wrBlk a data hn).answers (f := fun _ => noResult)
    rw [List.take_length] at hwrn
    exact congrArg Host.Outcome.next hwrn

/-- Settles O39: the row is refused in every state. -/
theorem reservedAddressByte : Obligations.ReservedAddressByte := fun _ _ => rfl

/-! ### Chip commands and the bit-framing value -/

theorem Ends.issueCommand (f : ChipCommands → Byte) :
    Ends g b (Machine.issueCommand f) s (.ok noResult) (writeDone s s.cfg.reg.command (f s.cfg.cmd)) :=
  bind askCfg <| bind (wrReg _ _) <| pure _

/-- Settles O40: the four rows issue their field of the configuration's chip commands. -/
theorem chipCommandRows : Obligations.ChipCommandRows := fun _ =>
  have row := fun f => congrArg Host.Outcome.next (Ends.issueCommand f).operation
  ⟨row _, row _, row _, row _⟩

/-- The state after the bit-framing value has been set as COMM sets it (43_communicate.md R164, R166). -/
def bitFramingDone (s : State) (start : Bool) (align txLast : Bits3) : State :=
  let t := setDone (clrDone s s.cfg.reg.bitFraming s.cfg.bfAll) s.cfg.reg.bitFraming (bf s.cfg align txLast)
  if start then setDone t s.cfg.reg.bitFraming s.cfg.mask.bfStartSend else t

theorem Ends.setBitFraming (B : Buffers g) (start : Bool) (align txLast : Bits3) :
    Ends g b (Machine.setBitFraming start align txLast) s (.ok ()) (bitFramingDone s start align txLast) := by
  refine bind askCfg <| bind (clrBits B _ _) <| bind (setBits B _ _) ?_
  cases start
  · exact pure ()
  · exact setBits B _ _

/-- Settles O41: the start-send bit is set by a bit-set of its own. -/
theorem bitframingRow : Obligations.BitframingRow := fun start align txLast _ =>
  congrArg Host.Outcome.next
    ((Ends.setBitFraming Blind.buffers_unit start align txLast).answers (f := fun _ => noResult))

/-! ### Card frames -/

/-- The acceptance of a request leaves the configuration it reads. -/
theorem operation_askCfg (f : Config → Op Results) (s : State) :
    operation (askCfg >>= f) s = operation (f s.cfg) s := by
  simp only [operation_eq, runOp_bind, runOp_askCfg, andThen_ok, State.setBusy_cfg]

/-- An instruction that is one exchange ends where COMM with the operands of that exchange ends (00_scope.md R15). -/
theorem exec_eq_comm {i : Instr} {send : Config → List Byte} {txLast : Config → Bits3}
    {cap : Config → Option (BitVec 7)} (hi : exec i s = .next (operation (exchangeResult send txLast cap) s))
    (hl : (send s.cfg).length < 256) :
    ∃ t, exec i s = .next t ∧
      exec (.comm (exchangeOperands s.cfg (send s.cfg) (txLast s.cfg) (cap s.cfg))) s = .next t := by
  refine ⟨_, hi, ?_⟩
  simp only [exec, execComm, call_exchangeOperands _ _ _ _ hl, exchangeResult, operation_askCfg]

/-- Settles O42: each card frame is an exchange of fewer than 256 bytes. -/
theorem cardFrames : Obligations.CardFrames := fun s u0 u1 u2 u3 bcc lo hi =>
  ⟨(exec_eq_comm (i := .piccReqa) (s := s) rfl (by simp) :), (exec_eq_comm (i := .piccWupa) (s := s) rfl (by simp) :),
    (exec_eq_comm (i := .piccAnticollCl1) (s := s) rfl (by simp) :),
    (exec_eq_comm (i := .piccSelectCl1 u0 u1 u2 u3 bcc lo hi) (s := s) rfl (by simp) :),
    (exec_eq_comm (i := .piccHlta lo hi) (s := s) rfl (by simp) :)⟩

/-! ### Card replies -/

theorem Goes.operation {m : Op Results} {r : Except Raised Results} (e : Goes Blank () m s r t h d) :
    Machine.operation m s = respond r t := by
  obtain ⟨h1, h2, -⟩ := e (s.setBusy true) (agree_setBusy s true) rfl
  rw [operation_eq, h1]
  exact h2.respond r

theorem Goes.takeAtqa {ab : List Byte} (hl : max s.cfg.card.atqaLen.toNat 2 ≤ ab.length) :
    Goes (fun x => x.ab) ab Machine.takeAtqa s (.ok (ab.getD 0 0, ab.getD 1 0)) s (fun x => x.ab) ab := by
  refine ask <| bind (peekScratch fun _ e => e) <| line ?_
  rw [if_neg (by omega)]
  exact done _

theorem Ends.checkReplyLength {rb : List Byte} (hl : max s.cfg.card.anticollReplyLen.toNat 5 ≤ rb.length) :
    Ends g b (Machine.checkReplyLength rb) s (.ok ()) s := by
  refine bind askCfg <| line ?_
  rw [if_neg (by omega)]
  exact pure ()

theorem Ends.checkBcc_ok {rb : List Byte} (hx : xorBytes (rb.take 4) = rb.getD 4 0) :
    Ends g b (Machine.checkBcc rb) s (.ok ()) s := by
  refine bind askCfg <| line ?_
  rw [if_pos hx]
  exact pure ()

theorem Ends.checkBcc_error {rb : List Byte} (hx : xorBytes (rb.take 4) ≠ rb.getD 4 0) :
    Ends g b (Machine.checkBcc rb) s (.error ⟨s.cfg.bccFailStatus, none⟩) s := by
  refine bind askCfg <| line ?_
  rw [if_neg hx]
  exact raise _

theorem Ends.sakOf (sak : Byte) (extra : List Byte) : Ends g b (Machine.sakOf (sak :: extra)) s (.ok sak) s :=
  line (pure sak)

theorem xorBytes_four (u0 u1 u2 u3 : Byte) : xorBytes [u0, u1, u2, u3] = u0 ^^^ u1 ^^^ u2 ^^^ u3 := by
  simp [xorBytes, BitVec.xor_assoc]

/-- A reply that has arrived in a buffer is what the check of it sees. -/
theorem Goes.received {f : List Byte → Op α} {w : Scratch → Scratch} {v : Scratch → List Byte}
    {bytes : List Byte} {r : Except Raised α} (hv : ∀ x, v (w x) = bytes) (hf : Goes v bytes (f bytes) s r t h d) :
    Goes g b (do Machine.latch w; let x ← Machine.peek fun s => v s.scratch; f x) s r t h d :=
  bind (latch fun x _ => hv x) <| bind (peekScratch fun _ e => e) hf

theorem exec_piccReplyAtqa (hl : s.cfg.card.atqaLen = 2) (a0 a1 : Byte) :
    exec (.piccReplyAtqa a0 a1) s = .next (endedOk { atqa := some (a0, a1) } s) :=
  congrArg Host.Outcome.next <| Goes.operation <| .bind (.latch fun _ _ => rfl) <|
    .bind (.takeAtqa (ab := [a0, a1]) (by simp [hl])) <| .result _

theorem exec_piccReplyAnticoll_ok (hl : s.cfg.card.anticollReplyLen = 5) {u0 u1 u2 u3 bcc : Byte}
    (hx : u0 ^^^ u1 ^^^ u2 ^^^ u3 = bcc) :
    exec (.piccReplyAnticoll u0 u1 u2 u3 bcc) s = .next (endedOk (replyResults 4 [u0, u1, u2, u3]) s) :=
  congrArg Host.Outcome.next <| Goes.operation <| .received (fun _ => rfl) <| .ofEnds <|
    .bind (.checkReplyLength (by simp [hl])) <| .bind (.checkBcc_ok ((xorBytes_four u0 u1 u2 u3).trans hx)) <| .pure _

theorem exec_piccReplyAnticoll_error (hl : s.cfg.card.anticollReplyLen = 5) {u0 u1 u2 u3 bcc : Byte}
    (hx : u0 ^^^ u1 ^^^ u2 ^^^ u3 ≠ bcc) :
    exec (.piccReplyAnticoll u0 u1 u2 u3 bcc) s = .next (ended s.cfg.bccFailStatus s) :=
  congrArg Host.Outcome.next <| Goes.operation <| .received (fun _ => rfl) <| .ofEnds <|
    .bind (.checkReplyLength (by simp [hl])) <| .bindError (.checkBcc_error (xorBytes_four u0 u1 u2 u3 ▸ hx))

theorem exec_piccReplySak (s : State) (sak : Byte) (extra : List Byte) :
    exec (.piccReplySak sak extra) s = .next (endedOk (replyResults 1 [sak]) s) :=
  congrArg Host.Outcome.next <| Goes.operation <| .received (fun _ => rfl) <| .ofEnds <|
    .bind (.sakOf sak extra) <| .pure _

/-- Settles O43, reply by reply: no check moves the state, so what is left is the end of the operation. -/
theorem cardReplies : Obligations.CardReplies := fun s hatqa hanticoll =>
  ⟨exec_piccReplyAtqa hatqa,
    fun _ _ _ _ _ => ⟨exec_piccReplyAnticoll_ok hanticoll, exec_piccReplyAnticoll_error hanticoll⟩,
    exec_piccReplySak s⟩

/-! ### Status codes and unassigned operation codes -/

theorem operation_raise (st : Status) (s : State) : operation (raise st) s = ended st s :=
  (Ends.raise st).operation

theorem operation_pure (r : Results) (s : State) : operation (pure r) s = endedOk r s :=
  (Ends.pure r).operation

/-- Settles O44: each row is an operation that ends at once. -/
theorem statusRows : Obligations.StatusRows := fun s =>
  have row := fun st => congrArg Host.Outcome.next (operation_raise st s)
  ⟨congrArg Host.Outcome.next (operation_pure noResult s), row _, row _, row _, row _, row _, row _⟩

/-- Settles O36: no code outside the list is read as an operation, and the unassigned one ends at once. -/
theorem unassignedResult : Obligations.UnassignedResult :=
  ⟨fun _ rest h => decodeOp_unassigned rest (by simpa [Instr.wf] using h),
    fun _ s => congrArg Host.Outcome.next (operation_raise .invalid s)⟩

end Sys2Proof.Machine

/-! ## Register access (40_register_access.md): the six accesses, and their laws on the fixture -/

namespace Sys2Proof.Machine

/-! ### The single accesses -/

/-- Settles O4: the address byte of the statement is that of the read frame. -/
theorem rdregResult : Obligations.RdregResult := fun a s => exec_rdreg s a

/-- Settles O6: the address byte of the statement is that of the write frame. -/
theorem wrregResult : Obligations.WrregResult := fun a v s => exec_wrreg s a v

/-- Settles O8: the read-modify-write tests neither the byte read nor the mask. -/
theorem setbmResult : Obligations.SetbmResult := fun a m s => exec_setbm s a m

/-- Settles O9: the read-modify-write tests neither the byte read nor the mask. -/
theorem clrbmResult : Obligations.ClrbmResult := fun a m s => exec_clrbm s a m

/-! ### The block accesses -/

section blocks

variable (s : State) (a : Addr)

theorem exec_rdblk_noRoom {len : Byte} (align : Bits3) (h : s.cfg.fifoCapacity < len.toNat) :
    exec (.rdblk a len align) s = .next (ended .noRoom s) :=
  congrArg Host.Outcome.next (Ends.rdBlk_noRoom a align h).stops

theorem exec_wrblk_noRoom {len : Byte} (data : List Byte) (h : s.cfg.fifoCapacity < len.toNat) :
    exec (.wrblk a len data) s = .next (ended .noRoom s) :=
  congrArg Host.Outcome.next (Ends.wrBlk_noRoom a data h).stops

/-- RDBLK within the FIFO's capacity, with `RLEN` the count asked for. -/
theorem exec_rdblk_replyResults {len : Byte} (align : Bits3) (h : len.toNat ≤ s.cfg.fifoCapacity) :
    exec (.rdblk a len align) s =
      .next (endedOk (replyResults len (burstValue s a len.toNat align)) (burstDone s a len.toNat)) := by
  rw [exec_rdblk s a align h, bytesResult_eq_replyResults (BusOp.burstValue_length s a len.toNat align)]

theorem burstDone_of_ne_zero {n : Nat} (h : n ≠ 0) : burstDone s a n = s.exchanged (burstFrame s.cfg a n) := if_neg h

/-- A block read that asks for a byte returns a first one, masked, and the rest as they came (30_encoding.md R102). -/
theorem burstValue_of_ne_zero {n : Nat} (h : n ≠ 0) (align : Bits3) :
    ∃ b rest, (s.rx (burstFrame s.cfg a n)).drop 1 = b :: rest ∧ (b :: rest).length = n ∧
      burstValue s a n align = (b &&& amask align) :: rest := by
  have hlen : ((s.rx (burstFrame s.cfg a n)).drop 1).length = n := by simp [burstFrame]
  obtain ⟨b, rest, hrx⟩ := List.exists_cons_of_length_pos (hlen ▸ Nat.pos_of_ne_zero h)
  refine ⟨b, rest, hrx, hrx ▸ hlen, ?_⟩
  rw [burstValue, if_neg h, hrx, maskFirst]

/-- Every frame of a block write is laid out by the configuration the operation began with: a frame leaves it as it
is. -/
theorem writesDone_eq_foldl_exchanged (bytes : List Byte) :
    writesDone s a bytes = bytes.foldl (fun t b => t.exchanged (writeFrame s.cfg a b)) s := by
  induction bytes generalizing s with
  | nil => rfl
  | cons b rest ih => exact ih (writeDone s a b)

end blocks

/-- Settles O5: the length check, no byte, and the one frame of a count that is not 0. -/
theorem rdblkResult : Obligations.RdblkResult := by
  refine fun a len align s => ⟨exec_rdblk_noRoom s a align, fun hzero => ?noByte, fun hne hcap => ?oneFrame⟩
  case noByte =>
    subst hzero
    exact exec_rdblk_replyResults s a align (Nat.zero_le _)
  case oneFrame =>
    have hn : len.toNat ≠ 0 := fun h => hne (BitVec.eq_of_toNat_eq h)
    obtain ⟨b, rest, hrx, hlen, hvalue⟩ := burstValue_of_ne_zero s a hn align
    refine ⟨b, rest, hrx, hlen, ?_⟩
    rw [exec_rdblk_replyResults s a align hcap, hvalue, burstDone_of_ne_zero s a hn]
    rfl

/-- Settles O7: all of a well-formed `DATA` is written, frame by frame. -/
theorem wrblkResult : Obligations.WrblkResult := by
  refine fun a len data s => ⟨exec_wrblk_noRoom s a data, fun hcap hfits => ?_⟩
  rw [exec_wrblk s a data hcap, take_of_dataFits hfits, writesDone_eq_foldl_exchanged]
  rfl

/-! ### The laws of a read/write-capable register -/

/-- On the fixture, `i` replaces the value of the register at `a` by `f` of it, and changes no other register. -/
def Rewrites (i : Instr) (a : Addr) (f : Byte → Byte) : Prop :=
  ∀ s m, FixtureWith s m → ∃ t m', exec i s = .next t ∧ FixtureWith t m' ∧
    ∀ x, memRead m' x = if x = a.toNat then f (memRead m a.toNat) else memRead m x

theorem setbm_rewrites (a : Addr) (k : Byte) : Rewrites (.setbm a k) a (· ||| k) := fun s _ h =>
  (h.stores_setDone a k).answered (exec_setbm s a k)

theorem clrbm_rewrites (a : Addr) (k : Byte) : Rewrites (.clrbm a k) a (· &&& ~~~k) := fun s _ h =>
  (h.stores_clrDone a k).answered (exec_clrbm s a k)

theorem FixtureWith.fixtureRead_eq {s : State} {m : Memory} (h : FixtureWith s m) (a : Addr) :
    fixtureRead s a = memRead m a.toNat := by
  rw [fixtureRead, h.chip]

/-- An idempotent rewriting, made twice, leaves the chip as made once: both leave every register with the same value,
and the canonical form of the registers is then the same. -/
theorem Rewrites.twice {i : Instr} {a : Addr} {f : Byte → Byte} (hi : Rewrites i a f) (hf : ∀ v, f (f v) = f v)
    {s : State} {m : Memory} (h : FixtureWith s m) :
    ∃ t u, exec i s = .next t ∧ exec i t = .next u ∧ u.chip = t.chip ∧ fixtureRead u a = f (memRead m a.toNat) := by
  obtain ⟨t, m₁, ht, h₁, hread₁⟩ := hi s m h
  obtain ⟨u, m₂, hu, h₂, hread₂⟩ := hi t m₁ h₁
  have hval : memRead m₁ a.toNat = f (memRead m a.toNat) := (hread₁ _).trans (if_pos rfl)
  have hsame : ∀ x, memRead m₂ x = memRead m₁ x := by
    intro x
    rw [hread₂, hval, hf, ← hval]
    split
    · next hx => rw [hx]
    · rfl
  refine ⟨t, u, ht, hu, ?_, ?_⟩
  · rw [h₂.chip, h₁.chip, Memory.ext_of_wf h₂.wf h₁.wf hsame]
  · rw [h₂.fixtureRead_eq, hsame, hval]

/-- Settles O10: to set the mask's bits and to clear them are both idempotent. -/
theorem maskIdempotent : Obligations.MaskIdempotent := by
  intro a k s m h
  have hor : ∀ v : Byte, v ||| k ||| k = v ||| k := fun v => by rw [BitVec.or_assoc, BitVec.or_self]
  have hand : ∀ v : Byte, v &&& ~~~k &&& ~~~k = v &&& ~~~k := fun v => by rw [BitVec.and_assoc, BitVec.and_self]
  obtain ⟨t, u, ht, hu, hchip, hread⟩ := (setbm_rewrites a k).twice hor h
  obtain ⟨t', u', ht', hu', hchip', hread'⟩ := (clrbm_rewrites a k).twice hand h
  exact ⟨t, u, t', u', ht, hu, hchip, hread, ht', hu', hchip', hread'⟩

/-- Settles O11: the write leaves the fixture with the byte in the register, and a read returns what it holds. -/
theorem registerRoundTrip : Obligations.RegisterRoundTrip := by
  intro a v s m h
  obtain ⟨t, m', ht, h', hread⟩ := (h.stores_writeDone a v).answered (exec_wrreg s a v)
  have hvalue : readValue t a = v := by rw [h'.readValue_eq, hread, if_pos rfl]
  refine ⟨t, _, ht, exec_rdreg t a, ?_⟩
  rw [hvalue]
  exact endedOk_responded _ _

end Sys2Proof.Machine

/-! ## The lifecycle (41_lifecycle.md): HRESET, SRESET, INIT, ANTON, ANTOFF -/

namespace Sys2Proof.Machine

variable {G : Type} {g : Scratch → G} {b : G} {s : State}

/-! ### The soft reset -/

theorem softResetVerdict_again {c : Config} {x : Byte} (h : x &&& c.mask.cmdPowerDown ≠ 0) :
    softResetVerdict c x = .again := by
  simpa [softResetVerdict, anySet] using h

theorem softResetVerdict_done {c : Config} {x : Byte} (h : x &&& c.mask.cmdPowerDown = 0) :
    softResetVerdict c x = .done := by
  simpa [softResetVerdict, anySet] using h

/-- The state in which SRESET begins to poll (41_lifecycle.md R131). -/
def softResetIssued (s : State) : State := writeDone s s.cfg.reg.command s.cfg.cmd.softReset

theorem Ends.softReset_ok {k : Nat} (hk : k < s.cfg.softResetPollBound)
    (before : ∀ j < k, pollByte (softResetIssued s) s.cfg.reg.command j &&& s.cfg.mask.cmdPowerDown ≠ 0)
    (now : pollByte (softResetIssued s) s.cfg.reg.command k &&& s.cfg.mask.cmdPowerDown = 0) :
    Ends g b Machine.softReset s (.ok ()) (pollDone (softResetIssued s) s.cfg.reg.command k) :=
  enter <| bind askCfg <| step (wrReg _ _) <| pollReg <|
    pollLoop_done hk (fun j hj => softResetVerdict_again (before j hj)) (softResetVerdict_done now)

theorem Ends.softReset_timeout
    (all : ∀ j < s.cfg.softResetPollBound,
      pollByte (softResetIssued s) s.cfg.reg.command j &&& s.cfg.mask.cmdPowerDown ≠ 0) :
    Ends g b Machine.softReset s (.error ⟨.timeout, none⟩)
      (polled (softResetIssued s) s.cfg.reg.command s.cfg.softResetPollBound) :=
  enter <| bind askCfg <| step (wrReg _ _) <| pollReg <|
    pollLoop_exhausted fun j hj => softResetVerdict_again (all j hj)

/-- Settles O14: the two ends of the poll loop, after the write that issues the command. -/
theorem sresetResult : Obligations.SresetResult := fun _ =>
  ⟨fun _ hk before now =>
    congrArg Host.Outcome.next ((Ends.softReset_ok hk before now).answers (f := fun _ => noResult)),
    fun all => congrArg Host.Outcome.next (Ends.softReset_timeout all).stops⟩

/-! ### The hard reset -/

/-- Settles O13: the reset line's four statements end in `resetDone`. -/
theorem hresetResult : Obligations.HresetResult := fun _ =>
  congrArg Host.Outcome.next (Ends.hardReset.answers (f := fun _ => noResult))

/-! ### The antenna and INIT -/

theorem exec_anton (s : State) : exec .anton s = .next (endedOk {} (antennaDone s)) :=
  congrArg Host.Outcome.next ((Ends.antennaOn Blind.buffers_unit).answers (f := fun _ => noResult))

/-- Both antenna bits on: the check reads them and no write follows. -/
theorem antennaDone_of_set (h : readValue s s.cfg.reg.txControl &&& s.cfg.mask.antMask = s.cfg.mask.antMask) :
    antennaDone s = readDone s s.cfg.reg.txControl := if_pos h

/-- An antenna bit off: ANTON is a bit-set of the mask. -/
theorem antennaDone_of_not_set (h : readValue s s.cfg.reg.txControl &&& s.cfg.mask.antMask ≠ s.cfg.mask.antMask) :
    antennaDone s = setDone s s.cfg.reg.txControl s.cfg.mask.antMask := if_neg h

/-- Settles O16: ANTON ends in `antennaDone`, whose two branches are the two outcomes of the check. -/
theorem antonResult : Obligations.AntonResult := fun s =>
  ⟨exec_anton s, antennaDone_of_set, antennaDone_of_not_set⟩

/-- Settles O15: INIT ends in `initDone`, the six writes of the list and then `antennaDone`. -/
theorem initResult : Obligations.InitResult := fun _ =>
  congrArg Host.Outcome.next ((Ends.initChip Blind.buffers_unit).answers (f := fun _ => noResult))

theorem Ends.antennaOff (B : Buffers g) :
    Ends g b Machine.antennaOff s (.ok ()) (clrDone s s.cfg.reg.txControl s.cfg.mask.antMask) :=
  enter <| bind askCfg <| step (clrBits B _ _) (done ())

theorem exec_antoff (s : State) :
    exec .antoff s = .next (endedOk {} (clrDone s s.cfg.reg.txControl s.cfg.mask.antMask)) :=
  congrArg Host.Outcome.next ((Ends.antennaOff Blind.buffers_unit).answers (f := fun _ => noResult))

/-- Settles O17: ANTOFF and CLRBM of the antenna mask both end in the state of that bit-clear. -/
theorem antoffResult : Obligations.AntoffResult := fun s =>
  ⟨(exec_antoff s).trans (exec_clrbm s _ _).symm, exec_antoff s⟩

end Sys2Proof.Machine

/-! ## The CRC coprocessor (42_crc.md): CALCCRC -/

namespace Sys2Proof.Machine

/-- Settles O18: the poll that shows the flag is followed by the two result reads, whose bytes are the answer. -/
theorem calccrcResult : Obligations.CalccrcResult := fun _ _ _ _ hfits hk before now =>
  congrArg Host.Outcome.next ((Ends.calcCrc_ok Blind.buffers_unit hfits hk before now).answers
    (f := fun crc => { noResult with crc := some crc }))

/-- Settles O19: the length check ends before any frame, and the exhausted poll loop before any result read. -/
theorem calccrcStops : Obligations.CalccrcStops := fun _ _ _ =>
  ⟨fun hlong => congrArg Host.Outcome.next (Ends.calcCrc_noRoom hlong).stops,
    fun hfits all => congrArg Host.Outcome.next (Ends.calcCrc_timeout Blind.buffers_unit hfits all).stops⟩

end Sys2Proof.Machine

/-! ## The communication engine (43_communicate.md): COMM -/

namespace Sys2Proof.Machine

/-! ### Before the completion: the length check and the completion poll -/

/-- Settles O20: the length check comes before the first frame. -/
theorem commSendTooLong : Obligations.CommSendTooLong := fun _ _ hlong =>
  congrArg Host.Outcome.next (Ends.communicate_noRoom hlong).stops

/-- Settles O21: the poll loop ends at the timer-expired bit or at its bound, and the steps after it are not reached. -/
theorem commTimesOut : Obligations.CommTimesOut := fun _ _ hfits =>
  ⟨fun _ hk before now =>
    congrArg Host.Outcome.next (Ends.communicate_timer Blind.buffers_unit hfits hk before now).stops,
    fun all => congrArg Host.Outcome.next (Ends.communicate_exhausted Blind.buffers_unit hfits all).stops⟩

/-! ### After the completion: the error byte and the reply -/

/-- The state in which the completion poll has seen a completion bit at the poll after `k` others. -/
def commPolled (s : State) (o : CommOperands) (k : Nat) : State := pollDone (commLoaded s o) s.cfg.reg.comIrq k

@[simp] theorem commPolled_cfg (s : State) (o : CommOperands) (k : Nat) : (commPolled s o k).cfg = s.cfg := by
  simp [commPolled]

/-- The error byte that step S5 reads in it. -/
def commErrorByte (s : State) (o : CommOperands) (k : Nat) : Byte := readValue (commPolled s o k) s.cfg.reg.error

/-- The scratch shows the error byte that step S5 has latched. -/
abbrev ErrorLatched : Scratch → Byte := fun x => x.e

theorem buffers_errorLatched : Buffers ErrorLatched := fun _ _ _ _ _ => rfl

section steps

variable {c : Config} {s u w t : State} {o : CommOperands} {k : Nat} {back : Option (List Byte)}

theorem exec_comm_completed {r : Except Raised (Option (List Byte))} (hfits : o.len.toNat ≤ s.cfg.fifoCapacity)
    (hdone : CompletedAt (commLoaded s o) o k)
    (hfinish : Ends Blank () (commFinish (CommOperands.call o)) (commPolled s o k) r t) :
    exec (.comm o) s = .next (respond (r.map backResult) t) := by
  have hcomm := Ends.communicate_completed Blind.buffers_unit hfits hdone hfinish
  cases r with
  | ok back => exact congrArg Host.Outcome.next hcomm.answers
  | error e => exact congrArg Host.Outcome.next hcomm.stops

theorem Ends.commFinish_error (hc : u.cfg = c) (hfatal : FatalBits c (readValue u c.reg.error)) :
    Ends Blank () (Machine.commFinish (CommOperands.call o)) u (.error ⟨.error, none⟩) (readDone u c.reg.error) := by
  subst hc
  exact commFinish_fatal hfatal

/-- Step S6 ends COMM. -/
theorem Ends.commFinish_replyError {e : Raised} (hc : u.cfg = c) (hfatal : ¬ FatalBits c (readValue u c.reg.error))
    (hreply : Ends ErrorLatched (readValue u c.reg.error) (Machine.commReply (CommOperands.call o))
      (readDone u c.reg.error) (.error e) t) :
    Ends Blank () (Machine.commFinish (CommOperands.call o)) u (.error e) t := by
  subst hc
  exact commFinish_go hfatal (Gives.bindError (Gives.ofEnds hreply))

/-- Step S6 answers `back`: the collision bit is left, and without it the check of the reply's CRC. -/
theorem Ends.commFinish_reply {r : Except Raised (Option (List Byte))} (hc : u.cfg = c) (hw : w.cfg = c)
    (hfatal : ¬ FatalBits c (readValue u c.reg.error))
    (hreply : Ends ErrorLatched (readValue u c.reg.error) (Machine.commReply (CommOperands.call o))
      (readDone u c.reg.error) (.ok back) w)
    (hcoll : readValue u c.reg.error &&& c.mask.errColl ≠ 0 → r = .error ⟨.collision, back⟩ ∧ t = w)
    (hclear : readValue u c.reg.error &&& c.mask.errColl = 0 →
      ∃ x, Gives ErrorLatched (readValue u c.reg.error) (Machine.commCheck (CommOperands.call o) back) w x t ∧
        r = x.map fun _ => back) :
    Ends Blank () (Machine.commFinish (CommOperands.call o)) u r t := by
  subst hc
  have htail := commTail (s := w) (by rwa [hw]) (by rwa [hw])
  rw [hw] at htail
  exact commFinish_go hfatal (Gives.bind hreply htail)

/-- COMM has come past step S6: no fatal error bit, and the reply is `back` in the state `w`. -/
structure CommReplied (s : State) (o : CommOperands) (k : Nat) (back : Option (List Byte)) (w : State) : Prop where
  fits : o.len.toNat ≤ s.cfg.fifoCapacity
  completed : CompletedAt (commLoaded s o) o k
  notFatal : ¬ FatalBits s.cfg (commErrorByte s o k)
  cfg : w.cfg = s.cfg
  reply : Ends ErrorLatched (commErrorByte s o k) (commReply (CommOperands.call o))
    (readDone (commPolled s o k) s.cfg.reg.error) (.ok back) w

namespace CommReplied

variable (h : CommReplied s o k back w)
include h

theorem exec_collision (hcoll : commErrorByte s o k &&& s.cfg.mask.errColl ≠ 0) :
    exec (.comm o) s = .next (respond (.error ⟨.collision, back⟩) w) :=
  exec_comm_completed h.fits h.completed <| Ends.commFinish_reply (commPolled_cfg s o k) h.cfg h.notFatal h.reply
    (fun _ => ⟨rfl, rfl⟩) fun hclear => absurd hclear hcoll

variable (hclear : commErrorByte s o k &&& s.cfg.mask.errColl = 0)
include hclear

theorem exec_checked {x : Except Raised Unit}
    (hcheck : Gives ErrorLatched (commErrorByte s o k)
      (commCheck (CommOperands.call o) back) w x t) :
    exec (.comm o) s = .next (respond ((x.map fun _ => back).map backResult) t) :=
  exec_comm_completed h.fits h.completed <| Ends.commFinish_reply (commPolled_cfg s o k) h.cfg h.notFatal h.reply
    (fun hcoll => absurd hclear hcoll) fun _ => ⟨x, hcheck, rfl⟩

theorem exec_checkPassed (hcheck : Gives ErrorLatched (commErrorByte s o k)
      (commCheck (CommOperands.call o) back) w (.ok ()) t) :
    exec (.comm o) s = .next (endedOk (backResult back) t) :=
  h.exec_checked hclear hcheck

theorem exec_checkFailed {e : Raised} (hcheck : Gives ErrorLatched (commErrorByte s o k)
      (commCheck (CommOperands.call o) back) w (.error e) t) :
    exec (.comm o) s = .next (respond (.error e) t) :=
  h.exec_checked hclear hcheck

end CommReplied

/-- Step S6 without an output buffer. -/
theorem commReplied_withoutBuffer (hfits : o.len.toNat ≤ s.cfg.fifoCapacity) (hdone : CompletedAt (commLoaded s o) o k)
    (hfatal : ¬ FatalBits s.cfg (commErrorByte s o k)) (hback : o.hasBack = false) :
    CommReplied s o k none (readDone (commPolled s o k) s.cfg.reg.error) :=
  ⟨hfits, hdone, hfatal, commPolled_cfg s o k, Ends.commReply_none hback⟩

/-- The state in which step S6 reads the FIFO's level. -/
def commErrorRead (s : State) (o : CommOperands) (k : Nat) : State := readDone (commPolled s o k) s.cfg.reg.error

@[simp] theorem commErrorRead_cfg (s : State) (o : CommOperands) (k : Nat) : (commErrorRead s o k).cfg = s.cfg :=
  commPolled_cfg s o k

/-- The FIFO's level that step S6 reads. -/
def commLevel (s : State) (o : CommOperands) (k : Nat) : Byte := readValue (commErrorRead s o k) s.cfg.reg.fifoLevel

/-- The state in which step S6 reads the FIFO. -/
def commLevelRead (s : State) (o : CommOperands) (k : Nat) : State := readDone (commErrorRead s o k) s.cfg.reg.fifoLevel

/-- The reply that step S6 copies. -/
def commBack (s : State) (o : CommOperands) (k : Nat) : List Byte :=
  burstValue (commLevelRead s o k) s.cfg.reg.fifoData (commLevel s o k).toNat o.align

/-- The state in which the reply has been copied. -/
def commCopied (s : State) (o : CommOperands) (k : Nat) : State :=
  burstDone (commLevelRead s o k) s.cfg.reg.fifoData (commLevel s o k).toNat

theorem commBack_length (s : State) (o : CommOperands) (k : Nat) : (commBack s o k).length = (commLevel s o k).toNat :=
  BusOp.burstValue_length _ _ _ _

theorem Ends.commReply_tooLong (hback : o.hasBack = true)
    (hlong : o.cap.toNat < (commLevel s o k).toNat ∨ s.cfg.fifoCapacity < (commLevel s o k).toNat) {e : Byte} :
    Ends ErrorLatched e (Machine.commReply (CommOperands.call o)) (commErrorRead s o k) (.error ⟨.noRoom, none⟩)
      (commLevelRead s o k) := by
  have hreply := commReply_noRoom (s := commErrorRead s o k) (b := e) hback buffers_errorLatched
  rw [commErrorRead_cfg] at hreply
  exact hreply hlong

/-- Step S6 with an output buffer and a reply that fits. -/
theorem commReplied_withBuffer (hfits : o.len.toNat ≤ s.cfg.fifoCapacity) (hdone : CompletedAt (commLoaded s o) o k)
    (hfatal : ¬ FatalBits s.cfg (commErrorByte s o k)) (hback : o.hasBack = true)
    (hcap : (commLevel s o k).toNat ≤ o.cap.toNat) (hfifo : (commLevel s o k).toNat ≤ s.cfg.fifoCapacity) :
    CommReplied s o k (some (commBack s o k)) (commCopied s o k) := by
  refine ⟨hfits, hdone, hfatal, by simp [commCopied, commLevelRead], ?_⟩
  have hreply := Ends.commReply_some (s := commErrorRead s o k)
    (b := commErrorByte s o k) hback buffers_errorLatched
  rw [commErrorRead_cfg] at hreply
  exact hreply hcap hfifo

end steps

/-! ### The check of the reply's CRC -/

section check

variable {G : Type} {g : Scratch → G} {b : G} {s t : State} {o : CommOperands} {back : List Byte}

theorem Ends.commCheck_none : Ends g b (Machine.commCheck (CommOperands.call o) none) s (.ok ()) s :=
  line (pure ())

theorem Ends.commCheck_off (hchk : o.chk = false) :
    Ends g b (Machine.commCheck (CommOperands.call o) (some back)) s (.ok ()) s := by
  refine line ?_
  simp only [CommOperands.call, hchk]
  exact pure ()

theorem Gives.commCheck_on {r : Except Raised Unit} (hchk : o.chk = true)
    (hcrc : Gives g b (Machine.commCheckCrc back) s r t) :
    Gives g b (Machine.commCheck (CommOperands.call o) (some back)) s r t := by
  refine line ?_
  simp only [CommOperands.call, hchk]
  exact hcrc

theorem Ends.commCheckCrc_short (hshort : back.length < 3) :
    Ends g b (Machine.commCheckCrc back) s (.error ⟨.crcWrong, some back⟩) s := by
  refine line ?_
  rw [if_pos hshort]
  exact raiseKeeping _ _

/-- What the check makes of the answer of CALCCRC: every outcome but the match keeps the reply (log 24). -/
def crcJudged (back : List Byte) : Except Raised (Byte × Byte) → Except Raised Unit
  | .ok crc => if crcMatches back crc then .ok () else .error ⟨.crcWrong, some back⟩
  | .error e => .error ⟨e.status, some back⟩

theorem crcJudged_of_match {crc : Byte × Byte} (h : crcMatches back crc = true) : crcJudged back (.ok crc) = .ok () :=
  if_pos h

theorem crcJudged_of_not_match {crc : Byte × Byte} (h : ¬ crcMatches back crc = true) :
    crcJudged back (.ok crc) = .error ⟨.crcWrong, some back⟩ :=
  if_neg h

/-- The end state may be any that agrees. -/
theorem Gives.agree {α : Type} {m : Op α} {r : Except Raised α} {u : State} (hm : Gives g b m s r t) (h : Agree t u) :
    Gives g b m s r u := fun s' x y =>
  ⟨(hm s' x y).1, (hm s' x y).2.trans h⟩

theorem Gives.commCheckCrc_computed {r : Except Raised (Byte × Byte)} (hlong : 3 ≤ back.length)
    (hcrc : runOp (calcCrc (back.take (back.length - 2)) (back.length - 2)) s = (r, t)) :
    Gives g b (Machine.commCheckCrc back) s (crcJudged back r) t := by
  refine line ?_
  rw [if_neg (by omega)]
  have hcall := passOnKeeping (kept := some back) (check := fun _ => [28])
    (call (g := g) (b := b) (s := s)
      (Blind.calcCrc Blind.buffers_unit (back.take (back.length - 2)) (back.length - 2)))
  rw [hcrc] at hcall
  cases r with
  | error e => exact bindError (line hcall)
  | ok crc =>
    refine andThen (line hcall) (ofEnds (Ends.line ?_))
    rw [crcJudged]
    split
    · exact Ends.pure ()
    · exact Ends.raiseKeeping _ _

theorem Gives.commCheck_computed {v : State} {r : Except Raised (Byte × Byte)} (hchk : o.chk = true)
    (hlong : 3 ≤ back.length)
    (hcrc : runOp (calcCrc (back.take (back.length - 2)) (back.length - 2)) s = (r, v)) (hv : Agree v t) :
    Gives g b (Machine.commCheck (CommOperands.call o) (some back)) s (crcJudged back r) t :=
  commCheck_on hchk ((commCheckCrc_computed hlong hcrc).agree hv)

/-- The test of the model and that of the statement are the same for a reply of at least two bytes. -/
theorem crcMatches_iff {lo hi : Byte} (h : 2 ≤ back.length) : crcMatches back (lo, hi) = true ↔
    back[back.length - 2]? = some lo ∧ back[back.length - 1]? = some hi := by
  rw [List.getElem?_eq_getElem (by omega), List.getElem?_eq_getElem (by omega)]
  simp only [crcMatches, Bool.and_eq_true, beq_iff_eq, Option.some.injEq]
  rw [List.getD_eq_getElem _ _ (by omega), List.getD_eq_getElem _ _ (by omega)]

end check

namespace CommReplied

variable {s w v t : State} {o : CommOperands} {k : Nat} {back : List Byte} (h : CommReplied s o k (some back) w)
  (hclear : commErrorByte s o k &&& s.cfg.mask.errColl = 0)
include h hclear

theorem exec_unchecked (hchk : o.chk = false) : exec (.comm o) s = .next (endedOk (bytesResult back) w) :=
  h.exec_checkPassed hclear (Gives.ofEnds (Ends.commCheck_off hchk))

theorem exec_crcShort (hchk : o.chk = true) (hshort : back.length < 3) :
    exec (.comm o) s = .next (endedKeeping .crcWrong back w) :=
  h.exec_checkFailed hclear (Gives.commCheck_on hchk (Gives.ofEnds (Ends.commCheckCrc_short hshort)))

variable (hchk : o.chk = true) (hlong : 3 ≤ back.length) (hv : Agree v t)
include hchk hlong hv

theorem exec_crcFailed {e : Raised}
    (hcrc : runOp (calcCrc (back.take (back.length - 2)) (back.length - 2)) w = (.error e, v)) :
    exec (.comm o) s = .next (endedKeeping e.status back t) :=
  h.exec_checkFailed hclear (Gives.commCheck_computed hchk hlong hcrc hv)

variable {crc : Byte × Byte}
  (hcrc : runOp (calcCrc (back.take (back.length - 2)) (back.length - 2)) w = (.ok crc, v))
include hcrc

theorem exec_crcMatches (hmatch : crcMatches back crc = true) :
    exec (.comm o) s = .next (endedOk (bytesResult back) t) :=
  h.exec_checkPassed hclear (crcJudged_of_match hmatch ▸ Gives.commCheck_computed hchk hlong hcrc hv)

theorem exec_crcDiffers (hdiff : ¬ crcMatches back crc = true) :
    exec (.comm o) s = .next (endedKeeping .crcWrong back t) :=
  h.exec_checkFailed hclear (crcJudged_of_not_match hdiff ▸ Gives.commCheck_computed hchk hlong hcrc hv)

end CommReplied

/-! ### COMM after the completion, outcome by outcome -/

/-- Settles O22: step S5 ends COMM on a fatal bit, before step S6. -/
theorem commErrorBits : Obligations.CommErrorBits := fun _ s k hfits hdone hfatal =>
  exec_comm_completed hfits hdone (Ends.commFinish_error (commPolled_cfg s _ k) hfatal)

/-- Settles O23: step S6 reads nothing, and there is no reply to check. -/
theorem commWithoutBuffer : Obligations.CommWithoutBuffer := fun _ _ _ hfits hdone hback hfatal =>
  have h := commReplied_withoutBuffer hfits hdone hfatal hback
  ⟨h.exec_collision, fun hclear => h.exec_checkPassed hclear (Gives.ofEnds Ends.commCheck_none)⟩

/-- Settles O24: step S6 ends COMM, before the collision bit is looked at. -/
theorem commReplyTooLong : Obligations.CommReplyTooLong := fun _ s k hfits hdone hback hfatal hlong =>
  exec_comm_completed hfits hdone <|
    Ends.commFinish_replyError (commPolled_cfg s _ k) hfatal (Ends.commReply_tooLong hback hlong)

theorem bytesResult_commBack (s : State) (o : CommOperands) (k : Nat) :
    bytesResult (commBack s o k) = replyResults (commLevel s o k) (commBack s o k) :=
  bytesResult_eq_replyResults (commBack_length s o k)

end Sys2Proof.Machine

namespace Sys2Proof

open Machine

/-- Settles O25: the reply is copied before the collision bit is looked at, and with `CHK` 0 it is not checked. -/
theorem commReply : Obligations.CommReply := by
  intro o s k hfits hdone hback _ _ _ _ _ hfatal hcap hfifo
  have h := commReplied_withBuffer hfits hdone hfatal hback hcap hfifo
  refine ⟨commBack_length s o k, h.exec_collision, fun hclear hchk => ?_⟩
  have hok := h.exec_unchecked hclear hchk
  rwa [bytesResult_commBack] at hok

/-- Settles O26: CALCCRC, run alone from the state in which the reply has been copied, answers as the call inside the
check does. -/
theorem commCheck : Obligations.CommCheck := by
  intro o s k hfits hdone hback hchk _ _ _ _ _ hfatal hclear hcap hfifo
  have h := commReplied_withBuffer hfits hdone hfatal hback hcap hfifo
  have hlen := commBack_length s o k
  refine ⟨fun hshort => h.exec_crcShort hclear hchk (hlen.trans_lt hshort),
    fun (hlong : 3 ≤ (commLevel s o k).toNat) => ?_⟩
  obtain ⟨t, q, hexec, hq, r, v, hcrc, hagree, -, -, hcases⟩ := crc_alone (commLevel s o k - 2)
    ((commBack s o k).take ((commLevel s o k).toNat - 2)) (Agree.refl (commCopied s o k))
  have hsub : (commLevel s o k - 2).toNat = (commLevel s o k).toNat - 2 := by bv_omega
  have hlong' : 3 ≤ (commBack s o k).length := hlen ▸ hlong
  rw [hsub, ← hlen] at hcrc
  refine ⟨t, q, hexec, hq, ?_⟩
  rcases hcases with ⟨⟨lo, hi⟩, rfl, hok, hresult⟩ | ⟨e, rfl, hstatus, hne⟩
  case inl =>
    have hiff := crcMatches_iff (back := commBack s o k) (lo := lo) (hi := hi) (by omega)
    have hpass := h.exec_crcMatches hclear hchk hlong' hagree.symm hcrc
    rw [hlen] at hiff
    rw [bytesResult_commBack] at hpass
    exact ⟨fun hbad => absurd hok hbad, fun _ => ⟨lo, hi, by rw [hresult], fun hmatch => hpass (hiff.2 hmatch),
      fun hdiff => h.exec_crcDiffers hclear hchk hlong' hagree.symm hcrc (mt hiff.1 hdiff)⟩⟩
  case inr =>
    rw [hstatus]
    exact ⟨fun _ => h.exec_crcFailed hclear hchk hlong' hagree.symm hcrc, fun hok => absurd hok hne⟩

end Sys2Proof

/-! ## Anti-collision and select (44_anticollision_select.md): REQA, WUPA, ISNEW, SELECT -/

namespace Sys2Proof.Machine

variable {α G H : Type} {g : Scratch → G} {b : G} {h : Scratch → H} {d : H} {s t u : State} {q : Response}

/-! ### A call inside an operation, and the operation it is, run alone -/

theorem Goes.blank {m : Op α} {r : Except Raised α} (hm : Goes Blank () m s r t h d) : Goes g b m s r t h d :=
  fun s' x _ => hm s' x rfl

/-- The end state may be any that agrees. -/
theorem Goes.agree {m : Op α} {r : Except Raised α} (hm : Goes g b m s r t h d) (a : Agree t u) :
    Goes g b m s r u h d := fun s' x y => by
  obtain ⟨h1, h2, h3⟩ := hm s' x y
  exact ⟨h1, h2.trans a, h3⟩

/-- The configuration and `UID` go through an instruction that does not write them. -/
theorem unanswered_frame {i : Instr} (hi : writesUid i = false) (hexec : exec i s = .next t) :
    (unanswered t).cfg = s.cfg ∧ (unanswered t).uid = s.uid := by
  obtain ⟨hcfg, -, huid, -⟩ := persistentFrame i s t hexec
  exact ⟨hcfg, huid hi⟩

/-- From `s` the PICC exchange with a buffer answers `x` and leaves a state that agrees with `t`, whatever statements
test its status. -/
abbrev ExchangeGoes (s : State) (send : List Byte) (txLast : Bits3) (cap : BitVec 7) (x : Except Raised (List Byte))
    (t : State) : Prop :=
  ∀ check, Goes Blank () (piccExchange check send txLast (some cap)) s x t Blank ()

/-- COMM with the operands of a PICC exchange with a buffer has ended in `u` with the response `q`, and an operation
that makes this exchange goes on as `q` says, from the state `u` without the response. -/
structure ExchangeAnswered (s : State) (send : List Byte) (txLast : Bits3) (cap : BitVec 7) (u : State)
    (q : Response) : Prop where
  exec : exec (.comm (exchangeOperands s.cfg send txLast (some cap))) s = .next u
  response : u.response = some q
  cfg : (unanswered u).cfg = s.cfg
  uid : (unanswered u).uid = s.uid
  failed : q.status ≠ .ok → ExchangeGoes s send txLast cap (.error ⟨q.status, none⟩) (unanswered u)
  replied : q.status = .ok → ∃ back, q.results.rdata = some back ∧ back.length ≤ cap.toNat ∧
    ExchangeGoes s send txLast cap (.ok back) (unanswered u)

theorem exchangeAnswered_of_exec {send : List Byte} {txLast : Bits3} {cap : BitVec 7} (hw : s.cfg.wf = true)
    (hl : send.length < 256) (hexec : exec (.comm (exchangeOperands s.cfg send txLast (some cap))) s = .next u)
    (hq : u.response = some q) : ExchangeAnswered s send txLast cap u q := by
  obtain ⟨u', q', hexec', hq', r, v, hrun, hagree, -, hcases⟩ :=
    comm_alone (exchangeOperands s.cfg send txLast (some cap)) hw (Agree.refl s)
  obtain rfl : u = u' := by injection hexec.symm.trans hexec'
  obtain rfl : q = q' := by injection hq.symm.trans hq'
  rw [call_exchangeOperands _ _ _ _ hl] at hrun hcases
  obtain ⟨hcfg, huid⟩ := unanswered_frame rfl hexec
  refine ⟨hexec, hq, hcfg, huid, fun hne check => ?failed, fun hok => ?replied⟩
  all_goals rcases hcases with ⟨back, rfl, hstatus, hresults, hback⟩ | ⟨e, rfl, hstatus, hne'⟩
  case failed.inl => exact absurd hstatus hne
  case failed.inr =>
    rw [hstatus]
    exact (Goes.exchange_error (fun _ _ _ _ _ _ => rfl) hrun).agree hagree.symm
  case replied.inl =>
    cases back with
    | none => cases hback
    | some back =>
      exact ⟨back, by rw [hresults]; rfl, hback.2.1, fun check =>
        (Goes.exchange_ok (fun _ _ _ _ _ _ => rfl) hrun).agree hagree.symm⟩
  case replied.inr => exact absurd (hstatus.symm.trans hok) hne'

theorem exists_exchangeAnswered (hw : s.cfg.wf = true) {send : List Byte} (hl : send.length < 256) (txLast : Bits3)
    (cap : BitVec 7) : ∃ u q, ExchangeAnswered s send txLast cap u q :=
  ⟨_, _, exchangeAnswered_of_exec hw hl rfl rfl⟩

/-- From `s`, the frame buffer holding `data`, CALCCRC of it answers `x` and leaves a state that agrees with `t`, and
the buffer, whatever statements test its status. -/
abbrev CrcGoes (s : State) (len : Nat) (data : List Byte) (x : Except Raised (Byte × Byte)) (t : State) : Prop :=
  ∀ check, Goes (fun y => y.sb) data (passOn check (calcCrc data len)) s x t (fun y => y.sb) data

/-- CALCCRC has ended in `u` with the response `q`, and an operation that calls it on the frame buffer goes on as `q`
says, from the state `u` without the response and with that buffer. -/
structure CrcAnswered (s : State) (len : Byte) (data : List Byte) (u : State) (q : Response) : Prop where
  exec : exec (.calccrc len data) s = .next u
  response : u.response = some q
  cfg : (unanswered u).cfg = s.cfg
  uid : (unanswered u).uid = s.uid
  failed : q.status ≠ .ok → CrcGoes s len.toNat data (.error ⟨q.status, none⟩) (unanswered u)
  computed : q.status = .ok → ∃ crc, q.results.crc = some crc ∧ CrcGoes s len.toNat data (.ok crc) (unanswered u)

theorem exists_crcAnswered (s : State) (len : Byte) (data : List Byte) : ∃ u q, CrcAnswered s len data u q := by
  obtain ⟨u, q, hexec, hq, r, v, hrun, hagree, -, -, hcases⟩ := crc_alone len data (Agree.refl s)
  obtain ⟨hcfg, huid⟩ := unanswered_frame rfl hexec
  have hcall : CrcGoes s len.toNat data (stripped r) (unanswered u) := fun check => by
    have hgoes := Goes.passOn (check := check)
      (Goes.crc (g := fun x => x.sb) (b := data) (s := s) data len.toNat fun _ _ e _ _ _ => e)
    rw [hrun] at hgoes
    exact hgoes.agree hagree.symm
  refine ⟨u, q, hexec, hq, hcfg, huid, fun hne => ?failed, fun hok => ?computed⟩
  all_goals rcases hcases with ⟨crc, rfl, hstatus, hresults⟩ | ⟨e, rfl, hstatus, hne'⟩
  case failed.inl => exact absurd hstatus hne
  case failed.inr => exact hstatus ▸ hcall
  case computed.inl => exact ⟨crc, by rw [hresults], hcall⟩
  case computed.inr => exact absurd (hstatus.symm.trans hok) hne'

/-- A statement fills a buffer, and the next reads it back. -/
theorem Goes.filled {n : Nat} {f : List Byte → Op α} {w : Scratch → Scratch} {v : Scratch → List Byte}
    {bytes : List Byte} {r : Except Raised α} (hv : ∀ x, g x = b → v (w x) = bytes)
    (hf : Goes v bytes (f bytes) s r t h d) :
    Goes g b (Machine.line n (Machine.latch w) >>= fun _ => Machine.peek (fun s => v s.scratch) >>= f) s r t h d :=
  step (latch hv) <| bind (peekScratch fun _ e => e) hf

/-! ### REQA and WUPA -/

theorem Goes.takeAtqa_short {ab : List Byte} (hshort : ab.length < max s.cfg.card.atqaLen.toNat 2) :
    Goes (fun x => x.ab) ab Machine.takeAtqa s (.error ⟨.invalid, none⟩) s Blank () := by
  refine ask <| bind (peekScratch fun _ e => e) <| line ?_
  rw [if_pos hshort]
  exact raise _

section request

variable {cmdByte : Byte}

theorem Goes.reqOrWup_failed {e : Raised}
    (hx : ExchangeGoes s [cmdByte] s.cfg.card.reqTxBits s.cfg.card.atqaLen (.error e) t) :
    Goes g b (Machine.reqOrWup cmdByte) s (.error e) t Blank () :=
  ask <| filled (fun _ _ => rfl) <| bindError (line (blank (hx _)))

theorem Goes.reqOrWup_replied {ab : List Byte} {r : Except Raised (Byte × Byte)}
    (hx : ExchangeGoes s [cmdByte] s.cfg.card.reqTxBits s.cfg.card.atqaLen (.ok ab) t)
    (htake : Goes (fun x => x.ab) ab Machine.takeAtqa t r u Blank ()) :
    Goes g b (Machine.reqOrWup cmdByte) s r u Blank () :=
  ask <| filled (fun _ _ => rfl) <| step (blank (hx _)) <| bind (latch fun _ _ => rfl) htake

/-- An operation that goes as the request exchange with its byte does is that request (44_anticollision_select.md
R192). -/
theorem requestOf_operation (hw : s.cfg.wf = true) {m : Op (Byte × Byte)}
    (hm : ∀ {r t}, Goes Blank () (reqOrWup cmdByte) s r t Blank () → Goes Blank () m s r t Blank ()) :
    RequestOf s cmdByte (.next (operation (m >>= fun atqa => pure { noResult with atqa := some atqa }) s)) := by
  obtain ⟨t, r, hx⟩ := exists_exchangeAnswered hw (send := [cmdByte]) (by simp) s.cfg.card.reqTxBits s.cfg.card.atqaLen
  refine ⟨t, r, hx.exec, hx.response, fun hne => ?failed, fun hok => ?replied⟩
  case failed => exact congrArg Host.Outcome.next (hm (.reqOrWup_failed (hx.failed hne))).stops
  case replied =>
    obtain ⟨ab, hrdata, hlen, hgoes⟩ := hx.replied hok
    refine ⟨ab, hrdata, hlen, fun hshort => ?short, fun a0 a1 rest hab hlong => ?atqa⟩
    case short =>
      have htake := Goes.takeAtqa_short (s := unanswered t) (ab := ab) (by rw [hx.cfg]; omega)
      exact congrArg Host.Outcome.next (hm (.reqOrWup_replied hgoes htake)).stops
    case atqa =>
      subst hab
      have htake := (Goes.takeAtqa (s := unanswered t) (ab := a0 :: a1 :: rest)
        (by rw [hx.cfg]; exact max_le hlong (by simp))).weaken
      exact congrArg Host.Outcome.next (hm (.reqOrWup_replied hgoes htake)).answers

end request

/-- Settles O27: REQA and WUPA are the request exchange with their byte of the configuration. -/
theorem requestResult : Obligations.RequestResult := fun _ hw =>
  ⟨requestOf_operation hw fun hreq => .enter (.ask hreq), requestOf_operation hw fun hreq => .enter (.ask hreq)⟩

/-! ### ISNEW -/

theorem presentOf_eq (st : Status) : presentOf st = decide (st = .ok ∨ st = .collision) := by
  cases st <;> rfl

/-- A call that reads no scratch, as the run it is. -/
theorem Goes.blind {m : Op α} (hm : Blind (fun _ => ()) (fun _ => ()) m) :
    Goes g b m s (runOp m s).1 (runOp m s).2 Blank () := fun s' x _ => by
  obtain ⟨h1, h2⟩ := hm.run x
  exact ⟨h1, h2, fun _ _ => rfl⟩

theorem responseOf_map_status (c : Config) (r : Except Raised α) (f : α → Results) :
    (responseOf c (r.map f)).status = statusOf r := by
  cases r <;> rfl

/-- Settles O28: ISNEW is the map of R193 on the status of the REQA it calls. -/
theorem isnewResult : Obligations.IsnewResult := by
  intro s _
  obtain ⟨hagree, hresponse⟩ := Blind.requestA.alone (fun atqa => { noResult with atqa := some atqa }) (Agree.refl s)
  refine ⟨_, _, rfl, hresponse, ?_⟩
  have hgoes : Goes Blank () isNewCardPresent s (.ok (presentOf (statusOf (runOp requestA s).1))) (runOp requestA s).2
      Blank () := .enter <| .step (.attempt (.blind Blind.requestA)) (.done _)
  rw [responseOf_map_status, ← presentOf_eq]
  exact congrArg Host.Outcome.next
    ((hgoes.agree hagree.symm).answers (f := fun p => { noResult with present := some p }))

/-! ### SELECT: the first exchange -/

/-- Settles O29: the test of VBITS comes before the operation. -/
theorem selectRefusesValidBits : Obligations.SelectRefusesValidBits := fun _ _ hv => if_neg hv

theorem exec_select_stops {st : Status} (hs : Goes Blank () selectCard s (.error ⟨st, none⟩) t Blank ()) :
    exec (.select 0) s = .next (ended st t) := congrArg Host.Outcome.next hs.stops

theorem exec_select_answers {o : UidOut} (hs : Goes Blank () selectCard s (.ok o) t Blank ()) :
    exec (.select 0) s = .next (endedOk { uidOut := some o } t) :=
  congrArg Host.Outcome.next (hs.answers (f := fun o => { noResult with uidOut := some o }))

/-- How the exchange of the anti-collision frame goes (30_encoding.md R91). -/
abbrev AnticollGoes (s : State) (x : Except Raised (List Byte)) (t : State) : Prop :=
  ExchangeGoes s [s.cfg.card.selCl1, s.cfg.card.nvbAnticoll] 0 s.cfg.card.anticollReplyLen x t

theorem Goes.anticollExchange_failed {e : Raised} (hx : AnticollGoes s (.error e) t) :
    Goes g b Machine.anticollExchange s (.error e) t Blank () :=
  ask <| filled (fun _ _ => rfl) <| bindError (line (blank (hx _)))

theorem Goes.anticollExchange_replied {rb : List Byte} (hx : AnticollGoes s (.ok rb) t) :
    Goes g b Machine.anticollExchange s (.ok ()) t (fun x => x.rb) rb :=
  ask <| filled (fun _ _ => rfl) <| step (blank (hx _)) <| latch fun _ _ => rfl

theorem Ends.checkReplyLength_short {rb : List Byte} (hshort : rb.length < max s.cfg.card.anticollReplyLen.toNat 5) :
    Ends g b (Machine.checkReplyLength rb) s (.error ⟨.invalid, none⟩) s := by
  refine bind askCfg <| line ?_
  rw [if_pos hshort]
  exact raise _

theorem Goes.takeAnticoll_short {rb : List Byte} (hshort : rb.length < max s.cfg.card.anticollReplyLen.toNat 5) :
    Goes (fun x => x.rb) rb Machine.takeAnticoll s (.error ⟨.invalid, none⟩) s Blank () :=
  bind (peekScratch fun _ e => e) <| bindError (ofEnds (Ends.checkReplyLength_short hshort))

/-- Settles O30: the failure of the exchange or of the length check ends SELECT before `UID` is written. -/
theorem selectFirstExchange : Obligations.SelectFirstExchange := by
  intro s hw hfive
  obtain ⟨t, r, hx⟩ := exists_exchangeAnswered hw (send := [s.cfg.card.selCl1, s.cfg.card.nvbAnticoll]) (by simp) 0
    s.cfg.card.anticollReplyLen
  refine ⟨t, r, hfive ▸ hx.exec, hx.response, hx.uid, fun hne => ?failed, fun hok => ?replied⟩
  case failed => exact exec_select_stops (.enter (.bindError (.anticollExchange_failed (hx.failed hne))))
  case replied =>
    obtain ⟨rb, hrdata, hlen, hgoes⟩ := hx.replied hok
    refine ⟨rb, hrdata, by simpa [hfive] using hlen, fun hshort => ?_⟩
    exact exec_select_stops <| .enter <| .bind (.anticollExchange_replied hgoes) <|
      .bindError (.takeAnticoll_short (by rw [hx.cfg]; omega))

/-! ### SELECT: after a reply of five bytes -/

theorem Goes.copyUid (rb : List Byte) :
    Goes g b (Machine.copyUid rb) s (.ok ()) (s.setUid (Uid.copied (Uid.unconfirmed s.uid) (rb.take 4))) g b :=
  step (updateUid (f := Uid.unconfirmed)) <| line <| line <| updateUid (f := fun x => Uid.copied x (rb.take 4))

/-- The UID bytes copied from the first reply, unconfirmed, beside the old SAK byte (44_anticollision_select.md
R198). -/
def uidCopied (s : State) (u0 u1 u2 u3 : Byte) : State := s.setUid ⟨4, [u0, u1, u2, u3], s.uid.sak, false⟩

section reply

variable {u0 u1 u2 u3 bcc : Byte} (hfive : s.cfg.card.anticollReplyLen = 5)
include hfive

theorem Goes.takeAnticoll_checked {r : Except Raised Unit}
    (hbcc : Ends (fun x => x.rb) [u0, u1, u2, u3, bcc] (checkBcc [u0, u1, u2, u3, bcc]) (uidCopied s u0 u1 u2 u3) r
      (uidCopied s u0 u1 u2 u3)) :
    Goes (fun x => x.rb) [u0, u1, u2, u3, bcc] Machine.takeAnticoll s r (uidCopied s u0 u1 u2 u3)
      (fun x => x.rb) [u0, u1, u2, u3, bcc] :=
  bind (peekScratch fun _ e => e) <| bind (ofEnds (.checkReplyLength (by simp [hfive]))) <|
    bind (copyUid [u0, u1, u2, u3, bcc]) (ofEnds hbcc)

theorem Goes.takeAnticoll_bccWrong (hx : u0 ^^^ u1 ^^^ u2 ^^^ u3 ≠ bcc) :
    Goes (fun x => x.rb) [u0, u1, u2, u3, bcc] Machine.takeAnticoll s (.error ⟨s.cfg.bccFailStatus, none⟩)
      (uidCopied s u0 u1 u2 u3) (fun x => x.rb) [u0, u1, u2, u3, bcc] :=
  takeAnticoll_checked hfive (.checkBcc_error (xorBytes_four u0 u1 u2 u3 ▸ hx))

theorem Goes.takeAnticoll_ok (hx : u0 ^^^ u1 ^^^ u2 ^^^ u3 = bcc) :
    Goes (fun x => x.rb) [u0, u1, u2, u3, bcc] Machine.takeAnticoll s (.ok ())
      (uidCopied s u0 u1 u2 u3) (fun x => x.rb) [u0, u1, u2, u3, bcc] :=
  takeAnticoll_checked hfive (.checkBcc_ok ((xorBytes_four u0 u1 u2 u3).trans hx))

end reply

/-! ### SELECT: the second exchange and the SAK -/

section second

variable {u0 u1 u2 u3 bcc lo hi : Byte}

/-- The first seven bytes of the SELECT frame (30_encoding.md R92). -/
def selectFrame (c : Config) (u0 u1 u2 u3 bcc : Byte) : List Byte :=
  [c.card.selCl1, c.card.nvbSelect, u0, u1, u2, u3, bcc]

section exchange

variable {c : Config} (hc : s.cfg = c)
include hc

theorem Goes.selectExchange_crcFailed {e : Raised} (hcrc : CrcGoes s 7 (selectFrame c u0 u1 u2 u3 bcc) (.error e) t) :
    Goes (fun x => x.rb) [u0, u1, u2, u3, bcc] Machine.selectExchange s (.error e) t Blank () := by
  subst hc
  exact ask <| filled (bytes := selectFrame s.cfg u0 u1 u2 u3 bcc) (fun _ e => by rw [e]; rfl) <|
    bindError (line (hcrc _))

variable (hcrc : CrcGoes s 7 (selectFrame c u0 u1 u2 u3 bcc) (.ok (lo, hi)) t)
include hcrc

theorem Goes.selectExchange_failed {e : Raised}
    (hx : ExchangeGoes t (selectFrame c u0 u1 u2 u3 bcc ++ [lo, hi]) 0 sakCap (.error e) u) :
    Goes (fun x => x.rb) [u0, u1, u2, u3, bcc] Machine.selectExchange s (.error e) u Blank () := by
  subst hc
  exact ask <| filled (bytes := selectFrame s.cfg u0 u1 u2 u3 bcc) (fun _ e => by rw [e]; rfl) <| step (hcrc _) <|
    filled (fun _ e => by rw [e]) <| bindError (line (blank (hx _)))

theorem Goes.selectExchange_replied {kb : List Byte}
    (hx : ExchangeGoes t (selectFrame c u0 u1 u2 u3 bcc ++ [lo, hi]) 0 sakCap (.ok kb) u) :
    Goes (fun x => x.rb) [u0, u1, u2, u3, bcc] Machine.selectExchange s (.ok ()) u (fun x => x.kb) kb := by
  subst hc
  exact ask <| filled (bytes := selectFrame s.cfg u0 u1 u2 u3 bcc) (fun _ e => by rw [e]; rfl) <| step (hcrc _) <|
    filled (fun _ e => by rw [e]) <| step (blank (hx _)) <| latch fun _ _ => rfl

end exchange

theorem Goes.takeSak_empty : Goes (fun x => x.kb) [] Machine.takeSak s (.error ⟨.invalid, none⟩) s (fun x => x.kb) [] :=
  bind (peekScratch fun _ e => e) <| ofEnds <| .bindError <| .line <| .raise _

theorem Goes.confirmUid (sak : Byte) :
    Goes g b (Machine.confirmUid sak) s (.ok ⟨s.uid.size, s.uid.b, sak⟩) (s.setUid ⟨s.uid.size, s.uid.b, sak, true⟩)
      g b :=
  step (updateUid (f := fun x => Uid.stored x sak)) <| step (updateUid (f := Uid.confirmed)) <| line peekUid

theorem Goes.takeSak_ok (sak : Byte) (rest : List Byte) :
    Goes (fun x => x.kb) (sak :: rest) Machine.takeSak s (.ok ⟨s.uid.size, s.uid.b, sak⟩)
      (s.setUid ⟨s.uid.size, s.uid.b, sak, true⟩) (fun x => x.kb) (sak :: rest) :=
  bind (peekScratch fun _ e => e) <| bind (ofEnds (.sakOf sak rest)) (confirmUid sak)

theorem Goes.selectCard_copied {rb : List Byte} {c v : State} {r : Except Raised UidOut}
    (hx : AnticollGoes s (.ok rb) t)
    (htake : Goes (fun x => x.rb) rb Machine.takeAnticoll t (.ok ()) c (fun x => x.rb) rb)
    (hrest : Goes (fun x => x.rb) rb (Machine.selectExchange >>= fun _ => Machine.takeSak) c r v h d) :
    Goes g b Machine.selectCard s r v h d :=
  enter <| bind (anticollExchange_replied hx) <| bind htake hrest

end second

/-- Settles O31, exit by exit in the order of the steps; CALCCRC and the second COMM, run alone where SELECT has come
to, answer as the calls inside it do. -/
theorem selectCompletes : Obligations.SelectCompletes := by
  intro s t r u0 u1 u2 u3 bcc hw hfive hexec hr hok hrdata copied frame
  have hx := exchangeAnswered_of_exec hw (by simp) (hfive ▸ hexec) hr
  obtain ⟨rb, hrdata', -, hreply⟩ := hx.replied hok
  obtain rfl : rb = [u0, u1, u2, u3, bcc] := by injection hrdata'.symm.trans hrdata
  have hcfg : copied.cfg = s.cfg := hx.cfg
  have hcopied : uidCopied (unanswered t) u0 u1 u2 u3 = copied := by rw [uidCopied, hx.uid]
  have hfive' : (unanswered t).cfg.card.anticollReplyLen = 5 := by rwa [hx.cfg]
  refine ⟨fun hbcc => ?bccWrong, fun hbcc => ?bccRight⟩
  case bccWrong =>
    have htake := Goes.takeAnticoll_bccWrong hfive' hbcc
    rw [hcopied, hx.cfg] at htake
    exact exec_select_stops (.enter (.bind (.anticollExchange_replied hreply) (.bindError htake)))
  case bccRight =>
    have htake := Goes.takeAnticoll_ok hfive' hbcc
    rw [hcopied] at htake
    have hselect : ∀ {r v}, Goes (fun x => x.rb) [u0, u1, u2, u3, bcc] (selectExchange >>= fun _ => takeSak) copied r v
        Blank () → Goes Blank () selectCard s r v Blank () := Goes.selectCard_copied hreply htake
    obtain ⟨w, q, hcrc⟩ := exists_crcAnswered copied 7 frame
    have hcfg' : (unanswered w).cfg = s.cfg := hcrc.cfg.trans hcfg
    refine ⟨w, q, hcrc.exec, hcrc.response, fun hne => ?crcFailed, fun hokCrc => ?crcComputed⟩
    case crcFailed =>
      exact exec_select_stops (hselect (.bindError (.selectExchange_crcFailed hcfg (hcrc.failed hne))))
    case crcComputed =>
      obtain ⟨⟨lo, hi⟩, hresult, hcomputed⟩ := hcrc.computed hokCrc
      obtain ⟨x, p, hsecond⟩ := exists_exchangeAnswered (s := unanswered w) (by rwa [hcfg']) (send := frame ++ [lo, hi])
        (by simp [frame]) 0 sakCap
      refine ⟨lo, hi, x, p, hresult, hcfg' ▸ hsecond.exec, hsecond.response, fun hne => ?failed,
        fun hokSecond => ?replied⟩
      case failed =>
        exact exec_select_stops (hselect (.bindError (.selectExchange_failed hcfg hcomputed (hsecond.failed hne))))
      case replied =>
        obtain ⟨kb, hkb, hlen, hsakReply⟩ := hsecond.replied hokSecond
        have hexchange := Goes.selectExchange_replied hcfg hcomputed hsakReply
        refine ⟨kb, hkb, hlen, fun hempty => ?empty, fun sak rest hcons => ?sak⟩
        case empty =>
          subst hempty
          exact exec_select_stops (hselect (.bind hexchange Goes.takeSak_empty.weaken))
        case sak =>
          subst hcons
          have huid : (unanswered x).uid = ⟨4, [u0, u1, u2, u3], s.uid.sak, false⟩ := hsecond.uid.trans hcrc.uid
          have hsak := (Goes.takeSak_ok (s := unanswered x) sak rest).weaken
          rw [huid] at hsak
          exact exec_select_answers (hselect (.bind hexchange hsak))

/-! ### SELECT: what becomes of `UID` -/

/-- Settles O32: SELECT's triple says how it leaves `UID` with a result and with a failure. -/
theorem selectUid : Obligations.SelectUid := by
  intro s hw
  obtain ⟨-, hselect⟩ := Triple.accepted (Triple.selectCard (Config.fifo_le s.cfg hw) (Config.bccFailStatus_ne_ok hw))
    (s := s) rfl ⟨rfl, rfl, rfl, rfl⟩
  refine ⟨_, _, congrArg Host.Outcome.next (operation_eq _ _), rfl, ?_⟩
  rw [runOp_bind]
  rcases hr : runOp selectCard (s.setBusy true) with ⟨r, t⟩
  rw [hr] at hselect
  cases r with
  | ok o =>
    obtain ⟨b, hb, hsize, rfl, huid, -⟩ := hselect
    obtain ⟨_, _, _⟩ := o
    subst hsize
    exact .inr ⟨rfl, _, _, hb, huid, rfl⟩
  | error e =>
    obtain ⟨⟨hne, -⟩, x, hx, rfl, -⟩ := hselect
    exact .inl ⟨hne, rfl, hx⟩

end Sys2Proof.Machine

/-! ## The halt (45_halt.md): HLTA -/

namespace Sys2Proof.Machine

variable {G : Type} {g : Scratch → G} {b : G} {s t u : State} {lo hi : Byte}

/-- COMM has ended in `u` with a response, and an operation that makes the call and looks at its status sees the
response's, and goes on from the state `u` without it. -/
theorem exists_commAttempted (s : State) (o : CommOperands) : ∃ u q x, exec (.comm o) s = .next u ∧
    u.response = some q ∧ statusOf x = q.status ∧
    Goes Blank () (attempt (communicate (CommOperands.call o))) s (.ok x) (unanswered u) Blank () := by
  have hblind : Blind (fun _ => ()) (fun _ => ()) (communicate (CommOperands.call o)) :=
    .communicate (fun _ _ _ _ _ => rfl) (fun _ _ => rfl) _
  obtain ⟨hagree, hresponse⟩ := hblind.alone backResult (Agree.refl s)
  exact ⟨_, _, _, rfl, hresponse, (responseOf_map_status _ _ _).symm, (Goes.attempt (.blind hblind)).agree hagree.symm⟩

/-- How HLTA ends after an exchange of status `st` (45_halt.md R221). -/
def haltOutcome (st : Status) : Except Raised Unit :=
  if st = .timeout then .ok () else .error ⟨.error, none⟩

theorem Goes.haltA_crcFailed {e : Raised} (hcrc : CrcGoes s 2 [s.cfg.card.hlta0, s.cfg.card.hlta1] (.error e) t) :
    Goes g b Machine.haltA s (.error e) t Blank () :=
  enter <| ask <| filled (fun _ _ => rfl) <| bindError (line (hcrc _))

theorem Goes.haltA_exchanged {x : Except Raised (Option (List Byte))}
    (hcrc : CrcGoes s 2 [s.cfg.card.hlta0, s.cfg.card.hlta1] (.ok (lo, hi)) t)
    (hx : Goes Blank () (Machine.attempt (communicate
      (exchangeCall s.cfg [s.cfg.card.hlta0, s.cfg.card.hlta1, lo, hi] 0 none))) t (.ok x) u Blank ()) :
    Goes g b Machine.haltA s (haltOutcome (statusOf x)) u Blank () := by
  refine enter <| ask <| filled (fun _ _ => rfl) <| step (hcrc _) <| filled (fun _ e => by rw [e]; rfl) <|
    step (blank hx) <| line ?_
  cases statusOf x with
  | timeout => exact result ()
  | _ => exact line (raise _)

theorem exec_hlta_stops {st : Status} (hs : Goes Blank () haltA s (.error ⟨st, none⟩) t Blank ()) :
    exec .hlta s = .next (ended st t) := congrArg Host.Outcome.next hs.stops

theorem exec_hlta_answers (hs : Goes Blank () haltA s (.ok ()) t Blank ()) : exec .hlta s = .next (endedOk {} t) :=
  congrArg Host.Outcome.next (hs.answers (f := fun _ => noResult))

/-- Settles O33: HLTA goes as CALCCRC and COMM, run alone, say; the CRC's failure ends it before the exchange, and of
the exchange it looks at the status alone. -/
theorem hltaResult : Obligations.HltaResult := by
  intro s _
  obtain ⟨t, r, hcrc⟩ := exists_crcAnswered s 2 [s.cfg.card.hlta0, s.cfg.card.hlta1]
  refine ⟨t, r, hcrc.exec, hcrc.response, fun hne => ?crcFailed, fun hok => ?crcComputed⟩
  case crcFailed => exact exec_hlta_stops (.haltA_crcFailed (hcrc.failed hne))
  case crcComputed =>
    obtain ⟨⟨lo, hi⟩, hresult, hcomputed⟩ := hcrc.computed hok
    obtain ⟨u, q, x, hexec, hresponse, hstatus, hx⟩ := exists_commAttempted (unanswered t)
      (exchangeOperands s.cfg [s.cfg.card.hlta0, s.cfg.card.hlta1, lo, hi] 0 none)
    rw [call_exchangeOperands _ _ _ _ (by simp)] at hx
    have hhalt := Goes.haltA_exchanged (g := Blank) (b := ()) hcomputed hx
    rw [hstatus] at hhalt
    refine ⟨lo, hi, u, q, hresult, hexec, hresponse, fun htimeout => ?timedOut, fun hother => ?answered⟩
    case timedOut =>
      rw [haltOutcome, if_pos htimeout] at hhalt
      exact exec_hlta_answers hhalt
    case answered =>
      rw [haltOutcome, if_neg hother] at hhalt
      exact exec_hlta_stops hhalt

end Sys2Proof.Machine

/-! ## The host call surface (46_host_ops.md): INITIALIZE, POLL -/

namespace Sys2Proof.Machine

variable {α G H : Type} {g : Scratch → G} {b : G} {h : Scratch → H} {d : H} {s t u v : State}

/-! ### INITIALIZE -/

theorem exec_hreset (s : State) : exec .hreset s = .next (endedOk {} (resetDone s)) := hresetResult s

theorem exec_init (s : State) : exec .init s = .next (endedOk {} (initDone s)) := initResult s

/-- What follows an operation goes on from its last state as from the one it leaves without the response. -/
theorem exec_unanswered_respond (i : Instr) (r : Except Raised Results) (s : State) :
    exec i (unanswered (respond r s)) = exec i s := exec_of_agree i (agree_unanswered_respond s r)

theorem Goes.setFatal (x : Bool) :
    Goes g b (Machine.update fun s => s.setFatal x) s (.ok ()) (s.setFatal x) g b := fun _ a e =>
  ⟨rfl, a.setFatal x, fun _ _ => e⟩

theorem exec_initialise_open (s : State) :
    exec (.initialise true) s = .next (endedOk {} (initDone (resetDone s))) :=
  have hbody : Goes Blank () (initializeOp true) s (.ok ()) (initDone (resetDone s)) Blank () :=
    .enter <| .step (.ofEnds .hardReset) <| .step (.ofEnds (.initChip Blind.buffers_unit)) (.done ())
  congrArg Host.Outcome.next (hbody.answers (f := fun _ => noResult))

theorem exec_initialise_closed (s : State) :
    exec (.initialise false) s = .next (ended .error (s.setFatal true)) :=
  have hbody : Goes Blank () (initializeOp false) s (.error ⟨.error, none⟩) (s.setFatal true) Blank () :=
    .enter <| .step (.setFatal true) <| .line (.raise _)
  congrArg Host.Outcome.next hbody.stops

/-- Settles O34: INIT goes on where HRESET has come to, and without the bus only FATAL is written. -/
theorem initializeResult : Obligations.InitializeResult := fun s => by
  have hinit : exec .init (unanswered (endedOk {} (resetDone s))) = exec .init (resetDone s) :=
    exec_unanswered_respond .init _ _
  exact ⟨⟨_, exec_hreset s, by rw [hinit, exec_init, exec_initialise_open]⟩, exec_initialise_open s,
    exec_initialise_closed s⟩

/-! ### An operation called inside another for its status, and the same operation run alone -/

/-- An operation run alone ends with a response whose status is the one seen by an operation that calls it for its
status, and that goes on from the state without the response. -/
theorem Blind.exists_attempted {m : Op α} (hm : Blind (fun _ => ()) (fun _ => ()) m) (f : α → Results) (s : State) :
    ∃ r x, (Machine.operation (m >>= fun a => Pure.pure (f a)) s).response = some r ∧ statusOf x = r.status ∧
      Goes Blank () (Machine.attempt m) s (.ok x)
        (unanswered (Machine.operation (m >>= fun a => Pure.pure (f a)) s)) Blank () := by
  obtain ⟨hagree, hresponse⟩ := hm.alone f (Agree.refl s)
  exact ⟨_, _, hresponse, (responseOf_map_status _ _ _).symm, (Goes.attempt (.blind hm)).agree hagree.symm⟩

theorem exists_hltaAttempted (s : State) : ∃ u x, exec .hlta s = .next u ∧
    Goes Blank () (Machine.attempt haltA) s (.ok x) (unanswered u) Blank () := by
  obtain ⟨-, x, -, -, hx⟩ := Blind.haltA.exists_attempted (fun _ => noResult) s
  exact ⟨_, x, rfl, hx⟩

/-- ISNEW never fails (44_anticollision_select.md R193), so an operation that calls it goes on with its result. -/
theorem exists_isnewAnswered (s : State) : ∃ t p, exec .isnew s = .next t ∧ Responded t .ok { present := some p } ∧
    Goes Blank () Machine.isNewCardPresent s (.ok p) (unanswered t) Blank () := by
  have hgoes : Goes Blank () Machine.isNewCardPresent s (.ok (presentOf (statusOf (runOp requestA s).1)))
      (runOp requestA s).2 Blank () := .enter <| .step (.attempt (.blind Blind.requestA)) (.done _)
  exact ⟨_, _, congrArg Host.Outcome.next (hgoes.answers (f := fun p => { noResult with present := some p })),
    endedOk_responded _ _, hgoes.agree (agree_unanswered_respond _ _).symm⟩

/-! ### POLL: the parts after the request -/

theorem Goes.readCardSerial {x : Except Raised UidOut}
    (hx : Goes Blank () (Machine.attempt selectCard) s (.ok x) t Blank ()) :
    Goes g b Machine.readCardSerial s (.ok (statusOf x == .ok)) t Blank () := bind (blank hx) (result _)

/-- SELECT has ended in `u` with the response `r`, and `ReadCardSerial`, which makes this call, finds a card as `r` says;
the UID handed out with OK is the one SELECT has confirmed (46_host_ops.md R232). -/
theorem exists_selectRead (hw : s.cfg.wf = true) : ∃ u r, exec (.select 0) s = .next u ∧ u.response = some r ∧
    (r.status ≠ .ok → Goes Blank () Machine.readCardSerial s (.ok false) (unanswered u) Blank ()) ∧
    (r.status = .ok → r.results.uidOut = some (Uid.out (unanswered u).uid) ∧
      Goes Blank () Machine.readCardSerial s (.ok true) (unanswered u) Blank ()) := by
  obtain ⟨u, r, hexec, hr, huid⟩ := selectUid s hw
  obtain ⟨x, hstatus, hx⟩ : ∃ x, statusOf x = r.status ∧
      Goes Blank () (Machine.attempt selectCard) s (.ok x) (unanswered u) Blank () := by
    obtain ⟨r', x, hr', hstatus, hx⟩ := Blind.selectCard.exists_attempted
      (fun o => { noResult with uidOut := some o }) s
    cases hexec
    obtain rfl : r = r' := by injection hr.symm.trans hr'
    exact ⟨x, hstatus, hx⟩
  have hread := Goes.readCardSerial (g := Blank) (b := ()) hx
  rw [hstatus] at hread
  refine ⟨u, r, hexec, hr, fun hne => ?failed, fun hok => ⟨?uid, ?found⟩⟩
  case failed => rwa [beq_eq_false_iff_ne.mpr hne] at hread
  case uid =>
    obtain ⟨hne, -⟩ | ⟨-, _, _, -, hu, hresults⟩ := huid
    · exact absurd hok hne
    · rw [hresults, show (unanswered u).uid = _ from hu, Uid.out]
  case found => rwa [beq_iff_eq.mpr hok] at hread

/-- The state in which the card has been reported, and HLTA begins (46_host_ops.md R233). -/
def cardReported (s : State) : State := s.emit (.cardDiscovered (Uid.out s.uid))

theorem Goes.reportCard_active (hhalt : s.cfg.haltAfterRead = false) :
    Goes g b Machine.reportCard s (.ok (Uid.out s.uid)) (cardReported s) g b := by
  refine ask <| bind peekUid <| step (discovered _) <| line ?_
  rw [if_neg (by simp [hhalt])]
  exact result _

theorem Goes.reportCard_halted {x : Except Raised Unit} (hhalt : s.cfg.haltAfterRead = true)
    (hx : Goes Blank () (Machine.attempt haltA) (cardReported s) (.ok x) t Blank ()) :
    Goes g b Machine.reportCard s (.ok (Uid.out s.uid)) t Blank () := by
  refine ask <| bind peekUid <| step (discovered _) <| line ?_
  rw [if_pos hhalt]
  exact step (blank hx) (result _)

/-! ### POLL: its exits -/

theorem exec_poll_answers {o : Option UidOut} (hp : Goes Blank () pollForCard s (.ok o) t h d) :
    exec .poll s = .next (endedOk (pollResult o) t) := congrArg Host.Outcome.next hp.answers

theorem exec_poll_absent (hnew : Goes Blank () isNewCardPresent s (.ok false) t Blank ()) :
    exec .poll s = .next (endedOk { someTag := some false } t) :=
  exec_poll_answers <| .enter <| .step hnew <| .line (.result none)

theorem exec_poll_unread (hnew : Goes Blank () isNewCardPresent s (.ok true) t Blank ())
    (hread : Goes Blank () readCardSerial t (.ok false) u Blank ()) :
    exec .poll s = .next (endedOk { someTag := some false } u) :=
  exec_poll_answers <| .enter <| .step hnew <| .line <| .step hread <| .line (.result none)

theorem exec_poll_reported {o : UidOut} (hnew : Goes Blank () isNewCardPresent s (.ok true) t Blank ())
    (hread : Goes Blank () readCardSerial t (.ok true) u Blank ())
    (hreport : Goes Blank () reportCard u (.ok o) v Blank ()) :
    exec .poll s = .next (endedOk { uidOut := some o, someTag := some true } v) :=
  exec_poll_answers <| .enter <| .step hnew <| .line <| .step hread <| .line <| .bind hreport (.done (some o))

end Sys2Proof.Machine

namespace Sys2Proof

open Machine

/-- Settles O35, exit by exit: ISNEW, SELECT and HLTA, run alone where POLL has come to, end as the calls inside it
do. -/
theorem pollResult : Obligations.PollResult := by
  intro s hw
  obtain ⟨t, p, hisnew, hpresent, hnew⟩ := exists_isnewAnswered s
  have hcfg : (unanswered t).cfg = s.cfg := (unanswered_frame rfl hisnew).1
  refine ⟨t, p, hisnew, hpresent, fun habsent => ?absent, fun hcard => ?card⟩
  case absent =>
    subst habsent
    exact exec_poll_absent hnew
  case card =>
    subst hcard
    obtain ⟨u, r, hselect, hr, hfailed, hok⟩ := exists_selectRead (s := unanswered t) (by rwa [hcfg])
    have hcfg' : (unanswered u).cfg = s.cfg := (persistentFrame _ _ _ hselect).1.trans hcfg
    refine ⟨u, r, hselect, hr, fun hne => exec_poll_unread hnew (hfailed hne), fun hrok => ?read⟩
    obtain ⟨hout, hread⟩ := hok hrok
    refine ⟨_, hout, fun hactive => ?active, fun hhalt => ?halted⟩
    case active => exact exec_poll_reported hnew hread (.weaken (.reportCard_active (by rwa [hcfg'])))
    case halted =>
      obtain ⟨w, x, hhlta, hx⟩ := exists_hltaAttempted (cardReported (unanswered u))
      exact ⟨w, hhlta, exec_poll_reported hnew hread (.reportCard_halted (by rwa [hcfg']) hx)⟩

end Sys2Proof

/-! ## The response record (60_exceptions.md), the frame bounds (70_reset_and_hazards.md), words written out -/

namespace Sys2Proof.Machine

/-! ### The end of an operation -/

theorem respond_idle (r : Except Raised Results) (s : State) : Idle (respond r s) :=
  ⟨respond_busy r s, respond_seq r s, respond_poll r s, respond_scratch r s⟩

theorem respond_sameBlock (r : Except Raised Results) (s : State) : SameBlock s (respond r s) :=
  ⟨respond_cfg r s, respond_uid r s, respond_nrst r s, respond_fatal r s, respond_host r s⟩

/-- Settles O3: the three ends are `respond` of a failure without and with a kept reply and of a result; what it writes
and leaves is said of it once, for every outcome. -/
theorem responseRecord : Obligations.ResponseRecord :=
  ⟨fun st s => respond_response (.error ⟨st, none⟩) s,
    fun st back s => respond_response (.error ⟨st, some back⟩) s,
    fun r s => respond_response (.ok r) s,
    fun r s => ⟨respond_idle r s, respond_sameBlock r s, respond_chip r s, responseOf s.cfg r, respond_response r s,
      respond_trace r s⟩⟩

/-! ### The frames of an instruction -/

/-- Settles O60: the frames are one of the four things `exec_completed` says of an instruction. -/
theorem frameBounds : Obligations.FrameBounds := fun i s t _ hw hexec => (exec_completed i s t hw hexec).frames

end Sys2Proof.Machine

namespace Sys2Proof

/-! ### Words written out from the encodings -/

/-- Settles O48: each word is what the encoder writes for its instruction, so `decode_encode` reads it back. -/
theorem decodeWords : Obligations.DecodeWords :=
  ⟨decode_encode (.rdreg 0x06) rfl,
    decode_encode (.wrblk 0x09 2 [0x93, 0x20]) rfl,
    decode_encode (.select 0) rfl,
    decode_encode (.xferRd1 0x06) rfl,
    decode_encode (.xferWr1 0x01 0x0C) rfl,
    decode_encode (.xferRdn 0x09 3 4) rfl,
    decode_encode .cmdTransceive rfl,
    decode_encode (.bitframingValue false 7 7) rfl,
    decode_encode .piccReqa rfl,
    decode_encode .piccAnticollCl1 rfl,
    decode_encode .statusCrcWrong rfl⟩

end Sys2Proof
